-- ==== Sys2Proof/Word.lean ====
section
/-! DEFINITION. The byte, word and block types of the core (spec/00_scope.md R13 to R15, R8). -/

namespace Sys2Proof

/-- One byte of a buffer, a key, an IV or a block (R13: every value is unsigned). -/
abbrev Byte := BitVec 8

/-- A host-visible register, a DMEM address and a command word: REG_W = ADDR_W = 32 (R9). -/
abbrev Word := BitVec 32

/-- A block is a 16-byte string; as a state matrix it is read column-major, `s[r][c] = b[r + 4c]` (R8, R15). -/
abbrev Block := Vector Byte 16

end Sys2Proof
end

