-- ==== Sys2Proof/Syntax.lean ====
section
/-! DEFINITION. The commands of the core: one constructor per row of spec/opcode_table.json (spec/30_encoding.md R115). -/

namespace Sys2Proof

/-- The commands (R115), with the operands R111 and R112 give them. `a`, `b` and the round index `r` are unsigned bytes;
`outsel` is OUTSEL. Every other operand is implicit (R111). Every term of this type is a well-formed command: the types bound
each operand to the values its field admits. -/
inductive Instr
  | nop
  | gfmul (a b : Byte)
  | sbox (a : Byte)
  | invsbox (a : Byte)
  | setkey
  | expand
  | setiv
  | geniv
  | encblk
  | decblk
  | subbytes
  | invsubbytes
  | shiftrows
  | invshiftrows
  | mixcolumns
  | invmixcolumns
  | addrk (r : Byte)
  | encrypt (outsel : Bool)
  | decrypt (outsel : Bool)
  | zeroize
  deriving DecidableEq, Repr

end Sys2Proof
end

