-- ==== Sys2Proof/Decode.lean ====
section
/-! DEFINITION. Decoding the command word, total on all 2^32 words (R110 to R118), and the encoder beside it. -/

namespace Sys2Proof

/-! ### The fields of the command word (R110) -/

/-- OPC, bits [7:0]. -/
def opcField (w : Word) : Byte := w.extractLsb' 0 8
/-- A, bits [15:8]. -/
def aField (w : Word) : Byte := w.extractLsb' 8 8
/-- B, bits [23:16]. -/
def bField (w : Word) : Byte := w.extractLsb' 16 8
/-- OUTSEL, bit [24]. -/
def outselField (w : Word) : Bool := w.getLsbD 24
/-- RSV, bits [31:25]. -/
def rsvField (w : Word) : BitVec 7 := w.extractLsb' 25 7

/-- Why a word is Illegal (R113, R116, R117). -/
inductive DecodeError
  /-- RSV is not zero. -/
  | reservedBits
  /-- OPC is not in the opcode map. -/
  | reservedOpcode
  /-- OPC is defined and a field it does not use is not zero. -/
  | unusedField
  deriving DecidableEq, Repr

/-- `i` if every field the opcode does not use is zero (R113). -/
def needs (unusedAreZero : Bool) (i : Instr) : Except DecodeError Instr :=
  if unusedAreZero then .ok i else .error .unusedField

/-- The case split of R117 on the opcode, with RSV already found zero. -/
def decodeFields (opc a b : Byte) (o : Bool) : Except DecodeError Instr :=
  if opc = 0x00 then needs (a == 0 && b == 0 && !o) .nop
  else if opc = 0x01 then needs (!o) (.gfmul a b)
  else if opc = 0x02 then needs (b == 0 && !o) (.sbox a)
  else if opc = 0x03 then needs (b == 0 && !o) (.invsbox a)
  else if opc = 0x10 then needs (a == 0 && b == 0 && !o) .setkey
  else if opc = 0x11 then needs (a == 0 && b == 0 && !o) .expand
  else if opc = 0x12 then needs (a == 0 && b == 0 && !o) .setiv
  else if opc = 0x13 then needs (a == 0 && b == 0 && !o) .geniv
  else if opc = 0x20 then needs (a == 0 && b == 0 && !o) .encblk
  else if opc = 0x21 then needs (a == 0 && b == 0 && !o) .decblk
  else if opc = 0x22 then needs (a == 0 && b == 0 && !o) .subbytes
  else if opc = 0x23 then needs (a == 0 && b == 0 && !o) .invsubbytes
  else if opc = 0x24 then needs (a == 0 && b == 0 && !o) .shiftrows
  else if opc = 0x25 then needs (a == 0 && b == 0 && !o) .invshiftrows
  else if opc = 0x26 then needs (a == 0 && b == 0 && !o) .mixcolumns
  else if opc = 0x27 then needs (a == 0 && b == 0 && !o) .invmixcolumns
  else if opc = 0x28 then needs (b == 0 && !o) (.addrk a)
  else if opc = 0x30 then needs (a == 0 && b == 0) (.encrypt o)
  else if opc = 0x31 then needs (a == 0 && b == 0) (.decrypt o)
  else if opc = 0x3F then needs (a == 0 && b == 0 && !o) .zeroize
  else .error .reservedOpcode

/-- `decode` of R117: the command a word spells, or the reason it is Illegal. -/
def decode (w : Word) : Except DecodeError Instr :=
  if rsvField w ≠ 0 then .error .reservedBits
  else decodeFields (opcField w) (aField w) (bField w) (outselField w)

/-! ### The encoder, from the format of R110 and the opcode map of R115 -/

/-- A command word from its fields, RSV = 0 (R110). -/
def commandWord (opc a b : Byte) (o : Bool) : Word :=
  (0#7 ++ BitVec.ofBool o ++ b ++ a ++ opc : BitVec (7 + 1 + 8 + 8 + 8))

/-- The command word of a command (R115). -/
def encode : Instr → Word
  | .nop => commandWord 0x00 0 0 false
  | .gfmul a b => commandWord 0x01 a b false
  | .sbox a => commandWord 0x02 a 0 false
  | .invsbox a => commandWord 0x03 a 0 false
  | .setkey => commandWord 0x10 0 0 false
  | .expand => commandWord 0x11 0 0 false
  | .setiv => commandWord 0x12 0 0 false
  | .geniv => commandWord 0x13 0 0 false
  | .encblk => commandWord 0x20 0 0 false
  | .decblk => commandWord 0x21 0 0 false
  | .subbytes => commandWord 0x22 0 0 false
  | .invsubbytes => commandWord 0x23 0 0 false
  | .shiftrows => commandWord 0x24 0 0 false
  | .invshiftrows => commandWord 0x25 0 0 false
  | .mixcolumns => commandWord 0x26 0 0 false
  | .invmixcolumns => commandWord 0x27 0 0 false
  | .addrk r => commandWord 0x28 r 0 false
  | .encrypt o => commandWord 0x30 0 0 o
  | .decrypt o => commandWord 0x31 0 0 o
  | .zeroize => commandWord 0x3F 0 0 false

/-- The instruction the decoder reads from an instruction of `nbits` bits, bit 0 the least significant bit of the command word.
A command is exactly one 32-bit word (R114), so a longer value spells none. -/
def decodeTableWord (nbits w : Nat) : Option Instr :=
  let v := w % 2 ^ nbits
  if v < 2 ^ 32 then (decode (BitVec.ofNat 32 v)).toOption else none

/-! ### The pattern table of R118, beside the decoder: a second reading of the same encodings -/

/-- A row of R118: a word selects it when `w AND mask = pattern`. -/
structure OpcodeRow where
  mnemonic : String
  pattern : Word
  mask : Word
  deriving DecidableEq, Repr

/-- The rows of R118, in its order. -/
def opcodeRows : List OpcodeRow :=
  [⟨"NOP", 0x00000000, 0xFFFFFFFF⟩,
   ⟨"GFMUL", 0x00000001, 0xFF0000FF⟩,
   ⟨"SBOX", 0x00000002, 0xFFFF00FF⟩,
   ⟨"INVSBOX", 0x00000003, 0xFFFF00FF⟩,
   ⟨"SETKEY", 0x00000010, 0xFFFFFFFF⟩,
   ⟨"EXPAND", 0x00000011, 0xFFFFFFFF⟩,
   ⟨"SETIV", 0x00000012, 0xFFFFFFFF⟩,
   ⟨"GENIV", 0x00000013, 0xFFFFFFFF⟩,
   ⟨"ENCBLK", 0x00000020, 0xFFFFFFFF⟩,
   ⟨"DECBLK", 0x00000021, 0xFFFFFFFF⟩] ++
  [⟨"SUBBYTES", 0x00000022, 0xFFFFFFFF⟩,
   ⟨"INVSUBBYTES", 0x00000023, 0xFFFFFFFF⟩,
   ⟨"SHIFTROWS", 0x00000024, 0xFFFFFFFF⟩,
   ⟨"INVSHIFTROWS", 0x00000025, 0xFFFFFFFF⟩,
   ⟨"MIXCOLUMNS", 0x00000026, 0xFFFFFFFF⟩,
   ⟨"INVMIXCOLUMNS", 0x00000027, 0xFFFFFFFF⟩,
   ⟨"ADDRK", 0x00000028, 0xFFFF00FF⟩,
   ⟨"ENCRYPT", 0x00000030, 0xFEFFFFFF⟩,
   ⟨"DECRYPT", 0x00000031, 0xFEFFFFFF⟩,
   ⟨"ZEROIZE", 0x0000003F, 0xFFFFFFFF⟩]

/-- The word selects the row (R118). -/
def OpcodeRow.selects (r : OpcodeRow) (w : Word) : Bool := w &&& r.mask == r.pattern

/-- The mnemonic of a command, as R115 spells it. -/
def Instr.mnemonic : Instr → String
  | .nop => "NOP"
  | .gfmul _ _ => "GFMUL"
  | .sbox _ => "SBOX"
  | .invsbox _ => "INVSBOX"
  | .setkey => "SETKEY"
  | .expand => "EXPAND"
  | .setiv => "SETIV"
  | .geniv => "GENIV"
  | .encblk => "ENCBLK"
  | .decblk => "DECBLK"
  | .subbytes => "SUBBYTES"
  | .invsubbytes => "INVSUBBYTES"
  | .shiftrows => "SHIFTROWS"
  | .invshiftrows => "INVSHIFTROWS"
  | .mixcolumns => "MIXCOLUMNS"
  | .invmixcolumns => "INVMIXCOLUMNS"
  | .addrk _ => "ADDRK"
  | .encrypt _ => "ENCRYPT"
  | .decrypt _ => "DECRYPT"
  | .zeroize => "ZEROIZE"

end Sys2Proof
end

