-- ==== Sys2Proof/Machine/Bytes.lean ====
section
/-! DEFINITION. Byte strings: little-endian integers (R14), XOR (R14), byte lanes of registers (R50), blocks and windows (R85). -/

namespace Sys2Proof.Machine

/-- `LE(b)` of R14: the sum of `b[i] * 256^i`. -/
def leNat : List Byte → Nat
  | [] => 0
  | b :: bs => b.toNat + 256 * leNat bs

/-- `LEbytes_n(x)` of R14: the n-byte string whose `LE` is `x mod 256^n`. -/
def leBytes : Nat → Nat → List Byte
  | 0, _ => []
  | n + 1, x => BitVec.ofNat 8 x :: leBytes n (x / 256)

/-- Bytewise XOR of two byte strings (R14), as long as the shorter one. -/
def xorBytes (x y : List Byte) : List Byte := List.zipWith (· ^^^ ·) x y

/-- The n-byte array that starts with `l` and is zero after it. -/
def bytesOf (n : Nat) (l : List Byte) : Vector Byte n := ⟨((l ++ List.replicate n 0).take n).toArray, by simp⟩

/-- A byte string's first 16 bytes as a block, index by index (R85). -/
def blockOf (l : List Byte) : Block := Vector.ofFn fun i => l.getD i 0

/-- 16-lane byte XOR. -/
def xorBlock (x y : Block) : Block := Vector.ofFn fun i => x[i] ^^^ y[i]

/-- A register's four bytes, lane 0 the least significant (R50). -/
def wordBytes (w : Word) : List Byte := leBytes 4 w.toNat

/-- The register whose lanes are the four bytes (R50). -/
def wordOfBytes (l : List Byte) : Word := BitVec.ofNat 32 (leNat l)

/-- Register j of a byte array: byte 4j+m in bits [8m+7:8m] (R50). -/
def laneWord {n : Nat} (v : Vector Byte n) (j : Nat) : Word := wordOfBytes ((v.toList.drop (4 * j)).take 4)

/-- A byte array with register j replaced (R50). -/
def setLanes {n : Nat} (v : Vector Byte n) (j : Nat) (w : Word) : Vector Byte n :=
  Vector.ofFn fun i => if i.val / 4 = j then (wordBytes w).getD (i.val % 4) 0 else v[i]

end Sys2Proof.Machine
end

