-- ==== Sys2Proof/Config.lean ====
section
/-! DEFINITION. The open implementation parameters of R9 and R92, and the free values the spec leaves open. -/

namespace Sys2Proof

/-- The CBC tail policy, parameter `CBC_TAIL` (R9, R251, R255). -/
inductive CbcTail
  | xorThenWindow   -- the default of R251
  | xorOnly         -- the alternative of R255
  deriving DecidableEq, Repr

/-- How PVS derives its 256-bit key operand, parameter `PVS_KEYOP` (R9, R261). The spec names one value; `other` stands for
every other derivation an implementation may fix, and its operand is the free value `Config.pvsKeyOperand` (log 13). -/
inductive PvsKeyOp
  | scheduleBytes0To31
  | other
  deriving DecidableEq, Repr

/-- The parameters the spec leaves open, as plain data (R9, R92; log 1). They stand in the state because `step` takes no other
argument, and no step changes them: a claim about every state is a claim about every choice of them. -/
structure Params where
  /-- `DMEM_SIZE`, bytes of data memory (R9, R80). -/
  dmemSize : Nat
  /-- `CBC_TAIL` (R9, R251). -/
  cbcTail : CbcTail
  /-- `PVS_KEYOP` (R9, R261). -/
  pvsKeyOp : PvsKeyOp
  /-- `REG_BASE`, where the register space sits in the host's address space (R92). -/
  regBase : Nat
  /-- `DMEM_BASE`, where DMEM sits in the host's address space (R92). -/
  dmemBase : Nat
  deriving DecidableEq, Repr

namespace Config

/-- FREE VALUE. The content of a DMEM byte at power-up, a draw per byte (R84, U12; log 5). -/
opaque dmemPowerUp : Nat → Byte

/-- FREE VALUE. The n-th draw of a register read (R57, U7; log 4). -/
opaque freeWord : Nat → Word

/-- FREE VALUE. The n-th draw of a memory byte (R98, R321, U8, U9, U14; log 4). -/
opaque freeByte : Nat → Byte

/-- FREE VALUE. `LATENCY` (R9, R333): the core steps between the n-th acceptance and its completion. It may depend on the
command word and on any data (R334), so it takes the registers' bytes and DMEM as well, and nothing says how (log 3). -/
opaque latency : Nat → Word → List Byte → List (Nat × Byte) → Nat

/-- FREE VALUE. The PVS key operand under a `PVS_KEYOP` the spec does not name, from the schedule's bytes (R261; log 13). -/
opaque pvsKeyOperand : List Byte → BitVec 256

end Config

end Sys2Proof
end

