-- ==== Sys2Proof/HostAgent.lean ====
section
/-! DEFINITION. The vocabulary of the host agent (R11): register names (R32), the moves a host or the platform makes,
what a read returns, and the host assembly language of R130 to R132. -/

namespace Sys2Proof

/-- The registers of the register map (R32). Arrays carry their index. -/
inductive RegName
  | cmd | status | cfg | size | src | dst | piaddr | pilen | tseed | result | kinfo
  | keyin (j : Fin 8)
  | ivin (j : Fin 4)
  | block (j : Fin 4)
  | iv (j : Fin 4)
  | key (j : Fin 8)
  | ks (j : Fin 60)
  deriving DecidableEq, Repr

/-- The access column of the register map (R32). -/
inductive RegAccess
  | ro | rw | wo
  deriving DecidableEq, Repr

/-- One move of the host, or of the platform for `reset`. `width` is the access width in bytes. -/
inductive HostMove
  /-- A read of the register space at a byte offset (R31). -/
  | regRead (offset width : Nat)
  /-- A write of the register space (R31); a write at CMD's offset issues a command (R33). -/
  | regWrite (offset width : Nat) (value : Word)
  /-- A read of DMEM (R87). -/
  | dmemRead (addr width : Nat)
  /-- A write of DMEM (R87): the `width` low bytes of `value`, in little-endian order. -/
  | dmemWrite (addr width value : Nat)
  /-- `wait`: read STATUS, and again while BUSY = 1 (R132). -/
  | poll
  /-- The RESET input is asserted (R320). -/
  | reset
  deriving DecidableEq, Repr

/-- What a host read returned. -/
inductive HostRead
  | reg (offset : Nat) (value : Word)
  | dmem (addr width value : Nat)
  deriving DecidableEq, Repr

/-- CMDSPEC of the host assembly (R131). Operands are immediates as written, so one may be out of range. -/
inductive CmdSpec
  | nop
  | gfmul (a b : Nat)
  | sbox (a : Nat)
  | invsbox (a : Nat)
  | setkey | expand | setiv | geniv
  | encblk | decblk
  | subbytes | invsubbytes | shiftrows | invshiftrows | mixcolumns | invmixcolumns
  | addrk (r : Nat)
  | encrypt | encryptO
  | decrypt | decryptO
  | zeroize
  deriving DecidableEq, Repr

/-- The mode operand of `setcfg` (R132). -/
inductive ModeName
  | ecb | cbc | pvs
  deriving DecidableEq, Repr

/-- A statement of the host assembly (R130) or a pseudo-instruction (R132). -/
inductive HostStmt
  | wr (name : RegName) (imm : Nat)
  | rd (name : RegName)
  | wrm (addr : Nat) (bytes : List Byte)
  | rdm (addr n : Nat)
  | cmd (c : CmdSpec)
  | wait
  | exec (c : CmdSpec)
  | wrkey (bytes : List Byte)
  | wriv (bytes : List Byte)
  | wrblk (bytes : List Byte)
  | setcfg (bits : Nat) (mode : ModeName)
  deriving DecidableEq, Repr

end Sys2Proof
end

