-- ==== Sys2Proof/Machine/State.lean ====
section
/-! DEFINITION. The state of the core as plain data (spec/10_state.md, spec/20_memory.md), what a step may stop with, and reset. -/

namespace Sys2Proof.Machine

/-- The latched mode (R51): 0 is ECB, 1 is CBC, 2 is PVS (R41). -/
inductive Mode
  | ecb | cbc | pvs
  deriving DecidableEq, Repr

/-- DMEM's listed bytes (R80), addresses strictly rising: a byte is listed once something has written it. What an unlisted
address reads as is `Memory.byteAt`'s one definition (R84; log 5). -/
abbrev Memory := List Host.Cell

/-- The canonical form: addresses strictly rising, so equal memories are equal lists. An unlisted address holds no written
byte, so no entry can equal what it holds (log 5). -/
abbrev Memory.wf (m : Memory) : Prop := m.Pairwise (fun x y => x.1 < y.1)

/-- The state. The fields down to `dmem` are the spec's (R30 to R59, R80); the last seven are the model's own (INVENTORY.md). -/
structure State where
  /-- CFG[15:0], KEYBITS (R41). -/
  cfgKeyBits : BitVec 16
  /-- CFG[17:16], MODE (R41). -/
  cfgMode : BitVec 2
  /-- SIZE (R42). -/
  size : Word
  /-- SRC (R42). -/
  src : Word
  /-- DST (R42). -/
  dst : Word
  /-- PIADDR (R43). -/
  piaddr : Word
  /-- PILEN (R43). -/
  pilen : Word
  /-- TSEED (R43). -/
  tseed : Word
  /-- RESULT[7:0] (R48). -/
  result : Byte
  /-- KEYIN0..7, the staged key bytes 0..31 (R45). -/
  keyin : Vector Byte 32
  /-- IVIN0..3, the staged IV bytes 0..15 (R46). -/
  ivin : Block
  /-- BLOCK0..3, the block register (R47). -/
  blk : Block
  /-- `st.busy`, STATUS.BUSY (R54, R35). -/
  busy : Bool
  /-- STATUS.DONE (R36). -/
  done : Bool
  /-- STATUS.ERR (R37). -/
  err : Bool
  /-- STATUS.DROP (R38). -/
  drop : Bool
  /-- STATUS.ERRCODE (R37). -/
  errcode : BitVec 4
  /-- STATUS.PVSDEG (R40). -/
  pvsdeg : Bool
  /-- `st.cmd`, the accepted command word (R54). -/
  cmd : Word
  /-- `st.key` (R51). -/
  key : Vector Byte 32
  /-- `st.keybits` (R51). -/
  keybits : BitVec 16
  /-- `st.mode` (R51). -/
  mode : Mode
  /-- `st.key_valid`, STATUS.KEY_VALID (R51, R39). -/
  keyValid : Bool
  /-- `st.ks` (R52). -/
  ks : Vector Byte 240
  /-- `st.nk` (R52). -/
  nk : BitVec 4
  /-- `st.nr` (R52). -/
  nr : BitVec 5
  /-- `st.ks_valid`, STATUS.KS_VALID (R52, R39). -/
  ksValid : Bool
  /-- `st.iv` (R53). -/
  iv : Block
  /-- `st.iv_valid`, STATUS.IV_VALID (R53, R39). -/
  ivValid : Bool
  /-- DMEM (R80). -/
  dmem : Memory
  /-- MODEL'S OWN. The open parameters, changed by no step (R9; log 1). -/
  params : Params
  /-- MODEL'S OWN. Core steps left before the accepted command completes (R333; log 3). -/
  wait : Nat
  /-- MODEL'S OWN. Commands accepted so far: the argument of `Config.latency` (log 3). -/
  accepts : Nat
  /-- MODEL'S OWN. A host write fell into the running command's ranges (R98; log 8). -/
  raced : Bool
  /-- MODEL'S OWN. Draws taken so far: the argument of `Config.freeWord` and `Config.freeByte` (log 4). -/
  draws : Nat
  /-- MODEL'S OWN. The moves of the host to come, oldest first (R11; log 2). -/
  moves : List HostMove
  /-- MODEL'S OWN. What the host's reads returned, newest first (log 15). -/
  hostLog : List HostRead
  deriving DecidableEq, Repr

/-- What stops the machine: a host access to an address that does not exist (log 10). No command faults: an error of a command
is a completion (R290). -/
inductive Fault
  /-- Raised by a host register access at an offset of 0x200 or more, outside the register space (R31, R32). Safe: the model
  stops. -/
  | registerOffsetOutsideSpace
  /-- Raised by a host DMEM access that leaves the addresses 0 to DMEM_SIZE − 1 (R80). Safe: the model stops. -/
  | dmemAddressOutsideMemory
  deriving DecidableEq, Repr

/-- What the model gives no meaning (R300): "a refusal changes no state". -/
inductive Refusal
  /-- Raised by an arm of `exec` that has no meaning yet. Safe: the model stops. -/
  | notModelled (mnemonic : String)
  /-- Raised by a host register access that is not a whole aligned 32-bit word (R31, U5). Safe: the model stops. -/
  | registerAccessNotWord
  /-- Raised by a host DMEM access wider than a byte that is not naturally aligned, or whose width is no power of two and so
  has no natural alignment (R87, U6; log 11). Safe: the model stops. -/
  | dmemAccessMisaligned
  deriving DecidableEq, Repr

/-- The outcomes of a step of this machine. -/
abbrev Result := Host.Outcome State Fault Refusal

/-- The parameters `State.reset` stands with. DESIGN CHOICE, unsafe where a claim rests on them (log 1): the spec leaves all of
them open; 4096 bytes are those of the programs of 95_test_vectors.md, and CBC_TAIL and PVS_KEYOP have their defaults (R9). -/
def resetParams : Params :=
  { dmemSize := 4096, cbcTail := .xorThenWindow, pvsKeyOp := .scheduleBytes0To31, regBase := 0, dmemBase := 0x1000 }

/-- The machine right after reset: every value of R59; DMEM with nothing listed (R84). -/
def State.reset : State :=
  { cfgKeyBits := 0, cfgMode := 0, size := 0, src := 0, dst := 0, piaddr := 0, pilen := 0, tseed := 0, result := 0
    keyin := Vector.replicate 32 0, ivin := Vector.replicate 16 0, blk := Vector.replicate 16 0
    busy := false, done := false, err := false, drop := false, errcode := 0, pvsdeg := false, cmd := 0
    key := Vector.replicate 32 0, keybits := 0, mode := .ecb, keyValid := false
    ks := Vector.replicate 240 0, nk := 0, nr := 0, ksValid := false
    iv := Vector.replicate 16 0, ivValid := false
    dmem := []
    params := resetParams, wait := 0, accepts := 0, raced := false, draws := 0, moves := [], hostLog := [] }

end Sys2Proof.Machine
end

