-- ==== Sys2Proof/Machine/Flags.lean ====
section
/-! DEFINITION. The error codes (R291) and the words software reads that are made of flags: STATUS (R34) and KINFO (R44). -/

namespace Sys2Proof.Machine

/-- The errors a command can end in (R291). -/
inductive CmdError
  | nullInput | nullOutput | nullKeyExpansion | nullInitialVector | zeroLength | invalidInputSize | invalidKeyLength
  | invalidMode | noKey | ivAlreadySet | invalidRound | addressRange | illegalCommand
  deriving DecidableEq, Repr

/-- STATUS.ERRCODE of an error (R291). -/
def CmdError.code : CmdError → BitVec 4
  | .nullInput => 1
  | .nullOutput => 2
  | .nullKeyExpansion => 3
  | .nullInitialVector => 4
  | .zeroLength => 5
  | .invalidInputSize => 6
  | .invalidKeyLength => 7
  | .invalidMode => 8
  | .noKey => 9
  | .ivAlreadySet => 10
  | .invalidRound => 11
  | .addressRange => 12
  | .illegalCommand => 13

/-- The 2-bit mode tag (R41, R51). -/
def Mode.bits : Mode → BitVec 2
  | .ecb => 0
  | .cbc => 1
  | .pvs => 2

/-- The mode a tag names; the value 3 is reserved (R41). -/
def Mode.ofBits (b : BitVec 2) : Option Mode :=
  if b = 0 then some .ecb else if b = 1 then some .cbc else if b = 2 then some .pvs else none

/-- The value of STATUS (R34): reserved bits 31:12 read 0, and the valid flags mirror the internal ones (R39). -/
def statusWord (s : State) : Word :=
  (0#20 ++ BitVec.ofBool s.pvsdeg ++ BitVec.ofBool s.ivValid ++ BitVec.ofBool s.ksValid ++ BitVec.ofBool s.keyValid ++
    s.errcode ++ BitVec.ofBool s.drop ++ BitVec.ofBool s.err ++ BitVec.ofBool s.done ++ BitVec.ofBool s.busy :
    BitVec (20 + 1 + 1 + 1 + 1 + 4 + 1 + 1 + 1 + 1))

/-- The value of KINFO (R44): 0 with no key latched, else nr [28:24], nk [23:20], mode [17:16], keybits [15:0]. -/
def kinfoWord (s : State) : Word :=
  if s.keyValid then
    (0#3 ++ s.nr ++ s.nk ++ 0#2 ++ s.mode.bits ++ s.keybits : BitVec (3 + 5 + 4 + 2 + 2 + 16))
  else 0

/-- The value of CFG (R41): MODE [17:16], KEYBITS [15:0], reserved bits 31:18 read 0. -/
def cfgWord (s : State) : Word := (0#14 ++ s.cfgMode ++ s.cfgKeyBits : BitVec (14 + 2 + 16))

end Sys2Proof.Machine
end

