-- ==== Sys2Proof/Machine/Memory.lean ====
section
/-! DEFINITION. DMEM: reading and writing one byte and a range of bytes (R80, R84, R14 `MemRead` and `MemWrite`). -/

namespace Sys2Proof.Machine

/-- The byte something has written at an address, if any. -/
def Memory.written : Memory → Nat → Option Byte
  | [], _ => none
  | (k, b) :: rest, a => if k = a then some b else Memory.written rest a

/-- What an address reads as: the byte last written there, else its power-up content, which is unspecified (R84; log 5). -/
def Memory.byteAt (m : Memory) (a : Nat) : Byte := (m.written a).getD (Config.dmemPowerUp a)

/-- Write one byte, keeping the canonical form. -/
def Memory.set : Memory → Nat → Byte → Memory
  | [], a, b => [(a, b)]
  | (k, c) :: rest, a, b =>
    if a < k then (a, b) :: (k, c) :: rest
    else if a = k then (a, b) :: rest
    else (k, c) :: Memory.set rest a b

/-- `MemRead(a, n)` (R14): the n bytes at a .. a+n-1, in address order. -/
def Memory.readBytes (m : Memory) (a n : Nat) : List Byte := (List.range n).map fun i => m.byteAt (a + i)

/-- `MemWrite(a, n, v)` (R14) for a byte string v of length n. -/
def Memory.writeBytes : Memory → Nat → List Byte → Memory
  | m, _, [] => m
  | m, a, b :: bs => Memory.writeBytes (m.set a b) (a + 1) bs

/-- The next n draws of memory bytes, from draw d on (R98, R321; log 4). -/
def freeBytes (d n : Nat) : List Byte := (List.range n).map fun i => Config.freeByte (d + i)

end Sys2Proof.Machine
end

