-- ==== Sys2Proof/Machine/Operands.lean ====
section
/-! DEFINITION. The implicit operands of the commands (R111): staged key, IV counter, the buffer and π ranges of ENCRYPT and
DECRYPT, and the ranges a running command holds. -/

namespace Sys2Proof.Machine

/-- The legal values of KEYBITS (R41, R170). -/
def legalKeyBits (kb : BitVec 16) : Bool := kb == 128 || kb == 192 || kb == 256

/-- The KEYIN bytes SETKEY latches: the first KEYBITS/8, then zeros (R45, R170). -/
def stagedKey (s : State) : Vector Byte 32 := bytesOf 32 (s.keyin.toList.take (s.cfgKeyBits.toNat / 8))

/-- The output address D: DST when OUTSEL = 1, else SRC (R112). -/
def outAddr (outsel : Bool) (s : State) : Nat := if outsel then s.dst.toNat else s.src.toNat

/-- `InRange(a, n)` (R83): the sum is an unbounded integer, so nothing wraps. -/
def inRange (s : State) (a n : Nat) : Bool := decide (a + n ≤ s.params.dmemSize)

/-- `PiAvailable()` (R262). -/
def piAvailable (s : State) : Bool := s.piaddr != 0 && decide (32 ≤ s.pilen.toNat)

/-- `W`, the number of whole 32-byte π windows (R262). -/
def piWindows (s : State) : Nat := s.pilen.toNat / 32

/-- `PILEN'`, the number of π bytes read (R262). -/
def piBytesLen (s : State) : Nat := 32 * piWindows s

/-- The input snapshot of a buffer command (R85, R89). -/
def inputBytes (s : State) : List Byte := s.dmem.readBytes s.src.toNat s.size.toNat

/-- The π stream a PVS command reads (R89, R262). -/
def piBytes (s : State) : List Byte := s.dmem.readBytes s.piaddr.toNat (piBytesLen s)

/-- The counter block of IV generation: TSEED in little-endian order, then 12 zero bytes (R276). -/
def ivCounterBlock (s : State) : Block := blockOf (leBytes 4 s.tseed.toNat ++ List.replicate 12 0)

/-- The PVS key operand K (R261), under the parameter PVS_KEYOP (R9; log 13). -/
def pvsKeyOperand (s : State) : Nat :=
  match s.params.pvsKeyOp with
  | .scheduleBytes0To31 => leNat (s.ks.toList.take 32)
  | .other => (Config.pvsKeyOperand s.ks.toList).toNat

/-- OUTSEL of the ENCRYPT or DECRYPT that is running, if one is (R98). -/
def runningBuffer (s : State) : Option Bool :=
  if s.busy then
    match decode s.cmd with
    | .ok (.encrypt o) => some o
    | .ok (.decrypt o) => some o
    | _ => none
  else none

/-- `a` lies in `[base, base + n)`. -/
def within (a base n : Nat) : Bool := decide (base ≤ a) && decide (a < base + n)

/-- The address lies in the output range of the running buffer command (R98). -/
def inOutputRange (s : State) (a : Nat) : Bool :=
  match runningBuffer s with
  | some o => within a (outAddr o s) s.size.toNat
  | none => false

/-- The address lies in the input, π or output range of the running buffer command (R81, R98). The π range is one only in PVS
mode with the stream available (R262). -/
def inRunningRanges (s : State) (a : Nat) : Bool :=
  match runningBuffer s with
  | some o =>
    within a (outAddr o s) s.size.toNat || within a s.src.toNat s.size.toNat ||
      (decide (s.mode = .pvs) && piAvailable s && within a s.piaddr.toNat (piBytesLen s))
  | none => false

/-- What LATENCY may depend on (R333, R334): every register and key byte; DMEM is given beside it (log 3). -/
def latencyBytes (s : State) : List Byte :=
  wordBytes (cfgWord s) ++ wordBytes s.size ++ wordBytes s.src ++ wordBytes s.dst ++ wordBytes s.piaddr ++ wordBytes s.pilen ++
    wordBytes s.tseed ++ wordBytes (kinfoWord s) ++ wordBytes (statusWord s) ++ s.keyin.toList ++ s.ivin.toList ++ s.blk.toList ++
    s.key.toList ++ s.ks.toList ++ s.iv.toList

end Sys2Proof.Machine
end

