-- ==== Sys2Proof/Machine/Ops.lean ====
section
/-! DEFINITION. The command sequencer: acceptance, completion, and ending in an error (R54, R290, R295); and reset (R320, R321). -/

namespace Sys2Proof.Machine

/-- Latch a command word: the acceptance actions of R54. -/
def latch (v : Word) (s : State) : State :=
  { s with cmd := v, busy := true, done := false, err := false, errcode := 0, drop := false, pvsdeg := false,
           wait := 0, raced := false }

/-- Accept a command (R33, R54). It completes after a finite, unspecified number of core steps (R333; log 3). -/
def accept (v : Word) (s : State) : State :=
  { latch v s with wait := Config.latency s.accepts v (latencyBytes s) s.dmem, accepts := s.accepts + 1 }

/-- Completion's part that success and error share (R54). -/
def finish (s : State) : State := { s with busy := false, done := true, wait := 0, raced := false }

/-- The state after a command that ends successfully (R37): ERR and ERRCODE are 0. -/
def completed (s : State) : State := { finish s with err := false, errcode := 0 }

/-- `complete` (R14, R37): the command ends successfully. -/
def complete (s : State) : Result := .next (completed s)

/-- The state after a command that ends in `raise E` (R290, R295): BUSY, DONE, ERR and ERRCODE change and nothing else. -/
def errorState (e : CmdError) (s : State) : State := { finish s with err := true, errcode := e.code }

/-- `raise E` (R290), the one exception of the core. No handler runs and nothing is saved, so there is no return from it (R297):
the next acceptance (`latch`) clears the indication. -/
def raise (e : CmdError) (s : State) : Result := .next (errorState e s)

/-- Write the output range of a buffer command at its completion (R89), or, if a host write fell into the command's ranges,
one draw for each byte of it (R98; log 8). -/
def writeOutput (outsel : Bool) (out : List Byte) (s : State) : State :=
  if s.raced then
    { s with dmem := s.dmem.writeBytes (outAddr outsel s) (freeBytes s.draws s.size.toNat), draws := s.draws + s.size.toNat }
  else { s with dmem := s.dmem.writeBytes (outAddr outsel s) out }

/-- DMEM as a reset leaves it: unchanged (R320), but the output range of a buffer command in flight, as far as DMEM goes, holds
one draw for each byte (R321; log 9). -/
def resetDmem (s : State) : Memory × Nat :=
  match runningBuffer s with
  | some o =>
    let n := min s.size.toNat (s.params.dmemSize - outAddr o s)
    (s.dmem.writeBytes (outAddr o s) (freeBytes s.draws n), s.draws + n)
  | none => (s.dmem, s.draws)

/-- The reset step (R320): every piece of state takes its value of R59, DMEM as `resetDmem` says; the model's own fields that
stand for the world outside the core go on. -/
def resetState (s : State) : State :=
  { State.reset with dmem := (resetDmem s).1, draws := (resetDmem s).2, params := s.params, accepts := s.accepts,
                     moves := s.moves, hostLog := s.hostLog }

end Sys2Proof.Machine
end

