-- ==== Sys2Proof/Machine/KeyExpansion.lean ====
section
/-! DEFINITION. Key construction and the key-expansion engine (spec/42_key_expansion.md): SETKEY and EXPAND. -/

namespace Sys2Proof.Machine

/-- A schedule word: a 4-byte string, `w[i][0]` the byte at the lowest index (R16). -/
abbrev KeyWord := Vector Byte 4

/-- The 4-byte word at byte offset `4 i` of a byte string (R174's `key[4i .. 4i+4)`). -/
def keyWordAt (l : List Byte) (i : Nat) : KeyWord := Vector.ofFn fun m => l.getD (4 * i + m) 0

/-- `RotWord` (R175). -/
def rotWord (t : KeyWord) : KeyWord := #v[t[1], t[2], t[3], t[0]]

/-- `SubWord` (R176). -/
def subWord (t : KeyWord) : KeyWord := Vector.ofFn fun m => sbox t[m]

/-- Bytewise XOR of two words (R174). -/
def xorWord (t u : KeyWord) : KeyWord := Vector.ofFn fun m => t[m] ^^^ u[m]

/-- `x^j` in GF(2^8): the first byte of `Rcon[j]` (R173). -/
def rconByte : Nat → Byte
  | 0 => 0x01
  | j + 1 => xtime (rconByte j)

/-- `Rcon[j]` (R173). -/
def rcon (j : Nat) : KeyWord := #v[rconByte j, 0, 0, 0]

/-- Word i of the words computed so far. -/
def wordAt (ws : List KeyWord) (i : Nat) : KeyWord := ws.getD i (Vector.replicate 4 0)

/-- `w[i]` for i ≥ Nk, from the words before it (R174's loop body). -/
def nextWord (nk i : Nat) (ws : List KeyWord) : KeyWord :=
  let temp := wordAt ws (i - 1)
  let temp :=
    if i % nk = 0 then xorWord (subWord (rotWord temp)) (rcon (i / nk - 1))
    else if 6 < nk ∧ i % nk = 4 then subWord temp
    else temp
  xorWord (wordAt ws (i - nk)) temp

/-- The loop of R174 for n more words, from word i on. -/
def expandLoop (nk : Nat) : Nat → Nat → List KeyWord → List KeyWord
  | 0, _, ws => ws
  | n + 1, i, ws => expandLoop nk n (i + 1) (ws ++ [nextWord nk i ws])

/-- The words of `Expand(key, Nk)` (R174): `4 (Nk + 7)` of them (R172). -/
def expandWords (key : List Byte) (nk : Nat) : List KeyWord :=
  expandLoop nk (4 * (nk + 7) - nk) nk ((List.range nk).map (keyWordAt key))

/-- `Expand(key, Nk)` (R174): the words in order, as bytes. -/
def expand (key : List Byte) (nk : Nat) : List Byte := (expandWords key nk).flatMap Vector.toList

/-- The schedule clears of SETKEY (R170) and ZEROIZE (R280). -/
def clearSchedule (s : State) : State := { s with ks := Vector.replicate 240 0, nk := 0, nr := 0, ksValid := false }

/-- The IV clears of SETKEY (R170) and ZEROIZE (R280). -/
def clearIv (s : State) : State := { s with iv := Vector.replicate 16 0, ivValid := false }

/-- SETKEY (R170): check KEYBITS, then MODE; latch key, length and mode; clear the schedule and the IV. -/
def execSetkey (s : State) : Result :=
  if legalKeyBits s.cfgKeyBits then
    match Mode.ofBits s.cfgMode with
    | none => raise .invalidMode s
    | some m =>
      complete (clearIv (clearSchedule
        { s with key := stagedKey s, keybits := s.cfgKeyBits, mode := m, keyValid := true }))
  else raise .invalidKeyLength s

/-- `Nk` of the latched key (R172). -/
def latchedNk (s : State) : Nat := s.keybits.toNat / 32

/-- EXPAND (R180): the schedule of the latched key, zero after `16 (Nr + 1)` bytes. -/
def execExpand (s : State) : Result :=
  if s.keyValid then
    let nk := latchedNk s
    complete { s with ks := bytesOf 240 (expand (s.key.toList.take (4 * nk)) nk), nk := BitVec.ofNat 4 nk,
                      nr := BitVec.ofNat 5 (nk + 6), ksValid := true }
  else raise .noKey s

end Sys2Proof.Machine
end

