-- ==== Sys2Proof/Machine/BlockTransform.lean ====
section
/-! DEFINITION. The block transform pipeline (spec/43_block_transform.md): the round transforms, the block cipher and its
inverse, and the commands on the BLOCK register. -/

namespace Sys2Proof.Machine

/-- `SubBytes` (R201). -/
def subBytes (b : Block) : Block := Vector.ofFn fun i => sbox b[i]

/-- `InvSubBytes` (R202). -/
def invSubBytes (b : Block) : Block := Vector.ofFn fun i => invSbox b[i]

/-- `s[r][c]` of the state matrix, row and column taken mod 4 (R15). -/
def cell (b : Block) (r c : Nat) : Byte := b[r % 4 + 4 * (c % 4)]

/-- The block whose matrix entry at row r and column c is `f r c` (R15: index r + 4c). -/
def ofCells (f : Nat → Nat → Byte) : Block := Vector.ofFn fun i => f (i.val % 4) (i.val / 4)

/-- `ShiftRows` (R203): `s'[r][c] = s[r][(c + r) mod 4]`. -/
def shiftRows (b : Block) : Block := ofCells fun r c => cell b r (c + r)

/-- `InvShiftRows` (R206): `s'[r][(c + r) mod 4] = s[r][c]`, so column c takes from column c − r. -/
def invShiftRows (b : Block) : Block := ofCells fun r c => cell b r (c + 4 - r)

/-- One entry of the matrix product of R204 and R205: the matrix's row r is the base row `k0 k1 k2 k3` rotated right by r, so
in row r coefficient `kj` meets the column's byte `(r + j) mod 4`. -/
def mixCell (k0 k1 k2 k3 : Byte) (b : Block) (r c : Nat) : Byte :=
  multiply k0 (cell b r c) ^^^ multiply k1 (cell b (r + 1) c) ^^^ multiply k2 (cell b (r + 2) c) ^^^ multiply k3 (cell b (r + 3) c)

/-- `MixColumns` (R204), base row 2, 3, 1, 1. -/
def mixColumns (b : Block) : Block := ofCells (mixCell 0x02 0x03 0x01 0x01 b)

/-- `InvMixColumns` (R205), base row 14, 11, 13, 9. -/
def invMixColumns (b : Block) : Block := ofCells (mixCell 0x0E 0x0B 0x0D 0x09 b)

/-- Round key `RK(r)`: schedule bytes `16r .. 16r+16` (R178). Bytes beyond the 240 of the schedule RAM, which no legal round
reaches, read 0 (log 24). -/
def roundKey (ks : Vector Byte 240) (r : Nat) : Block := Vector.ofFn fun i => ks.getD (16 * r + i.val) 0

/-- `AddRoundKey` (R207). -/
def addRoundKey (ks : Vector Byte 240) (b : Block) (r : Nat) : Block := xorBlock b (roundKey ks r)

/-- One middle round of R210. -/
def encRound (ks : Vector Byte 240) (r : Nat) (b : Block) : Block := addRoundKey ks (mixColumns (shiftRows (subBytes b))) r

/-- The round loop of R210: n rounds, from round r up. -/
def encRounds (ks : Vector Byte 240) : Nat → Nat → Block → Block
  | 0, _, b => b
  | n + 1, r, b => encRounds ks n (r + 1) (encRound ks r b)

/-- `Cipher(b)` with Nr rounds (R210). -/
def cipher (ks : Vector Byte 240) (nr : Nat) (b : Block) : Block :=
  addRoundKey ks (shiftRows (subBytes (encRounds ks (nr - 1) 1 (addRoundKey ks b 0)))) nr

/-- One middle round of R211. -/
def decRound (ks : Vector Byte 240) (r : Nat) (b : Block) : Block := invMixColumns (addRoundKey ks (invSubBytes (invShiftRows b)) r)

/-- The round loop of R211: rounds r, r − 1, down to 1. -/
def decRounds (ks : Vector Byte 240) : Nat → Block → Block
  | 0, b => b
  | r + 1, b => decRounds ks r (decRound ks (r + 1) b)

/-- `InvCipher(b)` with Nr rounds (R211). -/
def invCipher (ks : Vector Byte 240) (nr : Nat) (b : Block) : Block :=
  addRoundKey ks (invSubBytes (invShiftRows (decRounds ks (nr - 1) (addRoundKey ks b nr)))) 0

/-- `E(x)` of 44_mode_controller.md: Cipher under the current schedule. -/
def encBlock (s : State) (b : Block) : Block := cipher s.ks s.nr.toNat b

/-- `D(x)` of 44_mode_controller.md: InvCipher under the current schedule. -/
def decBlock (s : State) (b : Block) : Block := invCipher s.ks s.nr.toNat b

/-- ENCBLK (R220). -/
def execEncblk (s : State) : Result :=
  if s.ksValid then complete { s with blk := encBlock s s.blk } else raise .nullKeyExpansion s

/-- DECBLK (R221). -/
def execDecblk (s : State) : Result :=
  if s.ksValid then complete { s with blk := decBlock s s.blk } else raise .nullKeyExpansion s

/-- SUBBYTES (R222). -/
def execSubbytes (s : State) : Result := complete { s with blk := subBytes s.blk }

/-- INVSUBBYTES (R223). -/
def execInvsubbytes (s : State) : Result := complete { s with blk := invSubBytes s.blk }

/-- SHIFTROWS (R224). -/
def execShiftrows (s : State) : Result := complete { s with blk := shiftRows s.blk }

/-- INVSHIFTROWS (R225). -/
def execInvshiftrows (s : State) : Result := complete { s with blk := invShiftRows s.blk }

/-- MIXCOLUMNS (R226). -/
def execMixcolumns (s : State) : Result := complete { s with blk := mixColumns s.blk }

/-- INVMIXCOLUMNS (R227). -/
def execInvmixcolumns (s : State) : Result := complete { s with blk := invMixColumns s.blk }

/-- ADDRK r (R228): NullKeyExpansion, then InvalidRound for r > Nr. -/
def execAddrk (r : Byte) (s : State) : Result :=
  if s.ksValid then
    if r.toNat ≤ s.nr.toNat then complete { s with blk := addRoundKey s.ks s.blk r.toNat } else raise .invalidRound s
  else raise .nullKeyExpansion s

end Sys2Proof.Machine
end

