-- ==== Sys2Proof/Machine/ModeController.lean ====
section
/-! DEFINITION. The mode controller (spec/44_mode_controller.md): ECB, CBC and PVS over a buffer, the IV commands, and the
control commands NOP and ZEROIZE. In this file n is a buffer's length, q = n / 16 and t = n mod 16. -/

namespace Sys2Proof.Machine

/-- A block function on a 16-byte string. -/
def onBytes (f : Block → Block) (l : List Byte) : List Byte := (f (blockOf l)).toList

/-- `f` on each of the first q full blocks, the rest as it is (R244, the loops of R245 and R247). -/
def mapBlocks (f : Block → Block) : Nat → List Byte → List Byte
  | 0, buf => buf
  | q + 1, buf => onBytes f (buf.take 16) ++ mapBlocks f q (buf.drop 16)

/-- `f` on the tail window, the last 16 bytes (R244). -/
def mapTail (f : Block → Block) (buf : List Byte) : List Byte :=
  buf.take (buf.length - 16) ++ onBytes f (buf.drop (buf.length - 16))

/-- `ECB_Enc` (R245): all full blocks, then the tail window if t > 0 (R246). -/
def ecbEnc (e : Block → Block) (buf : List Byte) : List Byte :=
  let body := mapBlocks e (buf.length / 16) buf
  if buf.length % 16 = 0 then body else mapTail e body

/-- `ECB_Dec` (R247): the tail window first. -/
def ecbDec (d : Block → Block) (buf : List Byte) : List Byte :=
  mapBlocks d (buf.length / 16) (if buf.length % 16 = 0 then buf else mapTail d buf)

/-- The block loop of `CBC_Enc` (R250): the buffer with q blocks encrypted, and the last ciphertext block. -/
def cbcEncBlocks (e : Block → Block) : Nat → Block → List Byte → List Byte × Block
  | 0, cv, buf => (buf, cv)
  | q + 1, cv, buf =>
    let c := e (xorBlock (blockOf (buf.take 16)) cv)
    let rest := cbcEncBlocks e q c (buf.drop 16)
    (c.toList ++ rest.1, rest.2)

/-- The window step of the CBC tail: the tail window under XOR_THEN_WINDOW (R251, R253), nothing under XOR_ONLY (R255). -/
def cbcWindow (policy : CbcTail) (f : Block → Block) (buf : List Byte) : List Byte :=
  match policy with
  | .xorThenWindow => mapTail f buf
  | .xorOnly => buf

/-- `CBC_EncTail` (R251) and its alternative (R255): XOR the short block with the last ciphertext block, then the window. -/
def cbcEncTail (policy : CbcTail) (e : Block → Block) (q : Nat) (buf : List Byte) (cv : Block) : List Byte :=
  cbcWindow policy e (buf.take (16 * q) ++ xorBytes (buf.drop (16 * q)) cv.toList)

/-- `CBC_Enc` (R250). -/
def cbcEnc (policy : CbcTail) (e : Block → Block) (iv : Block) (buf : List Byte) : List Byte :=
  let body := cbcEncBlocks e (buf.length / 16) iv buf
  if buf.length % 16 = 0 then body.1 else cbcEncTail policy e (buf.length / 16) body.1 body.2

/-- `CBC_DecTail` (R253) and its alternative (R255): undo the window, then XOR the short block with the full ciphertext block
before it. -/
def cbcDecTail (policy : CbcTail) (d : Block → Block) (q : Nat) (buf : List Byte) : List Byte :=
  let b := cbcWindow policy d buf
  b.take (16 * q) ++ xorBytes (b.drop (16 * q)) (b.drop (16 * (q - 1)))

/-- The block loop of `CBC_Dec` (R252). -/
def cbcDecBlocks (d : Block → Block) : Nat → Block → List Byte → List Byte
  | 0, _, buf => buf
  | q + 1, cv, buf =>
    let c := blockOf (buf.take 16)
    (xorBlock (d c) cv).toList ++ cbcDecBlocks d q c (buf.drop 16)

/-- `CBC_Dec` (R252): the tail first. -/
def cbcDec (policy : CbcTail) (d : Block → Block) (iv : Block) (buf : List Byte) : List Byte :=
  cbcDecBlocks d (buf.length / 16) iv
    (if buf.length % 16 = 0 then buf else cbcDecTail policy d (buf.length / 16) buf)

/-- The π operand `A_j` of window pair j (R263), W windows in all. -/
def piOperand (pi : List Byte) (w j : Nat) : Nat := leNat ((pi.drop (32 * (j % w))).take 32)

/-- `lo_j ++ hi_j`: the 512-bit product as two 32-byte halves, low half first (R264). -/
def pvsMask (k : Nat) (pi : List Byte) (w j : Nat) : List Byte :=
  let p := piOperand pi w j * k
  leBytes 32 (p % 2 ^ 256) ++ leBytes 32 (p / 2 ^ 256)

/-- The loop of R265 for m window pairs, from pair j on. -/
def pvsXorLoop (k : Nat) (pi : List Byte) (w : Nat) : Nat → Nat → List Byte → List Byte
  | 0, _, buf => buf
  | m + 1, j, buf => xorBytes (buf.take 64) (pvsMask k pi w j) ++ pvsXorLoop k pi w m (j + 1) (buf.drop 64)

/-- `PVS_Xor` (R265): the last n mod 64 bytes are not touched. -/
def pvsXor (k : Nat) (pi : List Byte) (w : Nat) (buf : List Byte) : List Byte := pvsXorLoop k pi w (buf.length / 64) 0 buf

/-- The direction of a buffer command. -/
inductive Dir
  | enc | dec
  deriving DecidableEq, Repr

/-- `CheckBuffer(dir)` (R242): the first check that fails, in the order of R242 and R293. -/
def checkBuffer (dir : Dir) (outsel : Bool) (s : State) : Option CmdError :=
  if s.src = 0 then some .nullInput
  else if outsel ∧ s.dst = 0 then some .nullOutput
  else if ¬ s.ksValid then some .nullKeyExpansion
  else if dir = .dec ∧ s.mode = .cbc ∧ ¬ s.ivValid then some .nullInitialVector
  else if s.size = 0 then some .zeroLength
  else if s.size.toNat < 16 then some .invalidInputSize
  else if ¬ inRange s s.src.toNat s.size.toNat ∨ ¬ inRange s (outAddr outsel s) s.size.toNat then some .addressRange
  else if s.mode = .pvs ∧ piAvailable s ∧ ¬ inRange s s.piaddr.toNat (piBytesLen s) then some .addressRange
  else none

/-- PVS falls back to ECB because the π stream is unavailable (R262, R268). -/
def pvsDegrades (s : State) : Bool := decide (s.mode = .pvs) && !piAvailable s

/-- The encryption of a buffer in the latched mode (R240, R243). -/
def encryptBytes (s : State) (buf : List Byte) : List Byte :=
  match s.mode with
  | .ecb => ecbEnc (encBlock s) buf
  | .cbc => cbcEnc s.params.cbcTail (encBlock s) s.iv buf
  | .pvs =>
    if piAvailable s then ecbEnc (encBlock s) (pvsXor (pvsKeyOperand s) (piBytes s) (piWindows s) buf)   -- R266
    else ecbEnc (encBlock s) buf                                                                         -- R268

/-- The decryption of a buffer in the latched mode (R241, R243). -/
def decryptBytes (s : State) (buf : List Byte) : List Byte :=
  match s.mode with
  | .ecb => ecbDec (decBlock s) buf
  | .cbc => cbcDec s.params.cbcTail (decBlock s) s.iv buf
  | .pvs =>
    if piAvailable s then pvsXor (pvsKeyOperand s) (piBytes s) (piWindows s) (ecbDec (decBlock s) buf)   -- R267
    else ecbDec (decBlock s) buf                                                                         -- R268

/-- `IVGen()` (R276; log 18). -/
def ivGen (s : State) : Block := encBlock s (ivCounterBlock s)

/-- The IV assignment a CBC ENCRYPT makes first when no IV is set (R256). -/
def assignMissingIv (s : State) : State :=
  if s.mode = .cbc ∧ ¬ s.ivValid then { s with iv := ivGen s, ivValid := true } else s

/-- ENCRYPT (R240): the checks, the missing IV, the output range, PVSDEG (R40). -/
def execEncrypt (outsel : Bool) (s : State) : Result :=
  match checkBuffer .enc outsel s with
  | some e => raise e s
  | none =>
    let s1 := assignMissingIv s
    complete (writeOutput outsel (encryptBytes s1 (inputBytes s1)) { s1 with pvsdeg := pvsDegrades s })

/-- DECRYPT (R241): the checks, the output range, PVSDEG (R40). -/
def execDecrypt (outsel : Bool) (s : State) : Result :=
  match checkBuffer .dec outsel s with
  | some e => raise e s
  | none => complete (writeOutput outsel (decryptBytes s (inputBytes s)) { s with pvsdeg := pvsDegrades s })

/-- SETIV (R274): NoKey, IVAlreadySet, then the staged IV. -/
def execSetiv (s : State) : Result :=
  if s.keyValid then
    if s.ivValid then raise .ivAlreadySet s else complete { s with iv := s.ivin, ivValid := true }
  else raise .noKey s

/-- GENIV (R275): NullKeyExpansion, IVAlreadySet, then a generated IV. -/
def execGeniv (s : State) : Result :=
  if s.ksValid then
    if s.ivValid then raise .ivAlreadySet s else complete { s with iv := ivGen s, ivValid := true }
  else raise .nullKeyExpansion s

/-- NOP (R279). -/
def execNop (s : State) : Result := complete s

/-- ZEROIZE (R280): key, schedule, IV, BLOCK, RESULT, KEYIN and IVIN become zero. -/
def execZeroize (s : State) : Result :=
  complete (clearIv (clearSchedule
    { s with key := Vector.replicate 32 0, keybits := 0, mode := .ecb, keyValid := false, blk := Vector.replicate 16 0,
             result := 0, keyin := Vector.replicate 32 0, ivin := Vector.replicate 16 0 }))

end Sys2Proof.Machine
end

