-- ==== Sys2Proof/Machine/Dispatch.lean ====
section
/-! DEFINITION. The meaning of each command: the completion of the command on the state as it stood (R12, R54). -/

namespace Sys2Proof.Machine

/-- One arm per command (R115). -/
def exec (i : Instr) (s : State) : Host.Outcome State Fault Refusal :=
  match i with
  | .nop => Sys2Proof.Machine.execNop s
  | .gfmul a b => Sys2Proof.Machine.execGfmul a b s
  | .sbox a => Sys2Proof.Machine.execSbox a s
  | .invsbox a => Sys2Proof.Machine.execInvsbox a s
  | .setkey => Sys2Proof.Machine.execSetkey s
  | .expand => Sys2Proof.Machine.execExpand s
  | .setiv => Sys2Proof.Machine.execSetiv s
  | .geniv => Sys2Proof.Machine.execGeniv s
  | .encblk => Sys2Proof.Machine.execEncblk s
  | .decblk => Sys2Proof.Machine.execDecblk s
  | .subbytes => Sys2Proof.Machine.execSubbytes s
  | .invsubbytes => Sys2Proof.Machine.execInvsubbytes s
  | .shiftrows => Sys2Proof.Machine.execShiftrows s
  | .invshiftrows => Sys2Proof.Machine.execInvshiftrows s
  | .mixcolumns => Sys2Proof.Machine.execMixcolumns s
  | .invmixcolumns => Sys2Proof.Machine.execInvmixcolumns s
  | .addrk r => Sys2Proof.Machine.execAddrk r s
  | .encrypt outsel => Sys2Proof.Machine.execEncrypt outsel s
  | .decrypt outsel => Sys2Proof.Machine.execDecrypt outsel s
  | .zeroize => Sys2Proof.Machine.execZeroize s

end Sys2Proof.Machine
end

