-- ==== Sys2Proof/Machine/Registers.lean ====
section
/-! DEFINITION. The register map (R32): offsets, access rights, and what a host's read returns and a host's write does (R31, R33,
R57, R58). -/

namespace Sys2Proof.Machine

/-- The offset of a register (R32). -/
def regOffset : RegName → Nat
  | .cmd => 0x000
  | .status => 0x004
  | .cfg => 0x008
  | .size => 0x00C
  | .src => 0x010
  | .dst => 0x014
  | .piaddr => 0x018
  | .pilen => 0x01C
  | .tseed => 0x020
  | .result => 0x024
  | .kinfo => 0x028
  | .keyin j => 0x040 + 4 * j.val
  | .ivin j => 0x060 + 4 * j.val
  | .block j => 0x070 + 4 * j.val
  | .iv j => 0x080 + 4 * j.val
  | .key j => 0x0A0 + 4 * j.val
  | .ks j => 0x100 + 4 * j.val

/-- The register at an aligned offset, `none` at a reserved one (R32). -/
def regAt (offset : Nat) : Option RegName :=
  if offset = 0x000 then some .cmd
  else if offset = 0x004 then some .status
  else if offset = 0x008 then some .cfg
  else if offset = 0x00C then some .size
  else if offset = 0x010 then some .src
  else if offset = 0x014 then some .dst
  else if offset = 0x018 then some .piaddr
  else if offset = 0x01C then some .pilen
  else if offset = 0x020 then some .tseed
  else if offset = 0x024 then some .result
  else if offset = 0x028 then some .kinfo
  else if within offset 0x040 0x20 then some (.keyin (Fin.ofNat 8 ((offset - 0x040) / 4)))
  else if within offset 0x060 0x10 then some (.ivin (Fin.ofNat 4 ((offset - 0x060) / 4)))
  else if within offset 0x070 0x10 then some (.block (Fin.ofNat 4 ((offset - 0x070) / 4)))
  else if within offset 0x080 0x10 then some (.iv (Fin.ofNat 4 ((offset - 0x080) / 4)))
  else if within offset 0x0A0 0x20 then some (.key (Fin.ofNat 8 ((offset - 0x0A0) / 4)))
  else if within offset 0x100 0xF0 then some (.ks (Fin.ofNat 60 ((offset - 0x100) / 4)))
  else none

/-- The access right of a register (R32). -/
def regAccess : RegName → RegAccess
  | .cmd => .wo
  | .status | .result | .kinfo | .iv _ | .key _ | .ks _ => .ro
  | .cfg | .size | .src | .dst | .piaddr | .pilen | .tseed | .keyin _ | .ivin _ | .block _ => .rw

/-- A read of this register while BUSY returns a draw (R57). -/
def drawsWhileBusy : RegName → Bool
  | .block _ | .result | .kinfo | .key _ | .iv _ | .ks _ => true
  | .cmd | .status | .cfg | .size | .src | .dst | .piaddr | .pilen | .tseed | .keyin _ | .ivin _ => false

/-- The value of a register, the command engine being idle. CMD is write-only and reads 0 (R31, R33); KEY shows the bytes below
keybits/8 (R44); IV shows `st.iv` once it is valid (R46); KS shows the `4 (Nr + 1)` words of a valid schedule (R49). -/
def regValue (r : RegName) (s : State) : Word :=
  match r with
  | .cmd => 0
  | .status => statusWord s
  | .cfg => cfgWord s
  | .size => s.size
  | .src => s.src
  | .dst => s.dst
  | .piaddr => s.piaddr
  | .pilen => s.pilen
  | .tseed => s.tseed
  | .result => s.result.zeroExtend 32
  | .kinfo => kinfoWord s
  | .keyin j => laneWord s.keyin j
  | .ivin j => laneWord s.ivin j
  | .block j => laneWord s.blk j
  | .iv j => if s.ivValid then laneWord s.iv j else 0
  | .key j => laneWord (bytesOf 32 (s.key.toList.take (s.keybits.toNat / 8))) j
  | .ks j => if s.ksValid ∧ j.val < 4 * (s.nr.toNat + 1) then laneWord s.ks j else 0

/-- What a host's aligned word read returns, and the state after it: exact, but a draw for the registers of R57 while BUSY
(log 4). A reserved offset reads 0 (R31). No read changes the core (R91). -/
def readReg (offset : Nat) (s : State) : Word × State :=
  match regAt offset with
  | none => (0, s)
  | some r =>
    if s.busy && drawsWhileBusy r then (Config.freeWord s.draws, { s with draws := s.draws + 1 })
    else (regValue r s, s)

/-- The value a write stores in a read-write register (R41 to R47). Reserved bits ignore writes (R31); read-only registers
ignore the write (R31); CMD is `writeReg`'s. -/
def storeReg (r : RegName) (v : Word) (s : State) : State :=
  match r with
  | .cfg => { s with cfgKeyBits := v.extractLsb' 0 16, cfgMode := v.extractLsb' 16 2 }
  | .size => { s with size := v }
  | .src => { s with src := v }
  | .dst => { s with dst := v }
  | .piaddr => { s with piaddr := v }
  | .pilen => { s with pilen := v }
  | .tseed => { s with tseed := v }
  | .keyin j => { s with keyin := setLanes s.keyin j v }
  | .ivin j => { s with ivin := setLanes s.ivin j v }
  | .block j => { s with blk := setLanes s.blk j v }
  | .cmd | .status | .result | .kinfo | .iv _ | .key _ | .ks _ => s

/-- A host's aligned word write. A CMD write is accepted while idle, and dropped with DROP set while BUSY (R33, R38); any other
write is ignored while BUSY (R58) or at a reserved offset (R31). -/
def writeReg (offset : Nat) (v : Word) (s : State) : State :=
  match regAt offset with
  | none => s
  | some .cmd => if s.busy then { s with drop := true } else accept v s
  | some r => if s.busy then s else storeReg r v s

end Sys2Proof.Machine
end

