-- ==== Sys2Proof/Machine/HostPort.lean ====
section
/-! DEFINITION. What one move of the host or the platform does (R11, R31, R87, R98, R132, R300, R320), and the platform's address
map (R92). -/

namespace Sys2Proof.Machine

/-- A register access is a 32-bit access at an offset that is a multiple of 4 (R31). -/
def wordAccess (offset width : Nat) : Bool := decide (width = 4) && decide (offset % 4 = 0)

/-- A DMEM access is a byte, or wider and naturally aligned: its width a power of two that divides its address (R87; log 11). -/
def alignedAccess (addr width : Nat) : Bool := decide (width = 2 ^ width.log2) && decide (addr % width = 0)

/-- A host read of one DMEM byte: a draw inside the output range of a running buffer command (R98; log 7), else the byte. DESIGN
CHOICE: a byte of its input or π range outside the output range reads as it stands; R98 does not say (log 33). -/
def hostReadByte (a : Nat) (s : State) : Byte × State :=
  if inOutputRange s a then (Config.freeByte s.draws, { s with draws := s.draws + 1 }) else (s.dmem.byteAt a, s)

/-- The bytes of a wide host read, in address order (R87). -/
def hostReadBytes : Nat → Nat → State → List Byte × State
  | _, 0, s => ([], s)
  | a, n + 1, s =>
    let first := hostReadByte a s
    let rest := hostReadBytes (a + 1) n first.2
    (first.1 :: rest.1, rest.2)

/-- A host write of one DMEM byte. It lands; inside the ranges of a running buffer command it is a race (R98; log 8). -/
def hostWriteByte (a : Nat) (b : Byte) (s : State) : State :=
  { s with dmem := s.dmem.set a b, raced := s.raced || inRunningRanges s a }

/-- The bytes of a wide host write, the lowest address first (R87). -/
def hostWriteBytes : Nat → List Byte → State → State
  | _, [], s => s
  | a, b :: bs, s => hostWriteBytes (a + 1) bs (hostWriteByte a b s)

/-- The host's record of what a read returned (log 15). -/
def logRead (r : HostRead) (s : State) : State := { s with hostLog := r :: s.hostLog }

/-- One move, already taken off the host's list. -/
def hostMove (m : HostMove) (s : State) : Result :=
  match m with
  | .regRead offset width =>
    if 0x200 ≤ offset then .fault .registerOffsetOutsideSpace
    else if wordAccess offset width then
      let r := readReg offset s
      .next (logRead (.reg offset r.1) r.2)
    else .refused .registerAccessNotWord
  | .regWrite offset width value =>
    if 0x200 ≤ offset then .fault .registerOffsetOutsideSpace
    else if wordAccess offset width then .next (writeReg offset value s)
    else .refused .registerAccessNotWord
  | .dmemRead addr width =>
    if alignedAccess addr width then
      if addr + width ≤ s.params.dmemSize then
        let r := hostReadBytes addr width s
        .next (logRead (.dmem addr width (leNat r.1)) r.2)
      else .fault .dmemAddressOutsideMemory
    else .refused .dmemAccessMisaligned
  | .dmemWrite addr width value =>
    if alignedAccess addr width then
      if addr + width ≤ s.params.dmemSize then .next (hostWriteBytes addr (leBytes width value) s)
      else .fault .dmemAddressOutsideMemory
    else .refused .dmemAccessMisaligned
  | .poll =>
    .next (logRead (.reg (regOffset .status) (statusWord s)) (if s.busy then { s with moves := .poll :: s.moves } else s))
  | .reset => .next (resetState s)

/-- The host takes its next move, if it has one. With none, nothing happens: a core that is not BUSY is idle (R338; log 12). -/
def hostStep (s : State) : Result :=
  match s.moves with
  | [] => .next s
  | m :: rest => hostMove m { s with moves := rest }

/-- Where a platform address lies (R81, R92). -/
inductive Space
  | registers | dmem
  deriving DecidableEq, Repr

/-- The space and the offset in it of an address of the host's address space (R92; log 14). -/
def locate (p : Params) (addr : Nat) : Option (Space × Nat) :=
  if within addr p.regBase 0x200 then some (.registers, addr - p.regBase)
  else if within addr p.dmemBase p.dmemSize then some (.dmem, addr - p.dmemBase)
  else none

/-- The host move a read at a platform address makes; none where the address belongs to neither space (R92). -/
def busRead (p : Params) (addr width : Nat) : Option HostMove :=
  match locate p addr with
  | some (.registers, offset) => some (.regRead offset width)
  | some (.dmem, a) => some (.dmemRead a width)
  | none => none

/-- The host move a write at a platform address makes (R92). -/
def busWrite (p : Params) (addr width value : Nat) : Option HostMove :=
  match locate p addr with
  | some (.registers, offset) => some (.regWrite offset width (BitVec.ofNat 32 value))
  | some (.dmem, a) => some (.dmemWrite a width value)
  | none => none

end Sys2Proof.Machine
end

