-- ==== Sys2Proof/Machine/Step.lean ====
section
/-! DEFINITION. One step of the machine: the completion of the accepted command, or a move of the host (R11, R12, R54). -/

namespace Sys2Proof.Machine

/-- The completion of the accepted command word: its command's meaning, or IllegalCommand (R54, R117), on the state as
it stands, which holds what the command reads as it stood at acceptance (R58, R89; log 6). -/
def completeCommand (s : State) : Result :=
  match decode s.cmd with
  | .ok i => exec i s
  | .error _ => raise .illegalCommand s

/-- One step. While a command runs, each step is a core step beside which the host may make one move, and the last of them is
the completion (R12, R333; log 3). While the core is idle, the host moves. -/
def step (s : State) : Host.Outcome State Fault Refusal :=
  if s.busy then
    match s.wait with
    | 0 => completeCommand s
    | n + 1 => hostStep { s with wait := n }
  else hostStep s

/-- `s` with a command word accepted, its completion the very next step (log 2). There is no fetch (R97): the command word is
written to CMD, and this stands for that write. -/
def State.withFetchWord (s : State) (nbits w : Nat) : State := latch (BitVec.ofNat 32 (w % 2 ^ nbits)) s

end Sys2Proof.Machine
end

