-- ==== Sys2Proof/WellFormed.lean ====
section
/-! DEFINITION. The checks that a term means something: parameters in the ranges of R9 and R92, and host assembly with operands
that spell a command (R130 to R132). A term of `Instr` needs no check: its types bound every operand. -/

namespace Sys2Proof

/-- The ranges of the open parameters: 1 ≤ DMEM_SIZE ≤ 2^32 (R9), and the two address spaces apart from each other in the
host's address space (R81, R92). -/
def Params.wf (p : Params) : Bool :=
  decide (1 ≤ p.dmemSize) && decide (p.dmemSize ≤ 2 ^ 32) &&
    (decide (p.regBase + 0x200 ≤ p.dmemBase) || decide (p.dmemBase + p.dmemSize ≤ p.regBase))

/-- The operands a, b and r are immediates from 0 to 255; an operand outside that range spells no command (R131). -/
def CmdSpec.wf : CmdSpec → Bool
  | .gfmul a b => decide (a ≤ 255) && decide (b ≤ 255)
  | .sbox a => decide (a ≤ 255)
  | .invsbox a => decide (a ≤ 255)
  | .addrk r => decide (r ≤ 255)
  | .nop | .setkey | .expand | .setiv | .geniv | .encblk | .decblk | .subbytes | .invsubbytes | .shiftrows | .invshiftrows
  | .mixcolumns | .invmixcolumns | .encrypt | .encryptO | .decrypt | .decryptO | .zeroize => true

/-- Immediates are 32-bit values (R130), a command is well formed (R131), and each byte list fits what it fills: at most 32 key
bytes, exactly 16 IV and block bytes (R132). DESIGN CHOICE (log 34): `setcfg`'s bits, whose range the spec does not give, are a KEYBITS value
of 16 bits (R41); more than 32 key bytes, and DMEM bytes past the 32-bit addresses (R80), are assembly errors too. -/
def HostStmt.wf : HostStmt → Bool
  | .wr _ imm => decide (imm < 2 ^ 32)
  | .rd _ => true
  | .wrm addr bytes => decide (addr + bytes.length ≤ 2 ^ 32)
  | .rdm addr n => decide (addr + n ≤ 2 ^ 32)
  | .cmd c => c.wf
  | .wait => true
  | .exec c => c.wf
  | .wrkey bytes => decide (bytes.length ≤ 32)
  | .wriv bytes => decide (bytes.length = 16)
  | .wrblk bytes => decide (bytes.length = 16)
  | .setcfg bits _ => decide (bits < 2 ^ 16)

end Sys2Proof
end

