-- ==== Sys2Proof/Machine/HostAsm.lean ====
section
/-! DEFINITION. Host assembly (R130 to R132): the host moves a statement stands for. -/

namespace Sys2Proof.Machine

/-- The command a CMDSPEC spells; an operand outside 0 to 255 spells none (R131). -/
def cmdInstr (c : CmdSpec) : Option Instr :=
  if c.wf then
    match c with
    | .nop => some .nop
    | .gfmul a b => some (.gfmul (BitVec.ofNat 8 a) (BitVec.ofNat 8 b))
    | .sbox a => some (.sbox (BitVec.ofNat 8 a))
    | .invsbox a => some (.invsbox (BitVec.ofNat 8 a))
    | .setkey => some .setkey
    | .expand => some .expand
    | .setiv => some .setiv
    | .geniv => some .geniv
    | .encblk => some .encblk
    | .decblk => some .decblk
    | .subbytes => some .subbytes
    | .invsubbytes => some .invsubbytes
    | .shiftrows => some .shiftrows
    | .invshiftrows => some .invshiftrows
    | .mixcolumns => some .mixcolumns
    | .invmixcolumns => some .invmixcolumns
    | .addrk r => some (.addrk (BitVec.ofNat 8 r))
    | .encrypt => some (.encrypt false)
    | .encryptO => some (.encrypt true)
    | .decrypt => some (.decrypt false)
    | .decryptO => some (.decrypt true)
    | .zeroize => some .zeroize
  else none

/-- A register write of the host (R31). -/
def wrMove (r : RegName) (v : Word) : HostMove := .regWrite (regOffset r) 4 v

/-- The mode numbers of `setcfg` (R132): ECB 0, CBC 1, PVS 2. -/
def modeNumber : ModeName → Nat
  | .ecb => 0
  | .cbc => 1
  | .pvs => 2

/-- Register j of a byte string, missing bytes taken as 0 (R132). -/
def laneOfBytes (bytes : List Byte) (j : Nat) : Word := wordOfBytes ((bytes.drop (4 * j)).take 4)

/-- The moves a well-formed statement stands for (R130, R132; log 22). -/
def stmtMoves : HostStmt → List HostMove
  | .wr name imm => [wrMove name (BitVec.ofNat 32 imm)]
  | .rd name => [.regRead (regOffset name) 4]
  | .wrm addr bytes => bytes.mapIdx fun k b => .dmemWrite (addr + k) 1 b.toNat
  | .rdm addr n => (List.range n).map fun k => .dmemRead (addr + k) 1
  | .cmd c => ((cmdInstr c).map fun i => wrMove .cmd (encode i)).toList
  | .wait => [.poll]
  | .exec c => ((cmdInstr c).map fun i => wrMove .cmd (encode i)).toList ++ [.poll]
  | .wrkey bytes => (List.finRange 8).map fun j => wrMove (.keyin j) (laneOfBytes bytes j.val)
  | .wriv bytes => (List.finRange 4).map fun j => wrMove (.ivin j) (laneOfBytes bytes j.val)
  | .wrblk bytes => (List.finRange 4).map fun j => wrMove (.block j) (laneOfBytes bytes j.val)
  | .setcfg bits mode => [wrMove .cfg (BitVec.ofNat 32 (bits + modeNumber mode * 2 ^ 16))]

/-- The moves of a program, none if a statement of it is an assembly error (R131). -/
def programMoves : List HostStmt → Option (List HostMove)
  | [] => some []
  | s :: rest => if s.wf then (programMoves rest).map (stmtMoves s ++ ·) else none

/-- A machine with a host program before it (log 2). -/
def State.withProgram (s : State) (p : List HostStmt) : Option State := (programMoves p).map fun m => { s with moves := m }

end Sys2Proof.Machine
end

