-- ==== Sys2Proof/Machine/KeyFile.lean ====
section
/-! DEFINITION. The key file, which belongs to the host (R7, R292, R325): what a host writes from the registers it reads, and the
host program that restores a key from a file. The core knows nothing of it. -/

namespace Sys2Proof.Machine

/-- ASCII "AESKEY" (R7). -/
def keyFileMagic : List Byte := [0x41, 0x45, 0x53, 0x4B, 0x45, 0x59]

/-- The op-mode tag of R7, ASCII "ECB" or "CBC"; PVS has none (R325, 90_conflicts.md C3). -/
def keyFileTag : Mode → Option (List Byte)
  | .ecb => some [0x45, 0x43, 0x42]
  | .cbc => some [0x43, 0x42, 0x43]
  | .pvs => none

/-- The mode of a tag (R7). -/
def keyFileMode (tag : List Byte) : Option Mode :=
  if tag = [0x45, 0x43, 0x42] then some .ecb else if tag = [0x43, 0x42, 0x43] then some .cbc else none

/-- What a host saves from KINFO, KEY0..7 and, for CBC, IV0..3 (R7, R325): the key and, for CBC, its IV must be there.
DESIGN CHOICE: the values are those an idle core shows, in every state; R325 does not say that the host saves only while the core is
idle, and while BUSY its reads are draws (R57; log 35). -/
def keyFileSave (s : State) : Option (List Byte) :=
  let kinfo := regValue .kinfo s
  let bits := (kinfo.extractLsb' 0 16).toNat
  let key := ((List.finRange 8).flatMap fun j => wordBytes (regValue (.key j) s)).take (bits / 8)
  let iv := (List.finRange 4).flatMap fun j => wordBytes (regValue (.iv j) s)
  if s.keyValid then
    match Mode.ofBits (kinfo.extractLsb' 16 2) with
    | some .ecb => some (keyFileMagic ++ [0x45, 0x43, 0x42] ++ leBytes 2 bits ++ key)
    | some .cbc => if s.ivValid then some (keyFileMagic ++ [0x43, 0x42, 0x43] ++ leBytes 2 bits ++ key ++ iv) else none
    | _ => none
  else none

/-- The host program that restores a key from a file (R325: steps 1 to 3 of R324, with SETIV giving the stored IV). Malformed
magic, an unrecognised tag, a length outside 128, 192 and 256, or a truncated file fails the load (R7, R292). DESIGN CHOICE: so does
a file with bytes past its last field, of which the spec says nothing (log 32). -/
def keyFileLoad (file : List Byte) : Option (List HostStmt) :=
  let bits := leNat ((file.drop 9).take 2)
  let key := (file.drop 11).take (bits / 8)
  let rest := file.drop (11 + bits / 8)
  if file.take 6 = keyFileMagic ∧ (bits = 128 ∨ bits = 192 ∨ bits = 256) ∧ key.length = bits / 8 then
    match keyFileMode ((file.drop 6).take 3) with
    | some .ecb =>
      if rest.length = 0 then some [.setcfg bits .ecb, .wrkey key, .exec .setkey, .exec .expand] else none
    | some .cbc =>
      if rest.length = 16 then
        some [.setcfg bits .cbc, .wrkey key, .exec .setkey, .wriv rest, .exec .setiv, .exec .expand]
      else none
    | _ => none
  else none

end Sys2Proof.Machine
end

