-- ==== Sys2Proof/Safety.lean ====
section
/-! DEFINITION. The invariants the spec states of the core's state (R36 to R39, R51 to R54, R323), and a host that waits (R327). -/

namespace Sys2Proof.Machine

/-- The latched key (R51): with a key, its length is legal and the bytes past it are zero; with none, everything is zero. -/
structure KeyInv (s : State) : Prop where
  legal : s.keyValid = true → legalKeyBits s.keybits = true
  padded : s.keyValid = true → ∀ i : Fin 32, s.keybits.toNat / 8 ≤ i.val → s.key[i] = 0
  empty : s.keyValid = false → s.keybits = 0 ∧ s.mode = .ecb ∧ s.key = Vector.replicate 32 0

/-- The key schedule (R52): a valid one belongs to the latched key, is its expansion, and is zero after it; with none, everything
is zero. -/
structure ScheduleInv (s : State) : Prop where
  keyed : s.ksValid = true → s.keyValid = true
  nk : s.ksValid = true → s.nk.toNat = s.keybits.toNat / 32
  nr : s.ksValid = true → s.nr.toNat = s.nk.toNat + 6
  expanded : s.ksValid = true → s.ks = bytesOf 240 (expand (s.key.toList.take (4 * s.nk.toNat)) s.nk.toNat)
  empty : s.ksValid = false → s.nk = 0 ∧ s.nr = 0 ∧ s.ks = Vector.replicate 240 0

/-- The latched IV (R53, R323): a valid one belongs to a latched key; with none, it is zero. -/
structure IvInv (s : State) : Prop where
  keyed : s.ivValid = true → s.keyValid = true
  empty : s.ivValid = false → s.iv = Vector.replicate 16 0

/-- The sequencer and STATUS (R34 to R37, R54): a running command shows no outcome, an error shows a code of R291 and only after a
completion, no error shows code 0, and a drop is recorded only once a command has been accepted and is running or done. -/
structure StatusInv (s : State) : Prop where
  running : s.busy = true → s.done = false ∧ s.err = false ∧ s.pvsdeg = false
  outcome : s.err = true → s.done = true
  code : s.err = true ↔ s.errcode ≠ 0
  codeRange : s.errcode.toNat ≤ 13
  dropped : s.drop = true → s.busy = true ∨ s.done = true
  raced : s.raced = true → s.busy = true

/-- DMEM: canonical, and inside its DMEM_SIZE bytes (R80). -/
structure DmemInv (s : State) : Prop where
  wf : s.dmem.wf
  bounded : ∀ c ∈ s.dmem, c.1 < s.params.dmemSize

/-- The invariant of the machine. -/
structure CoreInv (s : State) : Prop where
  params : s.params.wf = true
  key : KeyInv s
  schedule : ScheduleInv s
  iv : IvInv s
  status : StatusInv s
  dmem : DmemInv s

/-- The move writes CMD (R33). -/
def writesCmd : HostMove → Bool
  | .regWrite offset _ _ => decide (offset = regOffset .cmd)
  | _ => false

/-- The list's next move, if there is one, is `wait`. -/
def nextIsPoll : List HostMove → Bool
  | [] => true
  | m :: _ => decide (m = .poll)

/-- A host that follows every CMD write with `wait` (R327, R328: "the safe pattern is `cmd X ; wait`"). -/
def waitsAfterCmd : List HostMove → Bool
  | [] => true
  | m :: rest => (!writesCmd m || nextIsPoll rest) && waitsAfterCmd rest

/-- The host has kept the rule so far and will keep it: while a command runs it does nothing but poll (R327, R98). -/
structure Disciplined (s : State) : Prop where
  polling : s.busy = true → nextIsPoll s.moves = true
  script : waitsAfterCmd s.moves = true
  raceless : s.raced = false

end Sys2Proof.Machine
end

