-- ==== Sys2Proof/Certificates/Slice0/Obligations.lean ====
section
/-! DEFINITION. The statements about AES-CORE, from the numbered rules of spec/. `completed` and `errorState` are the two ends of a
command; CompletionWritesOnlyStatus says what they are. -/

namespace Sys2Proof.Machine

/-! ### Words the statements share -/

/-- The accepted word `w` ends in IllegalCommand: ERRCODE 13, and nothing but STATUS changes (R291, R295). -/
def illegalAtCompletion (w : Word) : Prop :=
  ∀ s : State, s.busy = true → s.wait = 0 → s.cmd = w →
    step s = .next { s with busy := false, done := true, err := true, errcode := 13, wait := 0, raced := false }

/-- The encoding of a command with no operand: the word with OPC alone spells it, and every other word with that OPC is Illegal. -/
def plainWord (opc : Byte) (i : Instr) : Prop :=
  (∀ w : Word, decode w = .ok i ↔ w = opc.zeroExtend 32) ∧
  (∀ w : Word, opcField w = opc → w ≠ opc.zeroExtend 32 → illegalAtCompletion w)

/-- The encoding of a command whose one operand is A: B, OUTSEL and RSV zero, and every other word with that OPC is Illegal. -/
def aWord (opc : Byte) (i : Byte → Instr) : Prop :=
  (∀ (w : Word) (a : Byte), decode w = .ok (i a) ↔ opcField w = opc ∧ aField w = a ∧ bField w = 0 ∧ outselField w = false ∧ rsvField w = 0) ∧
  (∀ w : Word, opcField w = opc → (bField w ≠ 0 ∨ outselField w = true ∨ rsvField w ≠ 0) → illegalAtCompletion w)

/-- Every check of R242 passes, but for the one on the IV. -/
def bufferReady (outsel : Bool) (s : State) : Prop :=
  s.src ≠ 0 ∧ (outsel = true → s.dst ≠ 0) ∧ s.ksValid = true ∧ 16 ≤ s.size.toNat ∧
  s.src.toNat + s.size.toNat ≤ s.params.dmemSize ∧ outAddr outsel s + s.size.toNat ≤ s.params.dmemSize ∧
  (s.mode = .pvs → piAvailable s = true → s.piaddr.toNat + piBytesLen s ≤ s.params.dmemSize)

/-- DMEM of `t` is DMEM of `s` with the bytes `out` at `base` and up, and no other address changed. -/
def dmemIs (s t : State) (base : Nat) (out : List Byte) : Prop :=
  ∀ a : Nat, t.dmem.byteAt a = if base ≤ a ∧ a < base + out.length then out.getD (a - base) 0 else s.dmem.byteAt a

/-- Run commands one after another, each from its predecessor's state, as long as none ends in an error. -/
def runAll : List Instr → State → Option State
  | [], s => some s
  | i :: rest, s =>
    match exec i s with
    | .next t => if t.err then none else runAll rest t
    | _ => none

/-- The step commands of R214 that make up ENCBLK, for Nr rounds. -/
def encSequence (nr : Nat) : List Instr :=
  .addrk 0 :: (List.range (nr - 1)).flatMap (fun k => [.subbytes, .shiftrows, .mixcolumns, .addrk (BitVec.ofNat 8 (k + 1))]) ++
    [.subbytes, .shiftrows, .addrk (BitVec.ofNat 8 nr)]

/-- The step commands of R214 that make up DECBLK, for Nr rounds. -/
def decSequence (nr : Nat) : List Instr :=
  .addrk (BitVec.ofNat 8 nr) :: ((List.range (nr - 1)).reverse).flatMap (fun k =>
    [.invshiftrows, .invsubbytes, .addrk (BitVec.ofNat 8 (k + 1)), .invmixcolumns]) ++
    [.invshiftrows, .invsubbytes, .addrk 0]

/-- The lifecycle states of R323. -/
inductive Lifecycle
  | empty | keyed | ready
  deriving DecidableEq, Repr

/-- The lifecycle state the valid flags show (R323). -/
def lifecycle (s : State) : Lifecycle :=
  if s.ksValid then .ready else if s.keyValid then .keyed else .empty

/-- The state `t` differs from `s` at most in the fields R60 lets the command write, and in the completion's own fields. -/
def writesOnly (i : Instr) (s t : State) : Prop :=
  let c (u : State) : State :=
    { u with busy := t.busy, done := t.done, err := t.err, errcode := t.errcode, wait := t.wait, raced := t.raced }
  match i with
  | .nop => t = c s
  | .gfmul _ _ | .sbox _ | .invsbox _ => t = c { s with result := t.result }
  | .setkey => t = c { s with key := t.key, keybits := t.keybits, mode := t.mode, keyValid := t.keyValid, ks := t.ks, nk := t.nk,
                              nr := t.nr, ksValid := t.ksValid, iv := t.iv, ivValid := t.ivValid }
  | .expand => t = c { s with ks := t.ks, nk := t.nk, nr := t.nr, ksValid := t.ksValid }
  | .setiv | .geniv => t = c { s with iv := t.iv, ivValid := t.ivValid }
  | .encblk | .decblk | .subbytes | .invsubbytes | .shiftrows | .invshiftrows | .mixcolumns | .invmixcolumns | .addrk _ =>
    t = c { s with blk := t.blk }
  | .encrypt o =>
    t = c { s with dmem := t.dmem, pvsdeg := t.pvsdeg, iv := t.iv, ivValid := t.ivValid, draws := t.draws } ∧
    (¬ (s.mode = .cbc ∧ s.ivValid = false) → t.iv = s.iv ∧ t.ivValid = s.ivValid) ∧
    (∀ a, ¬ (outAddr o s ≤ a ∧ a < outAddr o s + s.size.toNat) → t.dmem.byteAt a = s.dmem.byteAt a)
  | .decrypt o =>
    t = c { s with dmem := t.dmem, pvsdeg := t.pvsdeg, draws := t.draws } ∧
    (∀ a, ¬ (outAddr o s ≤ a ∧ a < outAddr o s + s.size.toNat) → t.dmem.byteAt a = s.dmem.byteAt a)
  | .zeroize => t = c { s with key := t.key, keybits := t.keybits, mode := t.mode, keyValid := t.keyValid, ks := t.ks, nk := t.nk,
                               nr := t.nr, ksValid := t.ksValid, iv := t.iv, ivValid := t.ivValid, blk := t.blk,
                               result := t.result, keyin := t.keyin, ivin := t.ivin }

/-- The polynomial over GF(2) a byte stands for (R140). -/
noncomputable def bytePolynomial (v : Byte) : Polynomial (ZMod 2) :=
  ∑ i ∈ Finset.range 8, if v.getLsbD i then Polynomial.X ^ i else 0

/-- The AES reduction polynomial x^8+x^4+x^3+x+1 (R140). -/
noncomputable def reductionPolynomial : Polynomial (ZMod 2) :=
  Polynomial.X ^ 8 + Polynomial.X ^ 4 + Polynomial.X ^ 3 + Polynomial.X + 1

end Sys2Proof.Machine

open Sys2Proof Sys2Proof.Machine

/-! ### Encoding -/

/-- O1. The words of 95_test_vectors.md V1 to V16 decode to what R110 to R118 make of them. -/
def Obligations.SpecWordsDecode : Prop :=
  decode 0x00000000 = .ok .nop ∧ decode 0x00835701 = .ok (.gfmul 0x57 0x83) ∧ decode 0x00005302 = .ok (.sbox 0x53) ∧
  decode 0x0000ED03 = .ok (.invsbox 0xED) ∧ decode 0x00000010 = .ok .setkey ∧ decode 0x00000011 = .ok .expand ∧
  decode 0x00000012 = .ok .setiv ∧ decode 0x00000013 = .ok .geniv ∧ decode 0x00000020 = .ok .encblk ∧
  decode 0x00000021 = .ok .decblk ∧ decode 0x00000022 = .ok .subbytes ∧ decode 0x00000027 = .ok .invmixcolumns ∧
  decode 0x00000A28 = .ok (.addrk 10) ∧ decode 0x00000030 = .ok (.encrypt false) ∧ decode 0x01000030 = .ok (.encrypt true) ∧
  decode 0x00000031 = .ok (.decrypt false) ∧ decode 0x01000031 = .ok (.decrypt true) ∧ decode 0x0000003F = .ok .zeroize ∧
  decode 0x00000100 = .error .unusedField ∧ decode 0x01000002 = .error .unusedField ∧
  decode 0x00000004 = .error .reservedOpcode ∧ decode 0x000000FF = .error .reservedOpcode ∧
  decode 0x00000040 = .error .reservedOpcode ∧ decode 0x02000030 = .error .reservedBits ∧
  decode 0x00010028 = .error .unusedField

/-- O2. Decoding and encoding agree both ways: every command is the decoding of its word, and of no other word (R110, R115, R117). -/
def Obligations.DecodeAndEncodeAgree : Prop :=
  (∀ i : Instr, decode (encode i) = .ok i) ∧ (∀ (w : Word) (i : Instr), decode w = .ok i → encode i = w)

/-- O3. R118: a word selects a command when `(w AND mask) = match`; the rows do not overlap; the selected row is the decoded
command's, with its operands where the pattern has them; and a word that no row selects is Illegal. -/
def Obligations.PatternTableSelectsTheDecodedCommand : Prop :=
  (∀ (w : Word), ∀ r ∈ opcodeRows, ∀ r' ∈ opcodeRows, r.selects w = true → r'.selects w = true → r = r') ∧
  (∀ (w : Word) (i : Instr), decode w = .ok i → ∃ r ∈ opcodeRows, r.selects w = true ∧ r.mnemonic = i.mnemonic) ∧
  (∀ (w : Word), ∀ r ∈ opcodeRows, r.selects w = true → ∃ i, decode w = .ok i ∧ i.mnemonic = r.mnemonic) ∧
  (∀ (w : Word), (∀ r ∈ opcodeRows, r.selects w = false) → illegalAtCompletion w) ∧
  (∀ (w : Word) (a b : Byte), decode w = .ok (.gfmul a b) → a = w.extractLsb' 8 8 ∧ b = w.extractLsb' 16 8) ∧
  (∀ (w : Word) (a : Byte), (decode w = .ok (.sbox a) ∨ decode w = .ok (.invsbox a) ∨ decode w = .ok (.addrk a)) →
    a = w.extractLsb' 8 8) ∧
  (∀ (w : Word) (o : Bool), (decode w = .ok (.encrypt o) ∨ decode w = .ok (.decrypt o)) → o = w.getLsbD 24)

/-- O4. R113: a word with a nonzero field that its opcode does not use is illegal and completes with IllegalCommand. -/
def Obligations.NonzeroUnusedFieldIsIllegal : Prop :=
  ∀ w : Word,
    (rsvField w ≠ 0 ∨
     (aField w ≠ 0 ∧ opcField w ≠ 0x01 ∧ opcField w ≠ 0x02 ∧ opcField w ≠ 0x03 ∧ opcField w ≠ 0x28) ∨
     (bField w ≠ 0 ∧ opcField w ≠ 0x01) ∨
     (outselField w = true ∧ opcField w ≠ 0x30 ∧ opcField w ≠ 0x31)) →
    illegalAtCompletion w

/-- O5. R116: every word with a reserved OPC completes with IllegalCommand and changes nothing else. -/
def Obligations.ReservedOpcodeIsIllegal : Prop :=
  ∀ w : Word,
    (let n := (opcField w).toNat
     (0x04 ≤ n ∧ n ≤ 0x0F) ∨ (0x14 ≤ n ∧ n ≤ 0x1F) ∨ (0x29 ≤ n ∧ n ≤ 0x2F) ∨ (0x32 ≤ n ∧ n ≤ 0x3E) ∨ (0x40 ≤ n ∧ n ≤ 0xFF)) →
    illegalAtCompletion w

/-! ### The sequencer -/

/-- O6. A step runs the accepted command once its latency has passed (R12, R54); before that, and while idle, the host takes the
first of its moves, if it has one. The counter `wait` and the list `moves` are the model's own (logs 2, 3 and 12). -/
def Obligations.StepRunsTheDecodedCommand : Prop :=
  (∀ (s : State) (i : Instr), s.busy = true → s.wait = 0 → decode s.cmd = .ok i → step s = exec i s) ∧
  (∀ (s : State) (n : Nat), s.busy = true → s.wait = n + 1 → step s = hostStep { s with wait := n }) ∧
  (∀ s : State, s.busy = false → step s = hostStep s) ∧
  (∀ (s : State) (m : HostMove) (ms : List HostMove), s.moves = m :: ms → hostStep s = hostMove m { s with moves := ms }) ∧
  (∀ s : State, s.moves = [] → hostStep s = .next s) ∧
  (∀ (s : State) (i : Instr), exec i (s.withFetchWord 32 (encode i).toNat) = step (s.withFetchWord 32 (encode i).toNat))

/-- O7. What the two ends of a command do: success (R37) and `raise E` (R290, R295) write BUSY, DONE, ERR and ERRCODE and nothing
else that is the core's; `wait` and `raced` are the model's own (logs 3 and 8). -/
def Obligations.CompletionWritesOnlyStatus : Prop :=
  (∀ s : State, completed s = { s with busy := false, done := true, err := false, errcode := 0, wait := 0, raced := false }) ∧
  (∀ (e : CmdError) (s : State),
    errorState e s = { s with busy := false, done := true, err := true, errcode := e.code, wait := 0, raced := false }) ∧
  CmdError.nullInput.code = 1 ∧ CmdError.nullOutput.code = 2 ∧ CmdError.nullKeyExpansion.code = 3 ∧
  CmdError.nullInitialVector.code = 4 ∧ CmdError.zeroLength.code = 5 ∧ CmdError.invalidInputSize.code = 6 ∧
  CmdError.invalidKeyLength.code = 7 ∧ CmdError.invalidMode.code = 8 ∧ CmdError.noKey.code = 9 ∧
  CmdError.ivAlreadySet.code = 10 ∧ CmdError.invalidRound.code = 11 ∧ CmdError.addressRange.code = 12 ∧
  CmdError.illegalCommand.code = 13

/-- O8. Acceptance (R33, R54): a CMD write while idle latches the word and sets BUSY, clears DONE, ERR, ERRCODE, DROP and PVSDEG,
and changes nothing else; the command is left finitely many core steps (R333), how many is open. -/
def Obligations.CmdWriteWhileIdleIsAccepted : Prop :=
  ∀ (s : State) (v : Word) (ms : List HostMove), s.busy = false → s.moves = .regWrite 0x000 4 v :: ms →
    ∃ n : Nat, step s =
      .next { s with cmd := v, busy := true, done := false, err := false, errcode := 0, drop := false, pvsdeg := false,
                     wait := n, raced := false, accepts := s.accepts + 1, moves := ms }

/-- O9. R301: a CMD write while BUSY is dropped and sets DROP; the running command and its ERR and ERRCODE are not affected.
`wait` is the model's own (log 3). -/
def Obligations.CmdWriteWhileBusyIsDropped : Prop :=
  ∀ (s : State) (n : Nat) (v : Word) (ms : List HostMove), s.busy = true → s.wait = n + 1 → s.moves = .regWrite 0x000 4 v :: ms →
    step s = .next { s with drop := true, wait := n, moves := ms }

/-- O10. R58: a host write to any register other than CMD while BUSY is ignored. `wait` is the model's own (log 3). -/
def Obligations.RegisterWriteWhileBusyIsIgnored : Prop :=
  ∀ (s : State) (n offset : Nat) (v : Word) (ms : List HostMove), s.busy = true → s.wait = n + 1 →
    offset % 4 = 0 → 0 < offset → offset < 0x200 → s.moves = .regWrite offset 4 v :: ms →
    step s = .next { s with wait := n, moves := ms }

/-- O11. Until a command completes, a step that is no reset holds everything the command reads but DMEM (R54, R58, R329), whatever
the host does. -/
def Obligations.OperandsHoldUntilCompletion : Prop :=
  ∀ (s t : State) (n : Nat), s.busy = true → s.wait = n + 1 → s.moves.head? ≠ some .reset → step s = .next t →
    t = { s with wait := n, drop := t.drop, dmem := t.dmem, raced := t.raced, draws := t.draws, moves := t.moves,
                 hostLog := t.hostLog } ∧
    (∀ a, inRunningRanges s a = true → t.dmem.byteAt a ≠ s.dmem.byteAt a → t.raced = true)

/-- O12. Every accepted command completes (R54, R10): with no reset on the way, the run of its remaining steps, if the host's
accesses are served, ends idle with DONE set; and with a silent host it ends as the completion from the accepted state. -/
def Obligations.AcceptedCommandCompletes : Prop :=
  (∀ s : State, s.busy = true → s.moves = [] → Sys2Proof.core.run (s.wait + 1) s = completeCommand { s with wait := 0 }) ∧
  (∀ s t : State, s.busy = true → (∀ m ∈ s.moves.take s.wait, m ≠ .reset) → Sys2Proof.core.run (s.wait + 1) s = .next t →
    t.busy = false ∧ t.done = true)

/-- O13. Every command ends in a next state, idle and DONE: no meaning faults or refuses, and no other field of the sequencer, the
parameters or the host's moves changes (R54, R296). -/
def Obligations.EveryCommandEndsInANextState : Prop :=
  ∀ (i : Instr) (s : State), ∃ t : State, exec i s = .next t ∧ t.busy = false ∧ t.done = true ∧ (t.err = true ↔ t.errcode ≠ 0) ∧
    t.cmd = s.cmd ∧ t.drop = s.drop ∧ t.params = s.params ∧ t.accepts = s.accepts ∧ t.moves = s.moves ∧ t.hostLog = s.hostLog

/-- O14. R295: an error changes nothing except STATUS.BUSY, DONE, ERR and ERRCODE: the state after it is the state at acceptance
plus those fields; PVSDEG stays 0, as acceptance left it. `wait` and `raced` are the model's own. -/
def Obligations.ErrorChangesOnlyStatus : Prop :=
  ∀ s t : State, s.busy = true → s.wait = 0 → step s = .next t → t.err = true →
    t = { s with busy := false, done := true, err := true, errcode := t.errcode, wait := 0, raced := false } ∧ t.errcode ≠ 0 ∧
    (StatusInv s → t.pvsdeg = false)

/-- O15. R60: which state each command writes; and a command that raises an error writes only STATUS. -/
def Obligations.CommandWritesOnlyItsState : Prop :=
  ∀ (i : Instr) (s t : State), exec i s = .next t →
    writesOnly i s t ∧
    (t.err = true → t = { s with busy := false, done := true, err := true, errcode := t.errcode, wait := 0, raced := false })

/-! ### Host accesses -/

/-- O16. R31: aligned word accesses are served, and read a register's value, 0 for a write-only register or a reserved offset;
writes to read-only registers and reserved offsets are ignored, reserved bits read 0 and ignore writes; and any other access is
refused. A read changes nothing but the record of it, `hostLog`, which is the model's own (log 15). -/
def Obligations.RegisterAccessRules : Prop :=
  (∀ (s : State) (offset : Nat) (v : Word), offset < 0x200 → offset % 4 = 0 →
    hostMove (.regRead offset 4) s =
      .next { (readReg offset s).2 with hostLog := .reg offset (readReg offset s).1 :: (readReg offset s).2.hostLog } ∧
    hostMove (.regWrite offset 4 v) s = .next (writeReg offset v s)) ∧
  (∀ (s : State) (r : RegName), s.busy = false → regAccess r ≠ .wo →
    hostMove (.regRead (regOffset r) 4) s = .next { s with hostLog := .reg (regOffset r) (regValue r s) :: s.hostLog }) ∧
  (∀ (s : State) (r : RegName), regAccess r = .wo →
    hostMove (.regRead (regOffset r) 4) s = .next { s with hostLog := .reg (regOffset r) 0 :: s.hostLog }) ∧
  (∀ (s : State) (r : RegName) (v : Word), regAccess r = .ro → hostMove (.regWrite (regOffset r) 4 v) s = .next s) ∧
  (∀ (s : State) (offset : Nat), (∀ r, regOffset r ≠ offset) → offset % 4 = 0 → offset < 0x200 →
    hostMove (.regRead offset 4) s = .next { s with hostLog := .reg offset 0 :: s.hostLog } ∧
    ∀ v, hostMove (.regWrite offset 4 v) s = .next s) ∧
  (∀ (s : State) (v : Word), (regValue .cfg s).extractLsb' 18 14 = 0 ∧ (regValue .status s).extractLsb' 12 20 = 0 ∧
    (regValue .result s).extractLsb' 8 24 = 0 ∧ (regValue .kinfo s).extractLsb' 18 2 = 0 ∧
    (regValue .kinfo s).extractLsb' 29 3 = 0 ∧
    hostMove (.regWrite (regOffset .cfg) 4 v) s = hostMove (.regWrite (regOffset .cfg) 4 (v &&& 0x3FFFF)) s) ∧
  (∀ (s : State) (offset width : Nat) (v : Word), offset < 0x200 → (width ≠ 4 ∨ offset % 4 ≠ 0) →
    hostMove (.regRead offset width) s = .refused .registerAccessNotWord ∧
    hostMove (.regWrite offset width v) s = .refused .registerAccessNotWord)

/-- O17. While idle, a host write to a read-write register is served, and the register reads back what was written (CFG without
its reserved bits); every other register, DMEM, the sequencer and the host's side keep their values (R32, R41 to R47). -/
def Obligations.WrittenRegisterReadsBack : Prop :=
  ∀ (s : State) (r : RegName) (v : Word), s.busy = false → regAccess r = .rw →
    ∃ t : State, hostMove (.regWrite (regOffset r) 4 v) s = .next t ∧
      regValue r t = (if r = .cfg then v &&& 0x3FFFF else v) ∧
      hostMove (.regRead (regOffset r) 4) t = .next { t with hostLog := .reg (regOffset r) (regValue r t) :: t.hostLog } ∧
      (∀ r', r' ≠ r → regValue r' t = regValue r' s) ∧
      t.dmem = s.dmem ∧ t.busy = false ∧ t.cmd = s.cmd ∧ t.moves = s.moves ∧ t.hostLog = s.hostLog

/-- O18. R50: every register that holds bytes has the byte with the lower index in the less significant lane; and each view shows
its array (KEY below keybits/8, IV when valid, KS below 4(Nr+1) of a valid schedule: R44, R46, R49). -/
def Obligations.ByteRegistersAreLittleEndianLanes : Prop :=
  ∀ (s : State) (m : Fin 4),
    (∀ j : Fin 8, (regValue (.keyin j) s).extractLsb' (8 * m.val) 8 = s.keyin[4 * j.val + m.val]) ∧
    (∀ j : Fin 4, (regValue (.ivin j) s).extractLsb' (8 * m.val) 8 = s.ivin[4 * j.val + m.val]) ∧
    (∀ j : Fin 4, (regValue (.block j) s).extractLsb' (8 * m.val) 8 = s.blk[4 * j.val + m.val]) ∧
    (∀ j : Fin 4, (regValue (.iv j) s).extractLsb' (8 * m.val) 8 = if s.ivValid then s.iv[4 * j.val + m.val] else 0) ∧
    (∀ j : Fin 8, (regValue (.key j) s).extractLsb' (8 * m.val) 8 =
      if 4 * j.val + m.val < s.keybits.toNat / 8 then s.key[4 * j.val + m.val] else 0) ∧
    (∀ j : Fin 60, (regValue (.ks j) s).extractLsb' (8 * m.val) 8 =
      if s.ksValid = true ∧ j.val < 4 * (s.nr.toNat + 1) then s.ks[4 * j.val + m.val] else 0)

/-- O19. The fields of STATUS (R34) and of KINFO (R44), bit by bit. -/
def Obligations.StatusAndKinfoFields : Prop :=
  ∀ s : State,
    (regValue .status s).getLsbD 0 = s.busy ∧ (regValue .status s).getLsbD 1 = s.done ∧ (regValue .status s).getLsbD 2 = s.err ∧
    (regValue .status s).getLsbD 3 = s.drop ∧ (regValue .status s).extractLsb' 4 4 = s.errcode ∧
    (regValue .status s).getLsbD 8 = s.keyValid ∧ (regValue .status s).getLsbD 9 = s.ksValid ∧
    (regValue .status s).getLsbD 10 = s.ivValid ∧ (regValue .status s).getLsbD 11 = s.pvsdeg ∧
    (s.keyValid = false → regValue .kinfo s = 0) ∧
    (s.keyValid = true → (regValue .kinfo s).extractLsb' 0 16 = s.keybits ∧ (regValue .kinfo s).extractLsb' 16 2 = s.mode.bits ∧
      (regValue .kinfo s).extractLsb' 20 4 = s.nk ∧ (regValue .kinfo s).extractLsb' 24 5 = s.nr) ∧
    Mode.ecb.bits = 0 ∧ Mode.cbc.bits = 1 ∧ Mode.pvs.bits = 2

/-- O20. R57: while BUSY, a host read of STATUS or of a register no command writes returns the current value, and a read of BLOCK,
RESULT, KINFO, KEY, IV or KS returns the next draw, each draw a fresh one. Which draw is next (`draws`) and the record of the read
(`hostLog`) are the model's own (logs 4 and 15). -/
def Obligations.ReadsWhileBusy : Prop :=
  ∀ (s : State), s.busy = true →
    (∀ r : RegName, r = .status ∨ r = .cfg ∨ r = .size ∨ r = .src ∨ r = .dst ∨ r = .piaddr ∨ r = .pilen ∨ r = .tseed ∨
      (∃ j, r = .keyin j) ∨ (∃ j, r = .ivin j) →
      hostMove (.regRead (regOffset r) 4) s = .next { s with hostLog := .reg (regOffset r) (regValue r s) :: s.hostLog }) ∧
    (∀ r : RegName, (∃ j, r = .block j) ∨ r = .result ∨ r = .kinfo ∨ (∃ j, r = .key j) ∨ (∃ j, r = .iv j) ∨ (∃ j, r = .ks j) →
      hostMove (.regRead (regOffset r) 4) s =
        .next { s with draws := s.draws + 1, hostLog := .reg (regOffset r) (Config.freeWord s.draws) :: s.hostLog })

/-- O21. R87, while no ENCRYPT or DECRYPT runs: a naturally aligned host write of DMEM stores the value's bytes lowest first, a read
of the same width returns it, other addresses keep their bytes; and, at any time, a misaligned access wider than a byte is
refused. -/
def Obligations.HostDmemAccessIsLittleEndian : Prop :=
  (∀ (s : State) (addr k value : Nat),
    (s.busy = true → ∀ o, decode s.cmd ≠ .ok (.encrypt o) ∧ decode s.cmd ≠ .ok (.decrypt o)) →
    addr % 2 ^ k = 0 → addr + 2 ^ k ≤ s.params.dmemSize →
    ∃ t, hostMove (.dmemWrite addr (2 ^ k) value) s = .next t ∧
      (∀ a, t.dmem.byteAt a = if addr ≤ a ∧ a < addr + 2 ^ k then BitVec.ofNat 8 (value / 256 ^ (a - addr)) else s.dmem.byteAt a) ∧
      t = { s with dmem := t.dmem } ∧
      hostMove (.dmemRead addr (2 ^ k)) t =
        .next { t with hostLog := .dmem addr (2 ^ k) (value % 256 ^ 2 ^ k) :: t.hostLog }) ∧
  (∀ (s : State) (addr k value : Nat), addr % 2 ^ (k + 1) ≠ 0 →
    hostMove (.dmemWrite addr (2 ^ (k + 1)) value) s = .refused .dmemAccessMisaligned ∧
    hostMove (.dmemRead addr (2 ^ (k + 1))) s = .refused .dmemAccessMisaligned)

/-- O22. Races (R98): while an ENCRYPT or DECRYPT runs, a host read inside DMEM is served, each of its bytes a draw in the output
range and the byte as it stands elsewhere; a host write is served and lands, and is a race exactly when a byte of it falls into
the input, π or output range; and a race makes every byte of the output range a draw once the command completes successfully.
The model's choices: a read of the input or π range outside the output range is exact (log 33), a racing write lands (log 8), a
race leaves an error completion alone (log 7), and which draw stands where (logs 4 and 25). -/
def Obligations.RacesBecomeDraws : Prop :=
  (∀ (s : State) (o : Bool), s.busy = true → (decode s.cmd = .ok (.encrypt o) ∨ decode s.cmd = .ok (.decrypt o)) →
    let out (x : Nat) : Bool := decide (outAddr o s ≤ x ∧ x < outAddr o s + s.size.toNat)
    let ranges (x : Nat) : Bool := out x || decide (s.src.toNat ≤ x ∧ x < s.src.toNat + s.size.toNat) ||
      decide (s.mode = .pvs ∧ piAvailable s = true ∧ s.piaddr.toNat ≤ x ∧ x < s.piaddr.toNat + piBytesLen s)
    ∀ addr k value : Nat, addr % 2 ^ k = 0 → addr + 2 ^ k ≤ s.params.dmemSize →
      let drawn (j : Nat) : Nat := (List.range j).countP fun i => out (addr + i)
      (∃ v : Nat, v < 256 ^ 2 ^ k ∧
        hostMove (.dmemRead addr (2 ^ k)) s =
          .next { s with draws := s.draws + drawn (2 ^ k), hostLog := .dmem addr (2 ^ k) v :: s.hostLog } ∧
        ∀ j, j < 2 ^ k → BitVec.ofNat 8 (v / 256 ^ j) =
          if out (addr + j) then Config.freeByte (s.draws + drawn j) else s.dmem.byteAt (addr + j)) ∧
      (∃ t : State, hostMove (.dmemWrite addr (2 ^ k) value) s = .next t ∧
        t = { s with dmem := t.dmem, raced := t.raced } ∧
        (∀ a, t.dmem.byteAt a = if addr ≤ a ∧ a < addr + 2 ^ k then BitVec.ofNat 8 (value / 256 ^ (a - addr)) else s.dmem.byteAt a) ∧
        (t.raced = true ↔ s.raced = true ∨ ∃ j, j < 2 ^ k ∧ ranges (addr + j) = true))) ∧
  (∀ (s t : State) (o : Bool) (i : Instr), (i = .encrypt o ∨ i = .decrypt o) → s.raced = true → exec i s = .next t → t.err = false →
    ∀ k, k < s.size.toNat → t.dmem.byteAt (outAddr o s + k) = Config.freeByte (s.draws + k))

/-! ### Reset and the invariants -/

/-- O23. R322: after reset STATUS, every read-write register, KINFO, KEY, IV, KS, BLOCK and RESULT read 0, and the first CMD write is
accepted. -/
def Obligations.ResetReadsZero : Prop :=
  (∀ (s : State) (r : RegName), regValue r (resetState s) = 0 ∧ readReg (regOffset r) (resetState s) = (0, resetState s)) ∧
  (∀ (s : State) (v : Word), (writeReg 0 v (resetState s)).busy = true ∧ (writeReg 0 v (resetState s)).cmd = v) ∧
  (∀ r : RegName, regValue r State.reset = 0)

/-- O24. The reset step (R320, R321): in any state it leaves every piece of the core's state at its reset value and DMEM as it was,
but for the output range of a buffer command in flight, each byte of which, as far as DMEM goes, holds a draw (log 9). -/
def Obligations.ResetStepKeepsDmem : Prop :=
  ∀ s : State, ∃ t : State, hostMove .reset s = .next t ∧
    t = { State.reset with dmem := t.dmem, draws := t.draws, params := s.params, accepts := s.accepts, moves := s.moves,
                           hostLog := s.hostLog } ∧
    (∀ a, inOutputRange s a = false ∨ s.params.dmemSize ≤ a → t.dmem.byteAt a = s.dmem.byteAt a) ∧
    (∀ (o : Bool) (k : Nat), runningBuffer s = some o → k < s.size.toNat → outAddr o s + k < s.params.dmemSize →
      t.dmem.byteAt (outAddr o s + k) = Config.freeByte (s.draws + k))

/-- O25. The invariant of the core (R51 to R54, R34 to R37, R323) holds at reset, in every choice of parameters of R9. -/
def Obligations.InvariantHoldsAtReset : Prop :=
  ∀ p : Params, p.wf = true → CoreInv { State.reset with params := p }

/-- O26. Every step keeps the invariant, whatever the host does. -/
def Obligations.StepKeepsTheInvariant : Prop :=
  ∀ s t : State, CoreInv s → step s = .next t → CoreInv t

/-- O27. A host that waits for BUSY = 0 after every command before any other access never meets a draw and never loses a command
(R327): every step keeps its discipline, takes no draw, and sets DROP for no command. -/
def Obligations.WaitingHostMeetsNoDraw : Prop :=
  ∀ s t : State, Disciplined s → step s = .next t → Disciplined t ∧ t.draws = s.draws ∧ (t.drop = true → s.drop = true)

/-- O28. No step changes the implementation's parameters (R9, R92, which leave them open; that they stand in the state is the
model's choice, log 1), and the record of the host's reads, which is the model's own and no rule's (log 15), is only added to. -/
def Obligations.StepKeepsParametersAndRecord : Prop :=
  ∀ s t : State, step s = .next t → t.params = s.params ∧ (t.hostLog = s.hostLog ∨ ∃ r, t.hostLog = r :: s.hostLog)

/-- O29. Reading and writing DMEM (R80, R85, R89): a range write stores each byte at its address and keeps every other, keeps the
canonical form, and canonical memories with the same written bytes are equal. -/
def Obligations.DmemIsCanonical : Prop :=
  (∀ (m : Memory) (a : Nat) (bs : List Byte), m.wf →
    (m.writeBytes a bs).wf ∧ (m.writeBytes a bs).readBytes a bs.length = bs ∧
    ∀ x, ¬ (a ≤ x ∧ x < a + bs.length) → (m.writeBytes a bs).byteAt x = m.byteAt x) ∧
  (∀ m m' : Memory, m.wf → m'.wf → (∀ a, m.written a = m'.written a) → m = m')

/-! ### GF(2^8) and the tables -/

/-- O30. R143: the multiplication table holds the products, and the laws of the field hold. -/
def Obligations.MultiplicationTableLaws : Prop :=
  (∀ a b : Byte, multiply a b = gfMul a b) ∧
  (∀ a b : Byte, gfMul a b = gfMul b a) ∧
  (∀ a : Byte, gfMul a 0 = 0 ∧ gfMul a 1 = a) ∧
  (∀ a b c : Byte, gfMul a (b ^^^ c) = gfMul a b ^^^ gfMul a c) ∧
  (∀ a b c : Byte, gfMul (gfMul a b) c = gfMul a (gfMul b c)) ∧
  (∀ a : Byte, a ≠ 0 → ∃ b : Byte, gfMul a b = 1 ∧ ∀ b' : Byte, gfMul a b' = 1 → b' = b)

/-- O31. The product is the product of the two polynomials modulo x^8+x^4+x^3+x+1 (R140, R142): the difference is a multiple of the
reduction polynomial. -/
def Obligations.ProductIsPolynomialProduct : Prop :=
  ∀ a b : Byte, reductionPolynomial ∣ bytePolynomial a * bytePolynomial b - bytePolynomial (gfMul a b)

/-- O32. R144: the rows MixColumns and InvMixColumns use, written with xtime. -/
def Obligations.MixRowsByXtime : Prop :=
  ∀ v : Byte,
    multiply 0x01 v = v ∧ multiply 0x02 v = xtime v ∧ multiply 0x03 v = xtime v ^^^ v ∧
    multiply 0x09 v = xtime (xtime (xtime v)) ^^^ v ∧
    multiply 0x0B v = xtime (xtime (xtime v)) ^^^ xtime v ^^^ v ∧
    multiply 0x0D v = xtime (xtime (xtime v)) ^^^ xtime (xtime v) ^^^ v ∧
    multiply 0x0E v = xtime (xtime (xtime v)) ^^^ xtime (xtime v) ^^^ xtime v

/-- O33. R145: the S-box is the affine map of the field inverse (of 0 for 0). -/
def Obligations.SboxIsAffineOfInverse : Prop :=
  ∀ a b : Byte, ((a = 0 ∧ b = 0) ∨ gfMul a b = 1) →
    sbox a = b ^^^ b.rotateLeft 1 ^^^ b.rotateLeft 2 ^^^ b.rotateLeft 3 ^^^ b.rotateLeft 4 ^^^ 0x63

/-- O34. R148: the two S-boxes are bijections that undo each other, with the values the rule lists, and S has no fixed point and no
anti-fixed point. -/
def Obligations.SboxProperties : Prop :=
  (∀ a : Byte, invSbox (sbox a) = a) ∧ (∀ a : Byte, sbox (invSbox a) = a) ∧
  (∀ a b : Byte, sbox a = sbox b → a = b) ∧ (∀ a b : Byte, invSbox a = invSbox b → a = b) ∧
  sbox 0x00 = 0x63 ∧ sbox 0x01 = 0x7C ∧ sbox 0x53 = 0xED ∧ sbox 0xFF = 0x16 ∧ invSbox 0x63 = 0x00 ∧ invSbox 0x00 = 0x52 ∧
  (∀ a : Byte, sbox a ≠ a ∧ sbox a ≠ a ^^^ 0xFF)

/-- O35. R150 to R152: GFMUL, SBOX and INVSBOX leave their byte in RESULT, in every state, and change nothing else; the words that
spell them; the corner cases and examples the rules give. -/
def Obligations.LookupCommands : Prop :=
  (∀ (a b : Byte) (s : State), exec (.gfmul a b) s = .next (completed { s with result := multiply a b })) ∧
  (∀ (a : Byte) (s : State), exec (.sbox a) s = .next (completed { s with result := sbox a })) ∧
  (∀ (a : Byte) (s : State), exec (.invsbox a) s = .next (completed { s with result := invSbox a })) ∧
  (∀ (w : Word) (a b : Byte), decode w = .ok (.gfmul a b) ↔
    opcField w = 0x01 ∧ aField w = a ∧ bField w = b ∧ outselField w = false ∧ rsvField w = 0) ∧
  (∀ w : Word, opcField w = 0x01 → (outselField w = true ∨ rsvField w ≠ 0) → illegalAtCompletion w) ∧
  aWord 0x02 .sbox ∧ aWord 0x03 .invsbox ∧
  (∀ s : State, regValue .result s = s.result.zeroExtend 32) ∧
  (∀ a b : Byte, multiply 0 b = 0 ∧ multiply a 0 = 0 ∧ multiply 1 b = b) ∧
  multiply 0x57 0x83 = 0xC1 ∧ sbox 0x00 = 0x63 ∧ sbox 0x53 = 0xED ∧ invSbox 0x00 = 0x52 ∧ invSbox 0xED = 0x53 ∧
  (∀ a : Byte, invSbox (sbox a) = a)

/-! ### Keys -/

/-- O36. SETKEY (R170): with a legal length and mode it latches the staged bytes, length and mode and clears schedule and IV; the
length is checked first, then the mode, and an error leaves all of it. -/
def Obligations.SetkeyLatchesTheStagedKey : Prop :=
  plainWord 0x10 .setkey ∧
  (∀ s : State, s.cfgKeyBits = 128 ∨ s.cfgKeyBits = 192 ∨ s.cfgKeyBits = 256 → s.cfgMode ≠ 3 →
    ∃ t : State, exec .setkey s = .next t ∧
      t = completed { s with key := t.key, keybits := s.cfgKeyBits, mode := t.mode, keyValid := true,
                             ks := Vector.replicate 240 0, nk := 0, nr := 0, ksValid := false,
                             iv := Vector.replicate 16 0, ivValid := false } ∧
      t.mode.bits = s.cfgMode ∧
      (∀ i : Fin 32, t.key[i] = if i.val < s.cfgKeyBits.toNat / 8 then s.keyin[i] else 0)) ∧
  (∀ s : State, s.cfgKeyBits ≠ 128 → s.cfgKeyBits ≠ 192 → s.cfgKeyBits ≠ 256 →
    exec .setkey s = .next (errorState .invalidKeyLength s)) ∧
  (∀ s : State, s.cfgKeyBits = 128 ∨ s.cfgKeyBits = 192 ∨ s.cfgKeyBits = 256 → s.cfgMode = 3 →
    exec .setkey s = .next (errorState .invalidMode s))

/-- O37. EXPAND (R180, R174 to R177): the first Nk words are the key; each later word is the word Nk before it XOR the word before
it, transformed at multiples of Nk and, for Nk = 8, at 4 modulo 8; the rest is zero; Nk and Nr are shown; NoKey without a key.
Stated of the key lengths SETKEY can latch. -/
def Obligations.ExpandDerivesTheSchedule : Prop :=
  plainWord 0x11 .expand ∧
  (∀ s : State, s.keyValid = false → exec .expand s = .next (errorState .noKey s)) ∧
  (∀ s : State, s.keyValid = true → s.keybits = 128 ∨ s.keybits = 192 ∨ s.keybits = 256 →
    ∃ t : State, exec .expand s = .next t ∧
      t = completed { s with ks := t.ks, nk := t.nk, nr := t.nr, ksValid := true } ∧
      t.nk.toNat = s.keybits.toNat / 32 ∧ t.nr.toNat = t.nk.toNat + 6 ∧
      (∀ k (h : k < 4 * t.nk.toNat) (h' : k < 32) (h'' : k < 240), t.ks[k] = s.key[k]) ∧
      (∀ i (m : Fin 4), t.nk.toNat ≤ i → i < 4 * (t.nr.toNat + 1) →
        let w (j : Nat) (m : Nat) : Byte := t.ks.getD (4 * j + m % 4) 0
        let temp : Byte :=
          if i % t.nk.toNat = 0 then
            sbox (w (i - 1) (m.val + 1)) ^^^ (if m.val = 0 then rconByte (i / t.nk.toNat - 1) else 0)
          else if t.nk.toNat = 8 ∧ i % 8 = 4 then sbox (w (i - 1) m.val)
          else w (i - 1) m.val
        w i m.val = w (i - t.nk.toNat) m.val ^^^ temp) ∧
      (∀ k (h : k < 240), 16 * (t.nr.toNat + 1) ≤ k → t.ks[k] = 0) ∧
      exec .expand t = .next t)

/-- O38. R173: the round constants are the powers of x, and the ten the schedules use are those of the table. -/
def Obligations.RoundConstants : Prop :=
  (∀ j : Nat, rconByte (j + 1) = xtime (rconByte j) ∧ (rcon j)[0] = rconByte j ∧ (rcon j)[1] = 0 ∧ (rcon j)[2] = 0 ∧ (rcon j)[3] = 0) ∧
  (List.range 10).map rconByte = [0x01, 0x02, 0x04, 0x08, 0x10, 0x20, 0x40, 0x80, 0x1B, 0x36]

/-! ### Blocks -/

/-- O39. R201 to R207: each round transform, byte by byte, with the matrices of R204 and R205 written out. -/
def Obligations.RoundTransformsByteByByte : Prop :=
  ∀ (b : Block) (ks : Vector Byte 240),
    (∀ i : Fin 16, (subBytes b)[i] = sbox b[i] ∧ (invSubBytes b)[i] = invSbox b[i]) ∧
    (shiftRows b).toList = [b[0], b[5], b[10], b[15], b[4], b[9], b[14], b[3], b[8], b[13], b[2], b[7], b[12], b[1], b[6], b[11]] ∧
    (invShiftRows b).toList = [b[0], b[13], b[10], b[7], b[4], b[1], b[14], b[11], b[8], b[5], b[2], b[15], b[12], b[9], b[6], b[3]] ∧
    (∀ c : Fin 4,
      let s0 := cell b 0 c; let s1 := cell b 1 c; let s2 := cell b 2 c; let s3 := cell b 3 c
      let m := mixColumns b; let n := invMixColumns b
      cell m 0 c = multiply 2 s0 ^^^ multiply 3 s1 ^^^ s2 ^^^ s3 ∧
      cell m 1 c = s0 ^^^ multiply 2 s1 ^^^ multiply 3 s2 ^^^ s3 ∧
      cell m 2 c = s0 ^^^ s1 ^^^ multiply 2 s2 ^^^ multiply 3 s3 ∧
      cell m 3 c = multiply 3 s0 ^^^ s1 ^^^ s2 ^^^ multiply 2 s3 ∧
      cell n 0 c = multiply 14 s0 ^^^ multiply 11 s1 ^^^ multiply 13 s2 ^^^ multiply 9 s3 ∧
      cell n 1 c = multiply 9 s0 ^^^ multiply 14 s1 ^^^ multiply 11 s2 ^^^ multiply 13 s3 ∧
      cell n 2 c = multiply 13 s0 ^^^ multiply 9 s1 ^^^ multiply 14 s2 ^^^ multiply 11 s3 ∧
      cell n 3 c = multiply 11 s0 ^^^ multiply 13 s1 ^^^ multiply 9 s2 ^^^ multiply 14 s3) ∧
    (∀ (r : Fin 15) (i : Fin 16), (addRoundKey ks b r)[i] = b[i] ^^^ ks[16 * r.val + i.val])

/-- O40. R205, R206, R207: each inverse transform undoes its transform, on both sides, and AddRoundKey undoes itself; and R208:
SubBytes and InvSubBytes commute with ShiftRows and InvShiftRows. -/
def Obligations.RoundTransformsInvert : Prop :=
  ∀ (b : Block) (ks : Vector Byte 240) (r : Nat),
    invSubBytes (subBytes b) = b ∧ subBytes (invSubBytes b) = b ∧
    invShiftRows (shiftRows b) = b ∧ shiftRows (invShiftRows b) = b ∧
    invMixColumns (mixColumns b) = b ∧ mixColumns (invMixColumns b) = b ∧
    addRoundKey ks (addRoundKey ks b r) r = b ∧
    subBytes (shiftRows b) = shiftRows (subBytes b) ∧ invSubBytes (shiftRows b) = shiftRows (invSubBytes b) ∧
    subBytes (invShiftRows b) = invShiftRows (subBytes b) ∧ invSubBytes (invShiftRows b) = invShiftRows (invSubBytes b)

/-- O41. R212: for every schedule and round count, InvCipher undoes Cipher and Cipher undoes InvCipher on every block. -/
def Obligations.CipherAndInverseCipherUndoEachOther : Prop :=
  ∀ (ks : Vector Byte 240) (nr : Nat) (b : Block), invCipher ks nr (cipher ks nr b) = b ∧ cipher ks nr (invCipher ks nr b) = b

/-- O42. R220 and R221: with a schedule, ENCBLK and DECBLK replace BLOCK by its Cipher and InvCipher, and DECBLK after ENCBLK gives
the block back; without one, NullKeyExpansion and BLOCK unchanged. -/
def Obligations.BlockCipherCommands : Prop :=
  plainWord 0x20 .encblk ∧ plainWord 0x21 .decblk ∧
  (∀ s : State, s.ksValid = true →
    exec .encblk s = .next (completed { s with blk := cipher s.ks s.nr.toNat s.blk }) ∧
    exec .decblk s = .next (completed { s with blk := invCipher s.ks s.nr.toNat s.blk }) ∧
    runAll [.encblk, .decblk] s = some (completed s)) ∧
  (∀ s : State, s.ksValid = false →
    exec .encblk s = .next (errorState .nullKeyExpansion s) ∧ exec .decblk s = .next (errorState .nullKeyExpansion s))

/-- O43. R222 to R227: the six step commands that need no key apply their transform to BLOCK in every state and change nothing
else; with the corner cases and the examples of the rules. -/
def Obligations.StepCommandsTransformBlock : Prop :=
  plainWord 0x22 .subbytes ∧ plainWord 0x23 .invsubbytes ∧ plainWord 0x24 .shiftrows ∧ plainWord 0x25 .invshiftrows ∧
  plainWord 0x26 .mixcolumns ∧ plainWord 0x27 .invmixcolumns ∧
  (∀ s : State,
    exec .subbytes s = .next (completed { s with blk := subBytes s.blk }) ∧
    exec .invsubbytes s = .next (completed { s with blk := invSubBytes s.blk }) ∧
    exec .shiftrows s = .next (completed { s with blk := shiftRows s.blk }) ∧
    exec .invshiftrows s = .next (completed { s with blk := invShiftRows s.blk }) ∧
    exec .mixcolumns s = .next (completed { s with blk := mixColumns s.blk }) ∧
    exec .invmixcolumns s = .next (completed { s with blk := invMixColumns s.blk })) ∧
  (subBytes (Vector.replicate 16 0x00) = Vector.replicate 16 0x63 ∧ invSubBytes (Vector.replicate 16 0x63) = Vector.replicate 16 0x00 ∧
   invSubBytes (Vector.replicate 16 0x00) = Vector.replicate 16 0x52) ∧
  (∀ b : Block, (∀ r c : Fin 4, cell b r c = cell b r 0) → shiftRows b = b) ∧
  (let count : Block := #v[0x00, 0x01, 0x02, 0x03, 0x04, 0x05, 0x06, 0x07, 0x08, 0x09, 0x0a, 0x0b, 0x0c, 0x0d, 0x0e, 0x0f]
   shiftRows count = #v[0x00, 0x05, 0x0a, 0x0f, 0x04, 0x09, 0x0e, 0x03, 0x08, 0x0d, 0x02, 0x07, 0x0c, 0x01, 0x06, 0x0b] ∧
   invShiftRows count = #v[0x00, 0x0d, 0x0a, 0x07, 0x04, 0x01, 0x0e, 0x0b, 0x08, 0x05, 0x02, 0x0f, 0x0c, 0x09, 0x06, 0x03]) ∧
  (∀ (b : Block) (c : Fin 4) (x : Byte), (∀ r : Fin 4, cell b r c = x) →
    ∀ r : Fin 4, cell (mixColumns b) r c = x ∧ cell (invMixColumns b) r c = x) ∧
  (let columns : Block := #v[0xdb, 0x13, 0x53, 0x45, 0xf2, 0x0a, 0x22, 0x5c, 0xd4, 0xd4, 0xd4, 0xd5, 0xc6, 0xc6, 0xc6, 0xc6]
   let results : Block := #v[0x8e, 0x4d, 0xa1, 0xbc, 0x9f, 0xdc, 0x58, 0x9d, 0xd5, 0xd5, 0xd7, 0xd6, 0xc6, 0xc6, 0xc6, 0xc6]
   mixColumns columns = results ∧ invMixColumns results = columns) ∧
  (let start : Block := #v[0x19, 0x3d, 0xe3, 0xbe, 0xa0, 0xf4, 0xe2, 0x2b, 0x9a, 0xc6, 0x8d, 0x2a, 0xe9, 0xf8, 0x48, 0x08]
   let subbed : Block := #v[0xd4, 0x27, 0x11, 0xae, 0xe0, 0xbf, 0x98, 0xf1, 0xb8, 0xb4, 0x5d, 0xe5, 0x1e, 0x41, 0x52, 0x30]
   let shifted : Block := #v[0xd4, 0xbf, 0x5d, 0x30, 0xe0, 0xb4, 0x52, 0xae, 0xb8, 0x41, 0x11, 0xf1, 0x1e, 0x27, 0x98, 0xe5]
   let mixed : Block := #v[0x04, 0x66, 0x81, 0xe5, 0xe0, 0xcb, 0x19, 0x9a, 0x48, 0xf8, 0xd3, 0x7a, 0x28, 0x06, 0x26, 0x4c]
   subBytes start = subbed ∧ invSubBytes subbed = start ∧ shiftRows subbed = shifted ∧ invShiftRows shifted = subbed ∧
   mixColumns shifted = mixed ∧ invMixColumns mixed = shifted)

/-- O44. R228: ADDRK r XORs round key r into BLOCK for r ≤ Nr, and twice leaves BLOCK unchanged; NullKeyExpansion without a
schedule, then InvalidRound for r > Nr, with BLOCK unchanged. -/
def Obligations.AddrkXorsARoundKey : Prop :=
  aWord 0x28 .addrk ∧
  (∀ (s : State) (r : Byte), s.ksValid = true → r.toNat ≤ s.nr.toNat →
    exec (.addrk r) s = .next (completed { s with blk := addRoundKey s.ks s.blk r.toNat }) ∧
    runAll [.addrk r, .addrk r] s = some (completed s)) ∧
  (∀ (s : State) (r : Byte), s.ksValid = false → exec (.addrk r) s = .next (errorState .nullKeyExpansion s)) ∧
  (∀ (s : State) (r : Byte), s.ksValid = true → s.nr.toNat < r.toNat → exec (.addrk r) s = .next (errorState .invalidRound s))

/-- O45. R214: the step commands in the order of R214 leave the machine exactly as ENCBLK and DECBLK do. -/
def Obligations.StepCommandsComposeToTheCipher : Prop :=
  ∀ s : State, s.ksValid = true → 1 ≤ s.nr.toNat →
    runAll (encSequence s.nr.toNat) s = runAll [.encblk] s ∧ runAll (decSequence s.nr.toNat) s = runAll [.decblk] s ∧
    (∃ t, runAll [.encblk] s = some t) ∧ (∃ t, runAll [.decblk] s = some t)

/-! ### Buffers -/

/-- O46. R242 and R293: which error an ENCRYPT or DECRYPT ends in, as conditions that exclude each other, in the order of the rule;
and each leaves the state of R295. -/
def Obligations.BufferChecksInOrder : Prop :=
  ∀ (s : State) (o : Bool) (dec : Bool),
    let i : Instr := if dec then .decrypt o else .encrypt o
    let noOut : Prop := o = true ∧ s.dst = 0
    let noIv : Prop := dec = true ∧ s.mode = .cbc ∧ s.ivValid = false
    let n := s.size.toNat
    let out : Prop := s.params.dmemSize < s.src.toNat + n ∨ s.params.dmemSize < outAddr o s + n
    let piOut : Prop := s.mode = .pvs ∧ piAvailable s = true ∧ s.params.dmemSize < s.piaddr.toNat + piBytesLen s
    (s.src = 0 → exec i s = .next (errorState .nullInput s)) ∧
    (s.src ≠ 0 → noOut → exec i s = .next (errorState .nullOutput s)) ∧
    (s.src ≠ 0 → ¬ noOut → s.ksValid = false → exec i s = .next (errorState .nullKeyExpansion s)) ∧
    (s.src ≠ 0 → ¬ noOut → s.ksValid = true → noIv → exec i s = .next (errorState .nullInitialVector s)) ∧
    (s.src ≠ 0 → ¬ noOut → s.ksValid = true → ¬ noIv → n = 0 → exec i s = .next (errorState .zeroLength s)) ∧
    (s.src ≠ 0 → ¬ noOut → s.ksValid = true → ¬ noIv → 1 ≤ n → n ≤ 15 → exec i s = .next (errorState .invalidInputSize s)) ∧
    (s.src ≠ 0 → ¬ noOut → s.ksValid = true → ¬ noIv → 16 ≤ n → out ∨ piOut → exec i s = .next (errorState .addressRange s)) ∧
    (s.src ≠ 0 → ¬ noOut → s.ksValid = true → ¬ noIv → 16 ≤ n → ¬ out → ¬ piOut → ∃ t, exec i s = .next t ∧ t.err = false)

/-- O47. ENCRYPT and DECRYPT in ECB (R240, R241, R89): the output range holds the ECB result of the input as it stood, every other
address and register keeps its value, and PVSDEG is 0. -/
def Obligations.EcbBufferCommands : Prop :=
  ∀ (s : State) (o : Bool), bufferReady o s → s.mode = .ecb → s.raced = false →
    (∃ t, exec (.encrypt o) s = .next t ∧ t = completed { s with dmem := t.dmem, pvsdeg := false } ∧
      dmemIs s t (outAddr o s) (ecbEnc (cipher s.ks s.nr.toNat) (s.dmem.readBytes s.src.toNat s.size.toNat))) ∧
    (∃ t, exec (.decrypt o) s = .next t ∧ t = completed { s with dmem := t.dmem, pvsdeg := false } ∧
      dmemIs s t (outAddr o s) (ecbDec (invCipher s.ks s.nr.toNat) (s.dmem.readBytes s.src.toNat s.size.toNat)))

/-- O48. ENCRYPT and DECRYPT in CBC (R240, R241, R256): with an IV they use it unchanged; without one ENCRYPT first assigns the
generated IV and encrypts with it; every other address and register keeps its value. Under either CBC_TAIL. -/
def Obligations.CbcBufferCommands : Prop :=
  ∀ (s : State) (o : Bool), bufferReady o s → s.mode = .cbc → s.raced = false →
    (s.ivValid = true → ∃ t, exec (.encrypt o) s = .next t ∧ t = completed { s with dmem := t.dmem, pvsdeg := false } ∧
      dmemIs s t (outAddr o s)
        (cbcEnc s.params.cbcTail (cipher s.ks s.nr.toNat) s.iv (s.dmem.readBytes s.src.toNat s.size.toNat))) ∧
    (s.ivValid = false → ∃ t, exec (.encrypt o) s = .next t ∧
      t = completed { s with dmem := t.dmem, pvsdeg := false, iv := t.iv, ivValid := true } ∧
      t.iv = cipher s.ks s.nr.toNat (blockOf (leBytes 4 s.tseed.toNat ++ List.replicate 12 0)) ∧
      dmemIs s t (outAddr o s)
        (cbcEnc s.params.cbcTail (cipher s.ks s.nr.toNat) t.iv (s.dmem.readBytes s.src.toNat s.size.toNat))) ∧
    (s.ivValid = true → ∃ t, exec (.decrypt o) s = .next t ∧ t = completed { s with dmem := t.dmem, pvsdeg := false } ∧
      dmemIs s t (outAddr o s)
        (cbcDec s.params.cbcTail (invCipher s.ks s.nr.toNat) s.iv (s.dmem.readBytes s.src.toNat s.size.toNat)))

/-- O49. ENCRYPT and DECRYPT in PVS (R240, R241, R262, R266 to R268, R40): with the π stream, the XOR pass and ECB, PVSDEG 0; without
it, plain ECB, PVSDEG 1 and no error. Under either PVS_KEYOP; K is LE of schedule bytes 0..31 under the default (R261). -/
def Obligations.PvsBufferCommands : Prop :=
  ∀ (s : State) (o : Bool), bufferReady o s → s.mode = .pvs → s.raced = false →
    let input := s.dmem.readBytes s.src.toNat s.size.toNat
    let w := s.pilen.toNat / 32
    let pi := s.dmem.readBytes s.piaddr.toNat (32 * w)
    let e := cipher s.ks s.nr.toNat
    let d := invCipher s.ks s.nr.toNat
    (s.params.pvsKeyOp = .scheduleBytes0To31 → pvsKeyOperand s = leNat (s.ks.toList.take 32)) ∧
    (s.piaddr ≠ 0 → 32 ≤ s.pilen.toNat →
      (∃ t, exec (.encrypt o) s = .next t ∧ t = completed { s with dmem := t.dmem, pvsdeg := false } ∧
        dmemIs s t (outAddr o s) (ecbEnc e (pvsXor (pvsKeyOperand s) pi w input))) ∧
      (∃ t, exec (.decrypt o) s = .next t ∧ t = completed { s with dmem := t.dmem, pvsdeg := false } ∧
        dmemIs s t (outAddr o s) (pvsXor (pvsKeyOperand s) pi w (ecbDec d input)))) ∧
    (s.piaddr = 0 ∨ s.pilen.toNat < 32 →
      (∃ t, exec (.encrypt o) s = .next t ∧ t = completed { s with dmem := t.dmem, pvsdeg := true } ∧
        dmemIs s t (outAddr o s) (ecbEnc e input)) ∧
      (∃ t, exec (.decrypt o) s = .next t ∧ t = completed { s with dmem := t.dmem, pvsdeg := true } ∧
        dmemIs s t (outAddr o s) (ecbDec d input)))

/-- O50. R245 and R246: ECB encryption of n ≥ 16 bytes keeps the length; every full block not reached by the tail window is the
cipher of its plaintext block; and the last 16 bytes are the cipher of the last 16 bytes of the buffer with its full blocks
already encrypted. For every block function. -/
def Obligations.EcbEncryptsBlocksThenTail : Prop :=
  ∀ (e : Block → Block) (buf : List Byte), 16 ≤ buf.length →
    let n := buf.length
    let out := ecbEnc e buf
    let blockByte (k : Nat) : Byte := (e (blockOf ((buf.drop (16 * (k / 16))).take 16)))[k % 16]
    out.length = n ∧
    (∀ k, k < n - 16 → out.getD k 0 = blockByte k) ∧
    (n % 16 = 0 → ∀ k, k < n → out.getD k 0 = blockByte k) ∧
    (n % 16 ≠ 0 → out.drop (n - 16) =
      (e (blockOf ((List.range 16).map fun m =>
        let k := n - 16 + m
        if k < 16 * (n / 16) then blockByte k else buf.getD k 0))).toList)

/-- O51. R250, R251 and R255: the CBC ciphertext blocks C0 = E(P0 XOR IV), Ci = E(Pi XOR C(i−1)); the bytes past the last full block
are XORed with the last ciphertext block; and under XOR_THEN_WINDOW the last 16 bytes are then encrypted. -/
def Obligations.CbcChainsBlocksThenTail : Prop :=
  ∀ (policy : CbcTail) (e : Block → Block) (iv : Block) (buf : List Byte), 16 ≤ buf.length →
    let n := buf.length
    let q := n / 16
    ∃ c : Nat → Block,
      c 0 = e (xorBlock (blockOf (buf.take 16)) iv) ∧
      (∀ i, i + 1 < q → c (i + 1) = e (xorBlock (blockOf ((buf.drop (16 * (i + 1))).take 16)) (c i))) ∧
      (let x : List Byte := (List.range n).map fun k =>
         if k < 16 * q then (c (k / 16))[k % 16] else buf.getD k 0 ^^^ (c (q - 1))[k % 16]
       cbcEnc policy e iv buf =
         if n % 16 = 0 ∨ policy = .xorOnly then x
         else x.take (n - 16) ++ (e (blockOf (x.drop (n - 16)))).toList)

/-- O52. R263 to R265: the XOR pass adds to bytes 64j .. 64j+63 the 64 little-endian bytes of the exact product of π window j mod W
with K, low half first, leaves the last n mod 64 bytes, and undoes itself. -/
def Obligations.PvsXorPass : Prop :=
  ∀ (k : Nat) (pi : List Byte) (w : Nat) (buf : List Byte), k < 2 ^ 256 →
    (pvsXor k pi w buf).length = buf.length ∧
    (∀ m, m < buf.length → (pvsXor k pi w buf).getD m 0 =
      if m < 64 * (buf.length / 64) then
        buf.getD m 0 ^^^ BitVec.ofNat 8 (leNat ((pi.drop (32 * (m / 64 % w))).take 32) * k / 256 ^ (m % 64))
      else buf.getD m 0) ∧
    pvsXor k pi w (pvsXor k pi w buf) = buf

/-- O53. R248: ECB decryption of an ECB encryption of n ≥ 16 bytes is the buffer, for every n, under every schedule. -/
def Obligations.EcbRoundTrip : Prop :=
  ∀ (ks : Vector Byte 240) (nr : Nat) (buf : List Byte), 16 ≤ buf.length →
    ecbDec (invCipher ks nr) (ecbEnc (cipher ks nr) buf) = buf

/-- O54. R254: CBC decryption of a CBC encryption of n ≥ 16 bytes is the buffer, for every n, IV and schedule, under both settings of
CBC_TAIL. -/
def Obligations.CbcRoundTrip : Prop :=
  ∀ (policy : CbcTail) (ks : Vector Byte 240) (nr : Nat) (iv : Block) (buf : List Byte), 16 ≤ buf.length →
    cbcDec policy (invCipher ks nr) iv (cbcEnc policy (cipher ks nr) iv buf) = buf

/-- O55. R330, R248, R254, R269: an in-place ENCRYPT that succeeds, and then an accepted DECRYPT, restore the whole of DMEM, in every
mode and under every parameter, provided the π range, where it is used, does not meet the buffer. -/
def Obligations.EncryptThenDecryptRestoresDmem : Prop :=
  ∀ (s t : State) (w : Word), s.raced = false → exec (.encrypt false) s = .next t → t.err = false →
    (s.mode = .pvs → piAvailable s = true →
      s.piaddr.toNat + piBytesLen s ≤ s.src.toNat ∨ s.src.toNat + s.size.toNat ≤ s.piaddr.toNat) →
    ∃ u, exec (.decrypt false) (latch w t) = .next u ∧ u.err = false ∧ u.pvsdeg = t.pvsdeg ∧ u.iv = t.iv ∧
      ∀ a, u.dmem.byteAt a = s.dmem.byteAt a

/-- O56. R248: with n a multiple of 16, equal plaintext blocks give equal ciphertext blocks in ECB. -/
def Obligations.EcbLocality : Prop :=
  ∀ (e : Block → Block) (buf : List Byte) (i j : Nat), buf.length % 16 = 0 → 16 * i + 16 ≤ buf.length → 16 * j + 16 ≤ buf.length →
    (buf.drop (16 * i)).take 16 = (buf.drop (16 * j)).take 16 →
    ((ecbEnc e buf).drop (16 * i)).take 16 = ((ecbEnc e buf).drop (16 * j)).take 16

/-- O57. R254, the IV sensitivity: two distinct IVs give distinct first ciphertext blocks before the tail is processed, for every
n ≥ 16; and in the finished output too unless 16 < n < 32 with the window step, which rewrites bytes of block 0. For every
schedule. -/
def Obligations.CbcIvSensitivity : Prop :=
  ∀ (policy : CbcTail) (ks : Vector Byte 240) (nr : Nat) (iv iv' : Block) (buf : List Byte), 16 ≤ buf.length → iv ≠ iv' →
    (cbcEncBlocks (cipher ks nr) (buf.length / 16) iv buf).1.take 16 ≠
      (cbcEncBlocks (cipher ks nr) (buf.length / 16) iv' buf).1.take 16 ∧
    (buf.length = 16 ∨ 32 ≤ buf.length ∨ policy = .xorOnly →
      (cbcEnc policy (cipher ks nr) iv buf).take 16 ≠ (cbcEnc policy (cipher ks nr) iv' buf).take 16)

/-- O58. R254's last sentence, which does not follow from R250 and R251: that for 16 < n < 32 the first n − 16 ciphertext bytes under
two distinct IVs always differ. Expected to fail: two ciphertext blocks may agree in their first bytes. -/
def Obligations.CbcShortBufferPrefixDiffers : Prop :=
  ∀ (key : List Byte) (iv iv' : Block) (buf : List Byte), key.length = 16 → 16 < buf.length → buf.length < 32 → iv ≠ iv' →
    (cbcEnc .xorThenWindow (cipher (bytesOf 240 (expand key 4)) 10) iv buf).take (buf.length - 16) ≠
    (cbcEnc .xorThenWindow (cipher (bytesOf 240 (expand key 4)) 10) iv' buf).take (buf.length - 16)

/-! ### IV, lifecycle and control -/

/-- O59. R274 and R275: SETIV and GENIV assign the IV once, with their errors in order. -/
def Obligations.IvCommands : Prop :=
  plainWord 0x12 .setiv ∧ plainWord 0x13 .geniv ∧
  (∀ s : State,
    (s.keyValid = true → s.ivValid = false → exec .setiv s = .next (completed { s with iv := s.ivin, ivValid := true })) ∧
    (s.keyValid = false → exec .setiv s = .next (errorState .noKey s)) ∧
    (s.keyValid = true → s.ivValid = true → exec .setiv s = .next (errorState .ivAlreadySet s)) ∧
    (s.ksValid = true → s.ivValid = false → exec .geniv s =
      .next (completed { s with iv := cipher s.ks s.nr.toNat (blockOf (leBytes 4 s.tseed.toNat ++ List.replicate 12 0)),
                                ivValid := true })) ∧
    (s.ksValid = false → exec .geniv s = .next (errorState .nullKeyExpansion s)) ∧
    (s.ksValid = true → s.ivValid = true → exec .geniv s = .next (errorState .ivAlreadySet s)))

/-- O60. NOP and ZEROIZE (R279, R280), and the lifecycle (R323) with the one-time IV (R277): which command moves between EMPTY, KEYED
and READY; an error never does; a set IV stays until SETKEY or ZEROIZE; and no command but ENCRYPT and DECRYPT reads DMEM (R81). -/
def Obligations.ControlCommandsAndLifecycle : Prop :=
  plainWord 0x00 .nop ∧ plainWord 0x3F .zeroize ∧
  (∀ s : State, exec .nop s = .next (completed s)) ∧
  (∀ s : State, exec .zeroize s = .next (completed
    { s with key := Vector.replicate 32 0, keybits := 0, mode := .ecb, keyValid := false, ks := Vector.replicate 240 0, nk := 0,
             nr := 0, ksValid := false, iv := Vector.replicate 16 0, ivValid := false, blk := Vector.replicate 16 0, result := 0,
             keyin := Vector.replicate 32 0, ivin := Vector.replicate 16 0 })) ∧
  (∀ (i : Instr) (s t : State), exec i s = .next t →
    lifecycle t = (if t.err then lifecycle s else match i with
      | .setkey => .keyed
      | .expand => .ready
      | .zeroize => .empty
      | _ => lifecycle s) ∧
    (t.ivValid = (if t.err then s.ivValid else match i with
      | .setkey | .zeroize => false
      | .setiv | .geniv => true
      | .encrypt _ => s.ivValid || decide (s.mode = .cbc)
      | _ => s.ivValid)) ∧
    (s.ivValid = true → i ≠ .setkey → i ≠ .zeroize → t.iv = s.iv)) ∧
  (∀ (i : Instr) (s : State) (m : Memory), (∀ o, i ≠ .encrypt o ∧ i ≠ .decrypt o) →
    exec i { s with dmem := m } = match exec i s with
      | .next t => .next { t with dmem := m }
      | .fault f => .fault f
      | .refused r => .refused r)
end

