-- ==== Sys2Proof/Laws/Bytes.lean ====
section
/-! SUPPORT. What the byte-string operations of Machine/Bytes.lean do. -/

namespace Sys2Proof.Machine

@[simp] theorem leBytes_length (n x : Nat) : (leBytes n x).length = n := by
  induction n generalizing x with
  | zero => rfl
  | succ n ih => simp [leBytes, ih]

/-- `LE(LEbytes_n(x)) = x mod 256^n` (R14). -/
theorem leNat_leBytes (n x : Nat) : leNat (leBytes n x) = x % 256 ^ n := by
  induction n generalizing x with
  | zero => simp [leBytes, leNat, Nat.mod_one]
  | succ n ih =>
    rw [leBytes, leNat, ih, BitVec.toNat_ofNat, show 256 ^ (n + 1) = 256 * 256 ^ n from Nat.pow_succ']
    exact (Nat.mod_mul (x := x) (a := 256) (b := 256 ^ n)).symm

/-- `LEbytes` of a string's `LE` is the string. -/
theorem leBytes_leNat (l : List Byte) : leBytes l.length (leNat l) = l := by
  induction l with
  | nil => rfl
  | cons b l ih =>
    have hb := b.isLt
    have h1 : (b.toNat + 256 * leNat l) / 256 = leNat l := by omega
    have h2 : BitVec.ofNat 8 (b.toNat + 256 * leNat l) = b := by
      apply BitVec.eq_of_toNat_eq; simp; omega
    simp [leBytes, leNat, h1, h2, ih]

theorem leNat_lt (l : List Byte) : leNat l < 256 ^ l.length := by
  induction l with
  | nil => simp [leNat]
  | cons b l ih =>
    have hb := b.isLt
    simp only [leNat, List.length_cons, Nat.pow_succ']
    omega

/-- Byte k of `LEbytes_n(x)`. -/
theorem leBytes_getElem (n x k : Nat) (h : k < (leBytes n x).length) : (leBytes n x)[k] = BitVec.ofNat 8 (x / 256 ^ k) := by
  induction n generalizing x k with
  | zero => simp [leBytes] at h
  | succ n ih =>
    cases k with
    | zero => simp [leBytes]
    | succ k =>
      have h' : k < (leBytes n (x / 256)).length := by simpa [leBytes] using h
      simp only [leBytes, List.getElem_cons_succ]
      rw [ih _ _ h', Nat.div_div_eq_div_mul, Nat.pow_succ']

/-- Byte j of the integer a byte string spells. -/
theorem leNat_byte (l : List Byte) (j : Nat) (h : j < l.length) : BitVec.ofNat 8 (leNat l / 256 ^ j) = l[j] := by
  have e : l[j] = (leBytes l.length (leNat l))[j]'(by simpa using h) := by simp [leBytes_leNat]
  rw [e, leBytes_getElem]

@[simp] theorem xorBytes_length (x y : List Byte) : (xorBytes x y).length = min x.length y.length := by simp [xorBytes]

/-- XOR with the same bytes twice gives the string back. -/
theorem xorBytes_cancel (x y : List Byte) (h : x.length ≤ y.length) : xorBytes (xorBytes x y) y = x := by
  apply List.ext_getElem
  · simp; omega
  · intro i h1 h2; simp [xorBytes]

theorem bytesOf_toList (n : Nat) (l : List Byte) : (bytesOf n l).toList = (l ++ List.replicate n 0).take n := rfl

/-- Byte i of a padded byte string. -/
theorem bytesOf_getElem (n : Nat) (l : List Byte) (i : Nat) (h : i < n) : (bytesOf n l)[i] = l.getD i 0 := by
  have e : (bytesOf n l)[i] = (bytesOf n l).toList[i]'(by simpa using h) := by simp
  rw [e]
  simp only [bytesOf_toList, List.getElem_take, List.getElem_append, List.getElem_replicate, List.getD_eq_getElem?_getD]
  split
  · next h' => simp [h']
  · next h' => simp [List.getElem?_eq_none (Nat.le_of_not_lt h')]

/-- A byte of an array, index by index. -/
theorem getD_eq_getElem {n : Nat} (v : Vector Byte n) (i : Nat) (h : i < n) : v.getD i 0 = v[i] := by
  simp [Vector.getD, Array.getD, h]

@[simp] theorem blockOf_toList (b : Block) : blockOf b.toList = b := by
  ext i h : 1; simp [blockOf]

theorem toList_blockOf (l : List Byte) (h : l.length = 16) : (blockOf l).toList = l := by
  apply List.ext_getElem
  · simp [h]
  · intro i h1 h2; simp [blockOf, h2]

@[simp] theorem xorBlock_getElem (x y : Block) (i : Nat) (h : i < 16) : (xorBlock x y)[i] = x[i] ^^^ y[i] := by
  simp [xorBlock]

/-- XOR with the same block twice gives the block back (R207: AddRoundKey is its own inverse). -/
@[simp] theorem xorBlock_cancel (x y : Block) : xorBlock (xorBlock x y) y = x := by
  ext i h : 1; simp

@[simp] theorem wordBytes_length (w : Word) : (wordBytes w).length = 4 := by simp [wordBytes]

/-- A register's bytes make up the register (R50). -/
@[simp] theorem wordOfBytes_wordBytes (w : Word) : wordOfBytes (wordBytes w) = w := by
  apply BitVec.eq_of_toNat_eq
  have h := w.isLt
  simp only [wordOfBytes, wordBytes, leNat_leBytes, BitVec.toNat_ofNat]
  omega

/-- Byte m of a register sits in bits [8m+7:8m] (R50). -/
theorem wordOfBytes_lane (l : List Byte) (m : Nat) (h : m < l.length) (hl : l.length ≤ 4) :
    (wordOfBytes l).extractLsb' (8 * m) 8 = l[m] := by
  have e : l[m] = (leBytes l.length (leNat l))[m]'(by simpa using h) := by simp [leBytes_leNat]
  rw [e, leBytes_getElem]
  apply BitVec.eq_of_toNat_eq
  have h1 : leNat l < 2 ^ 32 := Nat.lt_of_lt_of_le (leNat_lt l)
    (by calc 256 ^ l.length ≤ 256 ^ 4 := Nat.pow_le_pow_right (by decide) hl
          _ = 2 ^ 32 := by decide)
  simp only [wordOfBytes, BitVec.extractLsb'_toNat, BitVec.toNat_ofNat, Nat.mod_eq_of_lt h1, Nat.shiftRight_eq_div_pow]
  rw [show (256 : Nat) = 2 ^ 8 from rfl, ← Nat.pow_mul]

/-- Byte i of a byte array after register j is written (R50). -/
theorem setLanes_getElem {n : Nat} (v : Vector Byte n) (j : Nat) (w : Word) (i : Nat) (h : i < n) :
    (setLanes v j w)[i] = if i / 4 = j then (wordBytes w).getD (i % 4) 0 else v[i] := by
  simp [setLanes]

/-- A written register reads back (R50). -/
theorem laneWord_setLanes {n : Nat} (v : Vector Byte n) (j : Nat) (w : Word) (h : 4 * j + 4 ≤ n) :
    laneWord (setLanes v j w) j = w := by
  have e : ((setLanes v j w).toList.drop (4 * j)).take 4 = wordBytes w := by
    apply List.ext_getElem
    · simp; omega
    · intro i h1 h2
      have hi : i < 4 := by simpa using h2
      have a : (4 * j + i) / 4 = j := by omega
      have b : (4 * j + i) % 4 = i := by omega
      have g := setLanes_getElem v j w (4 * j + i) (by omega)
      simp only [a, b, if_true] at g
      simp only [List.getElem_take, List.getElem_drop, Vector.getElem_toList, g, List.getD_eq_getElem?_getD,
        List.getElem?_eq_getElem h2, Option.getD_some]
  rw [laneWord, e, wordOfBytes_wordBytes]

/-- The other registers of the array keep their value (R50). -/
theorem laneWord_setLanes_ne {n : Nat} (v : Vector Byte n) (j k : Nat) (w : Word) (h : k ≠ j) :
    laneWord (setLanes v j w) k = laneWord v k := by
  have e : ((setLanes v j w).toList.drop (4 * k)).take 4 = (v.toList.drop (4 * k)).take 4 := by
    apply List.ext_getElem
    · simp
    · intro i h1 h2
      have hi : i < 4 ∧ 4 * k + i < n := by simp at h2; omega
      have a : (4 * k + i) / 4 ≠ j := by omega
      have g := setLanes_getElem v j w (4 * k + i) hi.2
      simp only [a, if_false] at g
      simp only [List.getElem_take, List.getElem_drop, Vector.getElem_toList, g]
  rw [laneWord, e, laneWord]

/-- The bytes of a register of an array (R50). -/
theorem laneWord_lane {n : Nat} (v : Vector Byte n) (j m : Nat) (hm : m < 4) (h : 4 * j + 4 ≤ n) :
    (laneWord v j).extractLsb' (8 * m) 8 = v[4 * j + m]'(by omega) := by
  have hl : ((v.toList.drop (4 * j)).take 4).length = 4 := by simp; omega
  rw [laneWord, wordOfBytes_lane _ m (by omega) (by omega)]
  simp

end Sys2Proof.Machine
end

