-- ==== Sys2Proof/Laws/Gf.lean ====
section
/-! SUPPORT. The multiplier is linear in each operand, a property of bytes follows from its basis, and the tables undo each other. -/

namespace Sys2Proof.Machine

/-- A property of bytes that holds of zero and of the eight powers of two, and that XOR keeps, holds of every byte. -/
theorem byte_induction (P : Byte → Prop) (zero : P 0) (xor : ∀ a b, P a → P b → P (a ^^^ b))
    (basis : ∀ i : Fin 8, P (1#8 <<< i.val)) (v : Byte) : P v := by
  have bit (i : Fin 8) : P (if v.getLsbD i.val then 1#8 <<< i.val else 0) := by
    split
    · exact basis i
    · exact zero
  have sum : ∀ v : Byte, v = (((((((if v.getLsbD 0 then 1#8 <<< 0 else 0) ^^^ (if v.getLsbD 1 then 1#8 <<< 1 else 0)) ^^^
      (if v.getLsbD 2 then 1#8 <<< 2 else 0)) ^^^ (if v.getLsbD 3 then 1#8 <<< 3 else 0)) ^^^
      (if v.getLsbD 4 then 1#8 <<< 4 else 0)) ^^^ (if v.getLsbD 5 then 1#8 <<< 5 else 0)) ^^^
      (if v.getLsbD 6 then 1#8 <<< 6 else 0)) ^^^ (if v.getLsbD 7 then 1#8 <<< 7 else 0) := by
    decide +kernel
  rw [sum v]
  exact xor _ _ (xor _ _ (xor _ _ (xor _ _ (xor _ _ (xor _ _ (xor _ _ (bit 0) (bit 1)) (bit 2)) (bit 3)) (bit 4)) (bit 5)) (bit 6)) (bit 7)

/-- Multiplication by x, as a shift and a conditional reduction (R141). -/
theorem xtime_eq (v : Byte) : xtime v = (v <<< 1) ^^^ (if v.msb then 0x1B else 0) := by
  revert v; decide +kernel

/-- Multiplication by x is linear (R140, R141). -/
theorem xtime_xor (a b : Byte) : xtime (a ^^^ b) = xtime a ^^^ xtime b := by
  simp only [xtime_eq, BitVec.shiftLeft_xor_distrib, BitVec.msb_xor]
  generalize a <<< 1 = x
  generalize b <<< 1 = y
  cases a.msb <;> cases b.msb <;> simp
  · ac_rfl
  · ac_rfl
  · rw [BitVec.xor_assoc, BitVec.xor_comm 0x1B#8 (y ^^^ 0x1B#8), BitVec.xor_assoc, BitVec.xor_self, BitVec.xor_zero]

/-- The loop's running sum adds up. -/
theorem gfMulLoop_acc (n : Nat) (a b p : Byte) : gfMulLoop n a b p = p ^^^ gfMulLoop n a b 0 := by
  induction n generalizing a b p with
  | zero => simp [gfMulLoop]
  | succ n ih =>
    rw [gfMulLoop, ih, gfMulLoop, ih _ _ (if b.getLsbD 0 then 0 ^^^ a else 0)]
    split <;> simp [BitVec.xor_assoc]

theorem gfMulLoop_xor_left (n : Nat) (a a' b : Byte) :
    gfMulLoop n (a ^^^ a') b 0 = gfMulLoop n a b 0 ^^^ gfMulLoop n a' b 0 := by
  induction n generalizing a a' b with
  | zero => simp [gfMulLoop]
  | succ n ih =>
    simp only [gfMulLoop, xtime_xor]
    rw [gfMulLoop_acc, ih, gfMulLoop_acc n (xtime a) _ (if b.getLsbD 0 then 0 ^^^ a else 0),
      gfMulLoop_acc n (xtime a') _ (if b.getLsbD 0 then 0 ^^^ a' else 0)]
    split
    · simp; ac_rfl
    · simp

theorem gfMulLoop_xor_right (n : Nat) (a b b' : Byte) :
    gfMulLoop n a (b ^^^ b') 0 = gfMulLoop n a b 0 ^^^ gfMulLoop n a b' 0 := by
  induction n generalizing a b b' with
  | zero => simp [gfMulLoop]
  | succ n ih =>
    simp only [gfMulLoop, BitVec.ushiftRight_xor_distrib, BitVec.getLsbD_xor]
    rw [gfMulLoop_acc, ih, gfMulLoop_acc n _ (b >>> 1) (if b.getLsbD 0 then 0 ^^^ a else 0),
      gfMulLoop_acc n _ (b' >>> 1) (if b'.getLsbD 0 then 0 ^^^ a else 0)]
    generalize gfMulLoop n (xtime a) (b >>> 1) 0 = x
    generalize gfMulLoop n (xtime a) (b' >>> 1) 0 = y
    have twice : a ^^^ x ^^^ (a ^^^ y) = x ^^^ y := by
      rw [BitVec.xor_comm a x, BitVec.xor_assoc, ← BitVec.xor_assoc a a y, BitVec.xor_self, BitVec.zero_xor]
    cases b.getLsbD 0 <;> cases b'.getLsbD 0 <;> simp [twice] <;> ac_rfl

/-- The product is linear in its first operand (R143). -/
theorem gfMul_xor_left (a a' b : Byte) : gfMul (a ^^^ a') b = gfMul a b ^^^ gfMul a' b := gfMulLoop_xor_left 8 a a' b

/-- The product is linear in its second operand (R143). -/
theorem gfMul_xor_right (a b b' : Byte) : gfMul a (b ^^^ b') = gfMul a b ^^^ gfMul a b' := gfMulLoop_xor_right 8 a b b'

theorem multiply_xor_right (a b b' : Byte) : multiply a (b ^^^ b') = multiply a b ^^^ multiply a b' := gfMul_xor_right a b b'

/-- The inverse S-box undoes the S-box (R147). -/
@[simp] theorem invSbox_sbox (a : Byte) : invSbox (sbox a) = a := by revert a; decide +kernel

/-- The S-box undoes the inverse S-box (R147, R148). -/
@[simp] theorem sbox_invSbox (a : Byte) : sbox (invSbox a) = a := by revert a; decide +kernel

end Sys2Proof.Machine
end

