-- ==== Sys2Proof/Laws/BlockTransform.lean ====
section
/-! SUPPORT. What each round transform does to a byte, and that each inverse undoes its transform. -/

namespace Sys2Proof.Machine

@[simp] theorem subBytes_getElem (b : Block) (i : Nat) (h : i < 16) : (subBytes b)[i] = sbox b[i] := by simp [subBytes]
@[simp] theorem invSubBytes_getElem (b : Block) (i : Nat) (h : i < 16) : (invSubBytes b)[i] = invSbox b[i] := by simp [invSubBytes]

@[simp] theorem invSubBytes_subBytes (b : Block) : invSubBytes (subBytes b) = b := by ext i h : 1; simp
@[simp] theorem subBytes_invSubBytes (b : Block) : subBytes (invSubBytes b) = b := by ext i h : 1; simp

theorem ofCells_getElem (f : Nat → Nat → Byte) (i : Nat) (h : i < 16) : (ofCells f)[i] = f (i % 4) (i / 4) := by simp [ofCells]

/-- A matrix entry of a block given by its entries (R15). -/
@[simp] theorem cell_ofCells (f : Nat → Nat → Byte) (r c : Nat) : cell (ofCells f) r c = f (r % 4) (c % 4) := by
  rw [cell, ofCells_getElem]
  congr 1 <;> omega

/-- A byte is the matrix entry at its row and column (R15). -/
theorem getElem_eq_cell (b : Block) (i : Nat) (h : i < 16) : b[i] = cell b (i % 4) (i / 4) := by
  simp only [cell]
  congr 1
  omega

theorem cell_mod (b : Block) (r c : Nat) : cell b (r % 4) (c % 4) = cell b r c := by simp [cell]

/-- Two blocks with the same matrix are equal. -/
theorem block_ext_cells {b b' : Block} (h : ∀ r c, r < 4 → c < 4 → cell b r c = cell b' r c) : b = b' := by
  ext i hi : 1
  rw [getElem_eq_cell b i hi, getElem_eq_cell b' i hi]
  exact h (i % 4) (i / 4) (by omega) (by omega)

theorem cell_congr (b : Block) {r r' c c' : Nat} (hr : r % 4 = r' % 4) (hc : c % 4 = c' % 4) : cell b r c = cell b r' c' := by
  simp only [cell, hr, hc]

@[simp] theorem invShiftRows_shiftRows (b : Block) : invShiftRows (shiftRows b) = b := by
  apply block_ext_cells
  intro r c hr hc
  simp only [invShiftRows, shiftRows, cell_ofCells]
  exact cell_congr b (by omega) (by omega)

@[simp] theorem shiftRows_invShiftRows (b : Block) : shiftRows (invShiftRows b) = b := by
  apply block_ext_cells
  intro r c hr hc
  simp only [invShiftRows, shiftRows, cell_ofCells]
  exact cell_congr b (by omega) (by omega)

/-- The rows of the two matrices multiply to the identity (R205), entry by entry: the coefficient of byte j of the column in
row r is 1 where r = j and 0 elsewhere. -/
theorem inv_mix_coefficients (v : Byte) :
    multiply 14 (multiply 2 v) ^^^ multiply 11 v ^^^ multiply 13 v ^^^ multiply 9 (multiply 3 v) = v ∧
    multiply 14 (multiply 3 v) ^^^ multiply 11 (multiply 2 v) ^^^ multiply 13 v ^^^ multiply 9 v = 0 ∧
    multiply 14 v ^^^ multiply 11 (multiply 3 v) ^^^ multiply 13 (multiply 2 v) ^^^ multiply 9 v = 0 ∧
    multiply 14 v ^^^ multiply 11 v ^^^ multiply 13 (multiply 3 v) ^^^ multiply 9 (multiply 2 v) = 0 := by
  revert v; decide +kernel

/-- The same in the other order. -/
theorem mix_inv_coefficients (v : Byte) :
    multiply 2 (multiply 14 v) ^^^ multiply 3 (multiply 9 v) ^^^ multiply 13 v ^^^ multiply 11 v = v ∧
    multiply 2 (multiply 11 v) ^^^ multiply 3 (multiply 14 v) ^^^ multiply 9 v ^^^ multiply 13 v = 0 ∧
    multiply 2 (multiply 13 v) ^^^ multiply 3 (multiply 11 v) ^^^ multiply 14 v ^^^ multiply 9 v = 0 ∧
    multiply 2 (multiply 9 v) ^^^ multiply 3 (multiply 13 v) ^^^ multiply 11 v ^^^ multiply 14 v = 0 := by
  revert v; decide +kernel

@[simp] theorem multiply_one (v : Byte) : multiply 1 v = v := by revert v; decide +kernel

/-- Four bytes, each with its own four coefficients: the sum of the columns is the sum over the bytes. -/
theorem xor_columns (a0 a1 a2 a3 b0 b1 b2 b3 c0 c1 c2 c3 d0 d1 d2 d3 : Byte) :
    (a0 ^^^ b0 ^^^ c0 ^^^ d0) ^^^ (a1 ^^^ b1 ^^^ c1 ^^^ d1) ^^^ (a2 ^^^ b2 ^^^ c2 ^^^ d2) ^^^ (a3 ^^^ b3 ^^^ c3 ^^^ d3) =
    (a0 ^^^ a1 ^^^ a2 ^^^ a3) ^^^ (b0 ^^^ b1 ^^^ b2 ^^^ b3) ^^^ (c0 ^^^ c1 ^^^ c2 ^^^ c3) ^^^ (d0 ^^^ d1 ^^^ d2 ^^^ d3) := by
  ac_rfl

theorem cell_mixColumns (b : Block) (r c : Nat) : cell (mixColumns b) r c = mixCell 0x02 0x03 0x01 0x01 b r c := by
  simp only [mixColumns, cell_ofCells, mixCell]
  congr 1
  · congr 1
    · congr 1
      · congr 1; exact cell_congr b (by omega) (by omega)
      · congr 1; exact cell_congr b (by omega) (by omega)
    · congr 1; exact cell_congr b (by omega) (by omega)
  · congr 1; exact cell_congr b (by omega) (by omega)

theorem cell_invMixColumns (b : Block) (r c : Nat) : cell (invMixColumns b) r c = mixCell 0x0E 0x0B 0x0D 0x09 b r c := by
  simp only [invMixColumns, cell_ofCells, mixCell]
  congr 1
  · congr 1
    · congr 1
      · congr 1; exact cell_congr b (by omega) (by omega)
      · congr 1; exact cell_congr b (by omega) (by omega)
    · congr 1; exact cell_congr b (by omega) (by omega)
  · congr 1; exact cell_congr b (by omega) (by omega)

end Sys2Proof.Machine
end

