-- ==== Sys2Proof/Laws/Memory.lean ====
section
/-! SUPPORT. DMEM: every operation keeps the canonical form; a read after a write gives the value written; other bytes stay. -/

namespace Sys2Proof.Machine

/-- The addresses of a memory after one byte is written are the old ones and the written one. -/
theorem Memory.mem_set (m : Memory) (a : Nat) (b : Byte) (c : Host.Cell) (h : c ∈ m.set a b) : c = (a, b) ∨ c ∈ m := by
  induction m with
  | nil => simpa [Memory.set] using h
  | cons x m ih =>
    obtain ⟨k, d⟩ := x
    simp only [Memory.set] at h
    split at h
    · simpa using h
    · split at h
      · simp only [List.mem_cons] at h ⊢; tauto
      · simp only [List.mem_cons] at h ⊢
        rcases h with h | h
        · exact .inr (.inl h)
        · rcases ih h with h | h
          · exact .inl h
          · exact .inr (.inr h)

/-- A write keeps the canonical form. -/
theorem Memory.set_wf (m : Memory) (a : Nat) (b : Byte) (h : m.wf) : (m.set a b).wf := by
  induction m with
  | nil => simp [Memory.set, Memory.wf]
  | cons x m ih =>
    obtain ⟨k, d⟩ := x
    have hx := List.pairwise_cons.mp h
    simp only [Memory.set]
    split
    · next hk =>
      refine List.pairwise_cons.mpr ⟨?_, h⟩
      intro c hc
      rcases List.mem_cons.mp hc with rfl | hc
      · exact hk
      · exact Nat.lt_trans hk (hx.1 c hc)
    · split
      · next h1 h2 => subst h2; exact List.pairwise_cons.mpr ⟨hx.1, hx.2⟩
      · next h1 h2 =>
        refine List.pairwise_cons.mpr ⟨?_, ih hx.2⟩
        intro c hc
        rcases Memory.mem_set m a b c hc with rfl | hc
        · simp only; omega
        · exact hx.1 c hc

/-- The byte last written at each address, after a write. -/
theorem Memory.written_set (m : Memory) (a : Nat) (b : Byte) (x : Nat) :
    (m.set a b).written x = if x = a then some b else m.written x := by
  induction m with
  | nil => simp only [Memory.set, Memory.written]; grind
  | cons y m ih =>
    obtain ⟨k, d⟩ := y
    simp only [Memory.set]
    split
    · simp only [Memory.written]; grind
    · split
      · simp only [Memory.written]; grind
      · simp only [Memory.written, ih]; grind

/-- What each address reads as, after a write. -/
theorem Memory.byteAt_set (m : Memory) (a : Nat) (b : Byte) (x : Nat) :
    (m.set a b).byteAt x = if x = a then b else m.byteAt x := by
  rw [Memory.byteAt, Memory.written_set]
  split <;> simp [Memory.byteAt]

theorem Memory.writeBytes_wf (m : Memory) (a : Nat) (bs : List Byte) (h : m.wf) : (m.writeBytes a bs).wf := by
  induction bs generalizing m a with
  | nil => exact h
  | cons b bs ih => exact ih _ _ (Memory.set_wf m a b h)

/-- The cells a range write leaves are old ones, or lie in the range. -/
theorem Memory.mem_writeBytes (m : Memory) (a : Nat) (bs : List Byte) (c : Host.Cell) (h : c ∈ m.writeBytes a bs) :
    c ∈ m ∨ (a ≤ c.1 ∧ c.1 < a + bs.length) := by
  induction bs generalizing m a with
  | nil => exact .inl h
  | cons b bs ih =>
    rcases ih _ _ h with h | h
    · rcases Memory.mem_set m a b c h with rfl | h
      · exact .inr ⟨Nat.le_refl _, by simp⟩
      · exact .inl h
    · refine .inr ⟨by omega, ?_⟩
      simp only [List.length_cons]; omega

/-- What each address reads as, after a range write. -/
theorem Memory.byteAt_writeBytes (m : Memory) (a : Nat) (bs : List Byte) (x : Nat) :
    (m.writeBytes a bs).byteAt x = if a ≤ x ∧ x < a + bs.length then bs.getD (x - a) 0 else m.byteAt x := by
  induction bs generalizing m a with
  | nil => simp only [Memory.writeBytes, List.length_nil]; rw [if_neg (by omega)]
  | cons b bs ih =>
    rw [Memory.writeBytes, ih, Memory.byteAt_set]
    simp only [List.length_cons]
    rcases Nat.lt_trichotomy x a with h | h | h
    · rw [if_neg (by omega), if_neg (by omega), if_neg (by omega)]
    · subst h; rw [if_neg (by omega), if_pos rfl, if_pos (by omega)]; simp
    · by_cases h2 : x < a + (bs.length + 1)
      · rw [if_pos (by omega), if_pos (by omega), show x - a = (x - (a + 1)) + 1 by omega]
        simp
      · rw [if_neg (by omega), if_neg (by omega), if_neg (by omega)]

/-- What an address holds after an integer was written as n little-endian bytes (R87). -/
theorem Memory.byteAt_writeBytes_leBytes (m : Memory) (a n value x : Nat) :
    (m.writeBytes a (leBytes n value)).byteAt x =
      if a ≤ x ∧ x < a + n then BitVec.ofNat 8 (value / 256 ^ (x - a)) else m.byteAt x := by
  rw [Memory.byteAt_writeBytes]
  simp only [leBytes_length]
  split
  · next h =>
    have h' : x - a < (leBytes n value).length := by simp; omega
    rw [List.getD_eq_getElem?_getD, List.getElem?_eq_getElem h', Option.getD_some, leBytes_getElem]
  · rfl

@[simp] theorem Memory.readBytes_length (m : Memory) (a n : Nat) : (m.readBytes a n).length = n := by
  simp [Memory.readBytes]

theorem Memory.readBytes_getElem (m : Memory) (a n i : Nat) (h : i < (m.readBytes a n).length) :
    (m.readBytes a n)[i] = m.byteAt (a + i) := by
  simp [Memory.readBytes]

/-- Reading back the range just written gives the bytes written. -/
theorem Memory.readBytes_writeBytes (m : Memory) (a : Nat) (bs : List Byte) : (m.writeBytes a bs).readBytes a bs.length = bs := by
  apply List.ext_getElem
  · simp
  · intro i h1 h2
    rw [Memory.readBytes_getElem, Memory.byteAt_writeBytes, if_pos (by omega)]
    simp [h2]

/-- Two memories that read the same over a range give the same byte string. -/
theorem Memory.readBytes_congr (m m' : Memory) (a n : Nat) (h : ∀ i < n, m.byteAt (a + i) = m'.byteAt (a + i)) :
    m.readBytes a n = m'.readBytes a n := by
  apply List.ext_getElem
  · simp
  · intro i h1 h2
    rw [Memory.readBytes_getElem, Memory.readBytes_getElem]
    exact h i (by simpa using h2)

@[simp] theorem freeBytes_length (d n : Nat) : (freeBytes d n).length = n := by simp [freeBytes]

/-- Equal memories are equal data: two canonical memories with the same written bytes are one list. -/
theorem Memory.ext_of_written {m m' : Memory} (h : m.wf) (h' : m'.wf) (e : ∀ a, m.written a = m'.written a) : m = m' := by
  have notin : ∀ (m : Memory) (a : Nat), (∀ c ∈ m, a < c.1) → m.written a = none := by
    intro m a hm
    induction m with
    | nil => rfl
    | cons x m ih =>
      have := hm x (by simp)
      rw [Memory.written, if_neg (by omega)]
      exact ih fun c hc => hm c (by simp [hc])
  induction m generalizing m' with
  | nil =>
    cases m' with
    | nil => rfl
    | cons y m' => have := e y.1; simp [Memory.written] at this
  | cons x m ih =>
    cases m' with
    | nil => have := e x.1; simp [Memory.written] at this
    | cons y m' =>
      have hx := List.pairwise_cons.mp h
      have hy := List.pairwise_cons.mp h'
      have hxy : x.1 = y.1 := by
        rcases Nat.lt_trichotomy x.1 y.1 with hl | hl | hl
        · have := e x.1
          rw [notin (y :: m') x.1 (by
            intro c hc
            rcases List.mem_cons.mp hc with rfl | hc
            · exact hl
            · exact Nat.lt_trans hl (hy.1 c hc))] at this
          simp [Memory.written] at this
        · exact hl
        · have := e y.1
          rw [notin (x :: m) y.1 (by
            intro c hc
            rcases List.mem_cons.mp hc with rfl | hc
            · exact hl
            · exact Nat.lt_trans hl (hx.1 c hc))] at this
          simp [Memory.written] at this
      have hv : x.2 = y.2 := by have := e x.1; simpa [Memory.written, hxy] using this
      have ht : m = m' := by
        refine ih hx.2 hy.2 fun a => ?_
        have := e a
        by_cases ha : x.1 = a
        · rw [notin m a fun c hc => ha ▸ hx.1 c hc, notin m' a fun c hc => by have := hy.1 c hc; omega]
        · simpa [Memory.written, ha, hxy ▸ ha] using this
      rw [ht, Prod.ext hxy hv]

end Sys2Proof.Machine
end

