-- ==== Sys2Proof/Laws/State.lean ====
section
/-! SUPPORT. One lemma per field for each state update of the sequencer, so that no later proof unfolds a record update. -/

namespace Sys2Proof.Machine

/-! ### acceptance (R54) -/

@[simp] theorem latch_cfgKeyBits (v : Word) (s : State) : (latch v s).cfgKeyBits = s.cfgKeyBits := rfl
@[simp] theorem latch_cfgMode (v : Word) (s : State) : (latch v s).cfgMode = s.cfgMode := rfl
@[simp] theorem latch_size (v : Word) (s : State) : (latch v s).size = s.size := rfl
@[simp] theorem latch_src (v : Word) (s : State) : (latch v s).src = s.src := rfl
@[simp] theorem latch_dst (v : Word) (s : State) : (latch v s).dst = s.dst := rfl
@[simp] theorem latch_piaddr (v : Word) (s : State) : (latch v s).piaddr = s.piaddr := rfl
@[simp] theorem latch_pilen (v : Word) (s : State) : (latch v s).pilen = s.pilen := rfl
@[simp] theorem latch_tseed (v : Word) (s : State) : (latch v s).tseed = s.tseed := rfl
@[simp] theorem latch_result (v : Word) (s : State) : (latch v s).result = s.result := rfl
@[simp] theorem latch_keyin (v : Word) (s : State) : (latch v s).keyin = s.keyin := rfl
@[simp] theorem latch_ivin (v : Word) (s : State) : (latch v s).ivin = s.ivin := rfl
@[simp] theorem latch_blk (v : Word) (s : State) : (latch v s).blk = s.blk := rfl
@[simp] theorem latch_busy (v : Word) (s : State) : (latch v s).busy = true := rfl
@[simp] theorem latch_done (v : Word) (s : State) : (latch v s).done = false := rfl
@[simp] theorem latch_err (v : Word) (s : State) : (latch v s).err = false := rfl
@[simp] theorem latch_drop (v : Word) (s : State) : (latch v s).drop = false := rfl
@[simp] theorem latch_errcode (v : Word) (s : State) : (latch v s).errcode = 0 := rfl
@[simp] theorem latch_pvsdeg (v : Word) (s : State) : (latch v s).pvsdeg = false := rfl
@[simp] theorem latch_cmd (v : Word) (s : State) : (latch v s).cmd = v := rfl
@[simp] theorem latch_key (v : Word) (s : State) : (latch v s).key = s.key := rfl
@[simp] theorem latch_keybits (v : Word) (s : State) : (latch v s).keybits = s.keybits := rfl
@[simp] theorem latch_mode (v : Word) (s : State) : (latch v s).mode = s.mode := rfl
@[simp] theorem latch_keyValid (v : Word) (s : State) : (latch v s).keyValid = s.keyValid := rfl
@[simp] theorem latch_ks (v : Word) (s : State) : (latch v s).ks = s.ks := rfl
@[simp] theorem latch_nk (v : Word) (s : State) : (latch v s).nk = s.nk := rfl
@[simp] theorem latch_nr (v : Word) (s : State) : (latch v s).nr = s.nr := rfl
@[simp] theorem latch_ksValid (v : Word) (s : State) : (latch v s).ksValid = s.ksValid := rfl
@[simp] theorem latch_iv (v : Word) (s : State) : (latch v s).iv = s.iv := rfl
@[simp] theorem latch_ivValid (v : Word) (s : State) : (latch v s).ivValid = s.ivValid := rfl
@[simp] theorem latch_dmem (v : Word) (s : State) : (latch v s).dmem = s.dmem := rfl
@[simp] theorem latch_params (v : Word) (s : State) : (latch v s).params = s.params := rfl
@[simp] theorem latch_wait (v : Word) (s : State) : (latch v s).wait = 0 := rfl
@[simp] theorem latch_accepts (v : Word) (s : State) : (latch v s).accepts = s.accepts := rfl
@[simp] theorem latch_raced (v : Word) (s : State) : (latch v s).raced = false := rfl
@[simp] theorem latch_draws (v : Word) (s : State) : (latch v s).draws = s.draws := rfl
@[simp] theorem latch_moves (v : Word) (s : State) : (latch v s).moves = s.moves := rfl
@[simp] theorem latch_hostLog (v : Word) (s : State) : (latch v s).hostLog = s.hostLog := rfl

/-! ### a successful completion (R37, R54) -/

@[simp] theorem completed_cfgKeyBits (s : State) : (completed s).cfgKeyBits = s.cfgKeyBits := rfl
@[simp] theorem completed_cfgMode (s : State) : (completed s).cfgMode = s.cfgMode := rfl
@[simp] theorem completed_size (s : State) : (completed s).size = s.size := rfl
@[simp] theorem completed_src (s : State) : (completed s).src = s.src := rfl
@[simp] theorem completed_dst (s : State) : (completed s).dst = s.dst := rfl
@[simp] theorem completed_piaddr (s : State) : (completed s).piaddr = s.piaddr := rfl
@[simp] theorem completed_pilen (s : State) : (completed s).pilen = s.pilen := rfl
@[simp] theorem completed_tseed (s : State) : (completed s).tseed = s.tseed := rfl
@[simp] theorem completed_result (s : State) : (completed s).result = s.result := rfl
@[simp] theorem completed_keyin (s : State) : (completed s).keyin = s.keyin := rfl
@[simp] theorem completed_ivin (s : State) : (completed s).ivin = s.ivin := rfl
@[simp] theorem completed_blk (s : State) : (completed s).blk = s.blk := rfl
@[simp] theorem completed_busy (s : State) : (completed s).busy = false := rfl
@[simp] theorem completed_done (s : State) : (completed s).done = true := rfl
@[simp] theorem completed_err (s : State) : (completed s).err = false := rfl
@[simp] theorem completed_drop (s : State) : (completed s).drop = s.drop := rfl
@[simp] theorem completed_errcode (s : State) : (completed s).errcode = 0 := rfl
@[simp] theorem completed_pvsdeg (s : State) : (completed s).pvsdeg = s.pvsdeg := rfl
@[simp] theorem completed_cmd (s : State) : (completed s).cmd = s.cmd := rfl
@[simp] theorem completed_key (s : State) : (completed s).key = s.key := rfl
@[simp] theorem completed_keybits (s : State) : (completed s).keybits = s.keybits := rfl
@[simp] theorem completed_mode (s : State) : (completed s).mode = s.mode := rfl
@[simp] theorem completed_keyValid (s : State) : (completed s).keyValid = s.keyValid := rfl
@[simp] theorem completed_ks (s : State) : (completed s).ks = s.ks := rfl
@[simp] theorem completed_nk (s : State) : (completed s).nk = s.nk := rfl
@[simp] theorem completed_nr (s : State) : (completed s).nr = s.nr := rfl
@[simp] theorem completed_ksValid (s : State) : (completed s).ksValid = s.ksValid := rfl
@[simp] theorem completed_iv (s : State) : (completed s).iv = s.iv := rfl
@[simp] theorem completed_ivValid (s : State) : (completed s).ivValid = s.ivValid := rfl
@[simp] theorem completed_dmem (s : State) : (completed s).dmem = s.dmem := rfl
@[simp] theorem completed_params (s : State) : (completed s).params = s.params := rfl
@[simp] theorem completed_wait (s : State) : (completed s).wait = 0 := rfl
@[simp] theorem completed_accepts (s : State) : (completed s).accepts = s.accepts := rfl
@[simp] theorem completed_raced (s : State) : (completed s).raced = false := rfl
@[simp] theorem completed_draws (s : State) : (completed s).draws = s.draws := rfl
@[simp] theorem completed_moves (s : State) : (completed s).moves = s.moves := rfl
@[simp] theorem completed_hostLog (s : State) : (completed s).hostLog = s.hostLog := rfl

/-! ### an error completion (R295) -/

@[simp] theorem errorState_cfgKeyBits (e : CmdError) (s : State) : (errorState e s).cfgKeyBits = s.cfgKeyBits := rfl
@[simp] theorem errorState_cfgMode (e : CmdError) (s : State) : (errorState e s).cfgMode = s.cfgMode := rfl
@[simp] theorem errorState_size (e : CmdError) (s : State) : (errorState e s).size = s.size := rfl
@[simp] theorem errorState_src (e : CmdError) (s : State) : (errorState e s).src = s.src := rfl
@[simp] theorem errorState_dst (e : CmdError) (s : State) : (errorState e s).dst = s.dst := rfl
@[simp] theorem errorState_piaddr (e : CmdError) (s : State) : (errorState e s).piaddr = s.piaddr := rfl
@[simp] theorem errorState_pilen (e : CmdError) (s : State) : (errorState e s).pilen = s.pilen := rfl
@[simp] theorem errorState_tseed (e : CmdError) (s : State) : (errorState e s).tseed = s.tseed := rfl
@[simp] theorem errorState_result (e : CmdError) (s : State) : (errorState e s).result = s.result := rfl
@[simp] theorem errorState_keyin (e : CmdError) (s : State) : (errorState e s).keyin = s.keyin := rfl
@[simp] theorem errorState_ivin (e : CmdError) (s : State) : (errorState e s).ivin = s.ivin := rfl
@[simp] theorem errorState_blk (e : CmdError) (s : State) : (errorState e s).blk = s.blk := rfl
@[simp] theorem errorState_busy (e : CmdError) (s : State) : (errorState e s).busy = false := rfl
@[simp] theorem errorState_done (e : CmdError) (s : State) : (errorState e s).done = true := rfl
@[simp] theorem errorState_err (e : CmdError) (s : State) : (errorState e s).err = true := rfl
@[simp] theorem errorState_drop (e : CmdError) (s : State) : (errorState e s).drop = s.drop := rfl
@[simp] theorem errorState_errcode (e : CmdError) (s : State) : (errorState e s).errcode = e.code := rfl
@[simp] theorem errorState_pvsdeg (e : CmdError) (s : State) : (errorState e s).pvsdeg = s.pvsdeg := rfl
@[simp] theorem errorState_cmd (e : CmdError) (s : State) : (errorState e s).cmd = s.cmd := rfl
@[simp] theorem errorState_key (e : CmdError) (s : State) : (errorState e s).key = s.key := rfl
@[simp] theorem errorState_keybits (e : CmdError) (s : State) : (errorState e s).keybits = s.keybits := rfl
@[simp] theorem errorState_mode (e : CmdError) (s : State) : (errorState e s).mode = s.mode := rfl
@[simp] theorem errorState_keyValid (e : CmdError) (s : State) : (errorState e s).keyValid = s.keyValid := rfl
@[simp] theorem errorState_ks (e : CmdError) (s : State) : (errorState e s).ks = s.ks := rfl
@[simp] theorem errorState_nk (e : CmdError) (s : State) : (errorState e s).nk = s.nk := rfl
@[simp] theorem errorState_nr (e : CmdError) (s : State) : (errorState e s).nr = s.nr := rfl
@[simp] theorem errorState_ksValid (e : CmdError) (s : State) : (errorState e s).ksValid = s.ksValid := rfl
@[simp] theorem errorState_iv (e : CmdError) (s : State) : (errorState e s).iv = s.iv := rfl
@[simp] theorem errorState_ivValid (e : CmdError) (s : State) : (errorState e s).ivValid = s.ivValid := rfl
@[simp] theorem errorState_dmem (e : CmdError) (s : State) : (errorState e s).dmem = s.dmem := rfl
@[simp] theorem errorState_params (e : CmdError) (s : State) : (errorState e s).params = s.params := rfl
@[simp] theorem errorState_wait (e : CmdError) (s : State) : (errorState e s).wait = 0 := rfl
@[simp] theorem errorState_accepts (e : CmdError) (s : State) : (errorState e s).accepts = s.accepts := rfl
@[simp] theorem errorState_raced (e : CmdError) (s : State) : (errorState e s).raced = false := rfl
@[simp] theorem errorState_draws (e : CmdError) (s : State) : (errorState e s).draws = s.draws := rfl
@[simp] theorem errorState_moves (e : CmdError) (s : State) : (errorState e s).moves = s.moves := rfl
@[simp] theorem errorState_hostLog (e : CmdError) (s : State) : (errorState e s).hostLog = s.hostLog := rfl

/-! ### clearing the schedule (R170) -/

@[simp] theorem clearSchedule_cfgKeyBits (s : State) : (clearSchedule s).cfgKeyBits = s.cfgKeyBits := rfl
@[simp] theorem clearSchedule_cfgMode (s : State) : (clearSchedule s).cfgMode = s.cfgMode := rfl
@[simp] theorem clearSchedule_size (s : State) : (clearSchedule s).size = s.size := rfl
@[simp] theorem clearSchedule_src (s : State) : (clearSchedule s).src = s.src := rfl
@[simp] theorem clearSchedule_dst (s : State) : (clearSchedule s).dst = s.dst := rfl
@[simp] theorem clearSchedule_piaddr (s : State) : (clearSchedule s).piaddr = s.piaddr := rfl
@[simp] theorem clearSchedule_pilen (s : State) : (clearSchedule s).pilen = s.pilen := rfl
@[simp] theorem clearSchedule_tseed (s : State) : (clearSchedule s).tseed = s.tseed := rfl
@[simp] theorem clearSchedule_result (s : State) : (clearSchedule s).result = s.result := rfl
@[simp] theorem clearSchedule_keyin (s : State) : (clearSchedule s).keyin = s.keyin := rfl
@[simp] theorem clearSchedule_ivin (s : State) : (clearSchedule s).ivin = s.ivin := rfl
@[simp] theorem clearSchedule_blk (s : State) : (clearSchedule s).blk = s.blk := rfl
@[simp] theorem clearSchedule_busy (s : State) : (clearSchedule s).busy = s.busy := rfl
@[simp] theorem clearSchedule_done (s : State) : (clearSchedule s).done = s.done := rfl
@[simp] theorem clearSchedule_err (s : State) : (clearSchedule s).err = s.err := rfl
@[simp] theorem clearSchedule_drop (s : State) : (clearSchedule s).drop = s.drop := rfl
@[simp] theorem clearSchedule_errcode (s : State) : (clearSchedule s).errcode = s.errcode := rfl
@[simp] theorem clearSchedule_pvsdeg (s : State) : (clearSchedule s).pvsdeg = s.pvsdeg := rfl
@[simp] theorem clearSchedule_cmd (s : State) : (clearSchedule s).cmd = s.cmd := rfl
@[simp] theorem clearSchedule_key (s : State) : (clearSchedule s).key = s.key := rfl
@[simp] theorem clearSchedule_keybits (s : State) : (clearSchedule s).keybits = s.keybits := rfl
@[simp] theorem clearSchedule_mode (s : State) : (clearSchedule s).mode = s.mode := rfl
@[simp] theorem clearSchedule_keyValid (s : State) : (clearSchedule s).keyValid = s.keyValid := rfl
@[simp] theorem clearSchedule_ks (s : State) : (clearSchedule s).ks = Vector.replicate 240 0 := rfl
@[simp] theorem clearSchedule_nk (s : State) : (clearSchedule s).nk = 0 := rfl
@[simp] theorem clearSchedule_nr (s : State) : (clearSchedule s).nr = 0 := rfl
@[simp] theorem clearSchedule_ksValid (s : State) : (clearSchedule s).ksValid = false := rfl
@[simp] theorem clearSchedule_iv (s : State) : (clearSchedule s).iv = s.iv := rfl
@[simp] theorem clearSchedule_ivValid (s : State) : (clearSchedule s).ivValid = s.ivValid := rfl
@[simp] theorem clearSchedule_dmem (s : State) : (clearSchedule s).dmem = s.dmem := rfl
@[simp] theorem clearSchedule_params (s : State) : (clearSchedule s).params = s.params := rfl
@[simp] theorem clearSchedule_wait (s : State) : (clearSchedule s).wait = s.wait := rfl
@[simp] theorem clearSchedule_accepts (s : State) : (clearSchedule s).accepts = s.accepts := rfl
@[simp] theorem clearSchedule_raced (s : State) : (clearSchedule s).raced = s.raced := rfl
@[simp] theorem clearSchedule_draws (s : State) : (clearSchedule s).draws = s.draws := rfl
@[simp] theorem clearSchedule_moves (s : State) : (clearSchedule s).moves = s.moves := rfl
@[simp] theorem clearSchedule_hostLog (s : State) : (clearSchedule s).hostLog = s.hostLog := rfl

/-! ### clearing the IV (R170) -/

@[simp] theorem clearIv_cfgKeyBits (s : State) : (clearIv s).cfgKeyBits = s.cfgKeyBits := rfl
@[simp] theorem clearIv_cfgMode (s : State) : (clearIv s).cfgMode = s.cfgMode := rfl
@[simp] theorem clearIv_size (s : State) : (clearIv s).size = s.size := rfl
@[simp] theorem clearIv_src (s : State) : (clearIv s).src = s.src := rfl
@[simp] theorem clearIv_dst (s : State) : (clearIv s).dst = s.dst := rfl
@[simp] theorem clearIv_piaddr (s : State) : (clearIv s).piaddr = s.piaddr := rfl
@[simp] theorem clearIv_pilen (s : State) : (clearIv s).pilen = s.pilen := rfl
@[simp] theorem clearIv_tseed (s : State) : (clearIv s).tseed = s.tseed := rfl
@[simp] theorem clearIv_result (s : State) : (clearIv s).result = s.result := rfl
@[simp] theorem clearIv_keyin (s : State) : (clearIv s).keyin = s.keyin := rfl
@[simp] theorem clearIv_ivin (s : State) : (clearIv s).ivin = s.ivin := rfl
@[simp] theorem clearIv_blk (s : State) : (clearIv s).blk = s.blk := rfl
@[simp] theorem clearIv_busy (s : State) : (clearIv s).busy = s.busy := rfl
@[simp] theorem clearIv_done (s : State) : (clearIv s).done = s.done := rfl
@[simp] theorem clearIv_err (s : State) : (clearIv s).err = s.err := rfl
@[simp] theorem clearIv_drop (s : State) : (clearIv s).drop = s.drop := rfl
@[simp] theorem clearIv_errcode (s : State) : (clearIv s).errcode = s.errcode := rfl
@[simp] theorem clearIv_pvsdeg (s : State) : (clearIv s).pvsdeg = s.pvsdeg := rfl
@[simp] theorem clearIv_cmd (s : State) : (clearIv s).cmd = s.cmd := rfl
@[simp] theorem clearIv_key (s : State) : (clearIv s).key = s.key := rfl
@[simp] theorem clearIv_keybits (s : State) : (clearIv s).keybits = s.keybits := rfl
@[simp] theorem clearIv_mode (s : State) : (clearIv s).mode = s.mode := rfl
@[simp] theorem clearIv_keyValid (s : State) : (clearIv s).keyValid = s.keyValid := rfl
@[simp] theorem clearIv_ks (s : State) : (clearIv s).ks = s.ks := rfl
@[simp] theorem clearIv_nk (s : State) : (clearIv s).nk = s.nk := rfl
@[simp] theorem clearIv_nr (s : State) : (clearIv s).nr = s.nr := rfl
@[simp] theorem clearIv_ksValid (s : State) : (clearIv s).ksValid = s.ksValid := rfl
@[simp] theorem clearIv_iv (s : State) : (clearIv s).iv = Vector.replicate 16 0 := rfl
@[simp] theorem clearIv_ivValid (s : State) : (clearIv s).ivValid = false := rfl
@[simp] theorem clearIv_dmem (s : State) : (clearIv s).dmem = s.dmem := rfl
@[simp] theorem clearIv_params (s : State) : (clearIv s).params = s.params := rfl
@[simp] theorem clearIv_wait (s : State) : (clearIv s).wait = s.wait := rfl
@[simp] theorem clearIv_accepts (s : State) : (clearIv s).accepts = s.accepts := rfl
@[simp] theorem clearIv_raced (s : State) : (clearIv s).raced = s.raced := rfl
@[simp] theorem clearIv_draws (s : State) : (clearIv s).draws = s.draws := rfl
@[simp] theorem clearIv_moves (s : State) : (clearIv s).moves = s.moves := rfl
@[simp] theorem clearIv_hostLog (s : State) : (clearIv s).hostLog = s.hostLog := rfl

/-! ### the reset step (R320) -/

@[simp] theorem resetState_cfgKeyBits (s : State) : (resetState s).cfgKeyBits = State.reset.cfgKeyBits := rfl
@[simp] theorem resetState_cfgMode (s : State) : (resetState s).cfgMode = State.reset.cfgMode := rfl
@[simp] theorem resetState_size (s : State) : (resetState s).size = State.reset.size := rfl
@[simp] theorem resetState_src (s : State) : (resetState s).src = State.reset.src := rfl
@[simp] theorem resetState_dst (s : State) : (resetState s).dst = State.reset.dst := rfl
@[simp] theorem resetState_piaddr (s : State) : (resetState s).piaddr = State.reset.piaddr := rfl
@[simp] theorem resetState_pilen (s : State) : (resetState s).pilen = State.reset.pilen := rfl
@[simp] theorem resetState_tseed (s : State) : (resetState s).tseed = State.reset.tseed := rfl
@[simp] theorem resetState_result (s : State) : (resetState s).result = State.reset.result := rfl
@[simp] theorem resetState_keyin (s : State) : (resetState s).keyin = State.reset.keyin := rfl
@[simp] theorem resetState_ivin (s : State) : (resetState s).ivin = State.reset.ivin := rfl
@[simp] theorem resetState_blk (s : State) : (resetState s).blk = State.reset.blk := rfl
@[simp] theorem resetState_busy (s : State) : (resetState s).busy = State.reset.busy := rfl
@[simp] theorem resetState_done (s : State) : (resetState s).done = State.reset.done := rfl
@[simp] theorem resetState_err (s : State) : (resetState s).err = State.reset.err := rfl
@[simp] theorem resetState_drop (s : State) : (resetState s).drop = State.reset.drop := rfl
@[simp] theorem resetState_errcode (s : State) : (resetState s).errcode = State.reset.errcode := rfl
@[simp] theorem resetState_pvsdeg (s : State) : (resetState s).pvsdeg = State.reset.pvsdeg := rfl
@[simp] theorem resetState_cmd (s : State) : (resetState s).cmd = State.reset.cmd := rfl
@[simp] theorem resetState_key (s : State) : (resetState s).key = State.reset.key := rfl
@[simp] theorem resetState_keybits (s : State) : (resetState s).keybits = State.reset.keybits := rfl
@[simp] theorem resetState_mode (s : State) : (resetState s).mode = State.reset.mode := rfl
@[simp] theorem resetState_keyValid (s : State) : (resetState s).keyValid = State.reset.keyValid := rfl
@[simp] theorem resetState_ks (s : State) : (resetState s).ks = State.reset.ks := rfl
@[simp] theorem resetState_nk (s : State) : (resetState s).nk = State.reset.nk := rfl
@[simp] theorem resetState_nr (s : State) : (resetState s).nr = State.reset.nr := rfl
@[simp] theorem resetState_ksValid (s : State) : (resetState s).ksValid = State.reset.ksValid := rfl
@[simp] theorem resetState_iv (s : State) : (resetState s).iv = State.reset.iv := rfl
@[simp] theorem resetState_ivValid (s : State) : (resetState s).ivValid = State.reset.ivValid := rfl
@[simp] theorem resetState_dmem (s : State) : (resetState s).dmem = (resetDmem s).1 := rfl
@[simp] theorem resetState_params (s : State) : (resetState s).params = s.params := rfl
@[simp] theorem resetState_wait (s : State) : (resetState s).wait = State.reset.wait := rfl
@[simp] theorem resetState_accepts (s : State) : (resetState s).accepts = s.accepts := rfl
@[simp] theorem resetState_raced (s : State) : (resetState s).raced = State.reset.raced := rfl
@[simp] theorem resetState_draws (s : State) : (resetState s).draws = (resetDmem s).2 := rfl
@[simp] theorem resetState_moves (s : State) : (resetState s).moves = s.moves := rfl
@[simp] theorem resetState_hostLog (s : State) : (resetState s).hostLog = s.hostLog := rfl

/-! ### recording a host read (log 15) -/

@[simp] theorem logRead_cfgKeyBits (r : HostRead) (s : State) : (logRead r s).cfgKeyBits = s.cfgKeyBits := rfl
@[simp] theorem logRead_cfgMode (r : HostRead) (s : State) : (logRead r s).cfgMode = s.cfgMode := rfl
@[simp] theorem logRead_size (r : HostRead) (s : State) : (logRead r s).size = s.size := rfl
@[simp] theorem logRead_src (r : HostRead) (s : State) : (logRead r s).src = s.src := rfl
@[simp] theorem logRead_dst (r : HostRead) (s : State) : (logRead r s).dst = s.dst := rfl
@[simp] theorem logRead_piaddr (r : HostRead) (s : State) : (logRead r s).piaddr = s.piaddr := rfl
@[simp] theorem logRead_pilen (r : HostRead) (s : State) : (logRead r s).pilen = s.pilen := rfl
@[simp] theorem logRead_tseed (r : HostRead) (s : State) : (logRead r s).tseed = s.tseed := rfl
@[simp] theorem logRead_result (r : HostRead) (s : State) : (logRead r s).result = s.result := rfl
@[simp] theorem logRead_keyin (r : HostRead) (s : State) : (logRead r s).keyin = s.keyin := rfl
@[simp] theorem logRead_ivin (r : HostRead) (s : State) : (logRead r s).ivin = s.ivin := rfl
@[simp] theorem logRead_blk (r : HostRead) (s : State) : (logRead r s).blk = s.blk := rfl
@[simp] theorem logRead_busy (r : HostRead) (s : State) : (logRead r s).busy = s.busy := rfl
@[simp] theorem logRead_done (r : HostRead) (s : State) : (logRead r s).done = s.done := rfl
@[simp] theorem logRead_err (r : HostRead) (s : State) : (logRead r s).err = s.err := rfl
@[simp] theorem logRead_drop (r : HostRead) (s : State) : (logRead r s).drop = s.drop := rfl
@[simp] theorem logRead_errcode (r : HostRead) (s : State) : (logRead r s).errcode = s.errcode := rfl
@[simp] theorem logRead_pvsdeg (r : HostRead) (s : State) : (logRead r s).pvsdeg = s.pvsdeg := rfl
@[simp] theorem logRead_cmd (r : HostRead) (s : State) : (logRead r s).cmd = s.cmd := rfl
@[simp] theorem logRead_key (r : HostRead) (s : State) : (logRead r s).key = s.key := rfl
@[simp] theorem logRead_keybits (r : HostRead) (s : State) : (logRead r s).keybits = s.keybits := rfl
@[simp] theorem logRead_mode (r : HostRead) (s : State) : (logRead r s).mode = s.mode := rfl
@[simp] theorem logRead_keyValid (r : HostRead) (s : State) : (logRead r s).keyValid = s.keyValid := rfl
@[simp] theorem logRead_ks (r : HostRead) (s : State) : (logRead r s).ks = s.ks := rfl
@[simp] theorem logRead_nk (r : HostRead) (s : State) : (logRead r s).nk = s.nk := rfl
@[simp] theorem logRead_nr (r : HostRead) (s : State) : (logRead r s).nr = s.nr := rfl
@[simp] theorem logRead_ksValid (r : HostRead) (s : State) : (logRead r s).ksValid = s.ksValid := rfl
@[simp] theorem logRead_iv (r : HostRead) (s : State) : (logRead r s).iv = s.iv := rfl
@[simp] theorem logRead_ivValid (r : HostRead) (s : State) : (logRead r s).ivValid = s.ivValid := rfl
@[simp] theorem logRead_dmem (r : HostRead) (s : State) : (logRead r s).dmem = s.dmem := rfl
@[simp] theorem logRead_params (r : HostRead) (s : State) : (logRead r s).params = s.params := rfl
@[simp] theorem logRead_wait (r : HostRead) (s : State) : (logRead r s).wait = s.wait := rfl
@[simp] theorem logRead_accepts (r : HostRead) (s : State) : (logRead r s).accepts = s.accepts := rfl
@[simp] theorem logRead_raced (r : HostRead) (s : State) : (logRead r s).raced = s.raced := rfl
@[simp] theorem logRead_draws (r : HostRead) (s : State) : (logRead r s).draws = s.draws := rfl
@[simp] theorem logRead_moves (r : HostRead) (s : State) : (logRead r s).moves = s.moves := rfl
@[simp] theorem logRead_hostLog (r : HostRead) (s : State) : (logRead r s).hostLog = r :: s.hostLog := rfl

/-! ### The two ways a command ends -/

@[simp] theorem complete_eq (s : State) : complete s = .next (completed s) := rfl
@[simp] theorem raise_eq (e : CmdError) (s : State) : raise e s = .next (errorState e s) := rfl

/-- No error has code 0 (R291). -/
@[simp] theorem code_ne_zero (e : CmdError) : e.code ≠ 0#4 := by cases e <;> decide

/-- Codes 14 and 15 are never written (R291). -/
theorem code_le (e : CmdError) : e.code.toNat ≤ 13 := by cases e <;> decide

end Sys2Proof.Machine
end

