-- ==== Sys2Proof/Laws/Commands.lean ====
section
/-! SUPPORT. How each command ends: the one lemma a proof about a command cites instead of unfolding its meaning. -/

namespace Sys2Proof.Machine

/-! ### The write of an output range (R89, R98) -/

theorem writeOutput_clean (o : Bool) (out : List Byte) (s : State) (h : s.raced = false) :
    writeOutput o out s = { s with dmem := s.dmem.writeBytes (outAddr o s) out } := by
  simp [writeOutput, h]

theorem writeOutput_raced (o : Bool) (out : List Byte) (s : State) (h : s.raced = true) :
    writeOutput o out s = { s with dmem := s.dmem.writeBytes (outAddr o s) (freeBytes s.draws s.size.toNat),
                                   draws := s.draws + s.size.toNat } := by
  simp [writeOutput, h]

/-- An output range write changes DMEM and the draws, and nothing else. -/
theorem writeOutput_frame (o : Bool) (out : List Byte) (s : State) :
    writeOutput o out s = { s with dmem := (writeOutput o out s).dmem, draws := (writeOutput o out s).draws } := by
  unfold writeOutput
  split <;> rfl

/-- What DMEM reads as after an output range write, the output being as long as SIZE. -/
theorem writeOutput_byteAt (o : Bool) (out : List Byte) (s : State) (hl : out.length = s.size.toNat) (a : Nat) :
    (writeOutput o out s).dmem.byteAt a =
      if outAddr o s ≤ a ∧ a < outAddr o s + s.size.toNat then
        (if s.raced then Config.freeByte (s.draws + (a - outAddr o s)) else out.getD (a - outAddr o s) 0)
      else s.dmem.byteAt a := by
  unfold writeOutput
  split
  · next h =>
    simp only [Memory.byteAt_writeBytes, freeBytes_length]
    split
    · next h' => simp [freeBytes, show a - outAddr o s < s.size.toNat by omega]
    · rfl
  · next h => simp only [Memory.byteAt_writeBytes, hl]

/-! ### The checks of a buffer command (R242) -/

/-- A buffer command passes its checks exactly when every one of them passes (R242). -/
theorem checkBuffer_eq_none (dir : Dir) (o : Bool) (s : State) : checkBuffer dir o s = none ↔
    s.src ≠ 0 ∧ ¬ (o = true ∧ s.dst = 0) ∧ s.ksValid = true ∧ ¬ (dir = .dec ∧ s.mode = .cbc ∧ s.ivValid = false) ∧
    16 ≤ s.size.toNat ∧ inRange s s.src.toNat s.size.toNat = true ∧ inRange s (outAddr o s) s.size.toNat = true ∧
    ¬ (s.mode = .pvs ∧ piAvailable s = true ∧ inRange s s.piaddr.toNat (piBytesLen s) = false) := by
  have size : s.size = 0 ↔ s.size.toNat = 0 := by
    constructor
    · intro h; simp [h]
    · intro h; exact BitVec.eq_of_toNat_eq (by simpa using h)
  unfold checkBuffer
  split
  · next h => simp [h]
  · next h1 =>
    split
    · next h => simp [h]
    · next h2 =>
      split
      · next h => simp_all
      · next h3 =>
        split
        · next h => simp_all
        · next h4 =>
          split
          · next h => rw [size] at h; simp [h]
          · next h5 =>
            split
            · next h => simp; omega
            · next h6 =>
              split
              · next h => simp; rcases h with h | h <;> simp_all
              · next h7 =>
                split
                · next h => simp_all
                · next h8 => simp_all

/-! ### The ends of each command -/

/-- ENCRYPT whose checks pass (R240). -/
theorem execEncrypt_ok (o : Bool) (s : State) (h : checkBuffer .enc o s = none) :
    execEncrypt o s = .next (completed (writeOutput o (encryptBytes (assignMissingIv s) (inputBytes s))
      { assignMissingIv s with pvsdeg := pvsDegrades s })) := by
  have e : inputBytes (assignMissingIv s) = inputBytes s := by unfold assignMissingIv; split <;> rfl
  simp [execEncrypt, h, e]

/-- DECRYPT whose checks pass (R241). -/
theorem execDecrypt_ok (o : Bool) (s : State) (h : checkBuffer .dec o s = none) :
    execDecrypt o s = .next (completed (writeOutput o (decryptBytes s (inputBytes s)) { s with pvsdeg := pvsDegrades s })) := by
  simp [execDecrypt, h]

theorem execEncrypt_error (o : Bool) (s : State) (e : CmdError) (h : checkBuffer .enc o s = some e) :
    execEncrypt o s = .next (errorState e s) := by
  simp [execEncrypt, h]

theorem execDecrypt_error (o : Bool) (s : State) (e : CmdError) (h : checkBuffer .dec o s = some e) :
    execDecrypt o s = .next (errorState e s) := by
  simp [execDecrypt, h]

/-- The IV assignment of a CBC ENCRYPT writes the IV and its flag and nothing else (R256). -/
theorem assignMissingIv_frame (s : State) :
    assignMissingIv s = { s with iv := (assignMissingIv s).iv, ivValid := (assignMissingIv s).ivValid } := by
  unfold assignMissingIv
  split <;> rfl

/-- With an IV, or outside CBC, nothing is assigned (R256). -/
theorem assignMissingIv_of_not (s : State) (h : ¬ (s.mode = .cbc ∧ s.ivValid = false)) : assignMissingIv s = s := by
  unfold assignMissingIv
  rw [if_neg (by simpa using h)]

theorem assignMissingIv_of (s : State) (h : s.mode = .cbc) (h' : s.ivValid = false) :
    assignMissingIv s = { s with iv := ivGen s, ivValid := true } := by
  simp [assignMissingIv, h, h']

/-- Every command ends, in success or in an error: `exec` never faults or refuses, an error leaves the state of R295, and a
success ends in `completed` of a state whose sequencer, parameters and host fields are those of the state before (R54, R296). -/
theorem exec_ends (i : Instr) (s : State) :
    (∃ e, exec i s = .next (errorState e s)) ∨
    (∃ u, exec i s = .next (completed u) ∧ u.cmd = s.cmd ∧ u.drop = s.drop ∧ u.params = s.params ∧ u.accepts = s.accepts ∧
      u.moves = s.moves ∧ u.hostLog = s.hostLog) := by
  cases i with
  | nop | gfmul | sbox | invsbox | subbytes | invsubbytes | shiftrows | invshiftrows | mixcolumns | invmixcolumns | zeroize =>
    exact .inr ⟨_, rfl, rfl, rfl, rfl, rfl, rfl, rfl⟩
  | setkey =>
    simp only [exec, execSetkey]
    split
    · split
      · exact .inl ⟨_, rfl⟩
      · exact .inr ⟨_, rfl, rfl, rfl, rfl, rfl, rfl, rfl⟩
    · exact .inl ⟨_, rfl⟩
  | expand =>
    simp only [exec, execExpand]
    split
    · exact .inr ⟨_, rfl, rfl, rfl, rfl, rfl, rfl, rfl⟩
    · exact .inl ⟨_, rfl⟩
  | encblk =>
    simp only [exec, execEncblk]
    split
    · exact .inr ⟨_, rfl, rfl, rfl, rfl, rfl, rfl, rfl⟩
    · exact .inl ⟨_, rfl⟩
  | decblk =>
    simp only [exec, execDecblk]
    split
    · exact .inr ⟨_, rfl, rfl, rfl, rfl, rfl, rfl, rfl⟩
    · exact .inl ⟨_, rfl⟩
  | setiv =>
    simp only [exec, execSetiv]
    split
    · split
      · exact .inl ⟨_, rfl⟩
      · exact .inr ⟨_, rfl, rfl, rfl, rfl, rfl, rfl, rfl⟩
    · exact .inl ⟨_, rfl⟩
  | geniv =>
    simp only [exec, execGeniv]
    split
    · split
      · exact .inl ⟨_, rfl⟩
      · exact .inr ⟨_, rfl, rfl, rfl, rfl, rfl, rfl, rfl⟩
    · exact .inl ⟨_, rfl⟩
  | addrk r =>
    simp only [exec, execAddrk]
    split
    · split
      · exact .inr ⟨_, rfl, rfl, rfl, rfl, rfl, rfl, rfl⟩
      · exact .inl ⟨_, rfl⟩
    · exact .inl ⟨_, rfl⟩
  | encrypt o =>
    simp only [exec]
    cases h : checkBuffer .enc o s with
    | some e => exact .inl ⟨e, execEncrypt_error o s e h⟩
    | none =>
      refine .inr ⟨_, execEncrypt_ok o s h, ?_⟩
      rw [writeOutput_frame]
      simp only
      rw [assignMissingIv_frame]
      simp
  | decrypt o =>
    simp only [exec]
    cases h : checkBuffer .dec o s with
    | some e => exact .inl ⟨e, execDecrypt_error o s e h⟩
    | none =>
      refine .inr ⟨_, execDecrypt_ok o s h, ?_⟩
      rw [writeOutput_frame]
      simp

end Sys2Proof.Machine
end

