-- ==== Sys2Proof/Laws/Decode.lean ====
section
/-! SUPPORT. The fields of a command word put together by the encoder, and when a word decodes to a command. -/

namespace Sys2Proof

/-- Each bit of a command word (R110). -/
theorem commandWord_getLsbD (opc a b : Byte) (o : Bool) (i : Nat) :
    (commandWord opc a b o).getLsbD i =
      if i < 8 then opc.getLsbD i else if i < 16 then a.getLsbD (i - 8) else if i < 24 then b.getLsbD (i - 16)
      else decide (i = 24) && o := by
  change BitVec.getLsbD (w := 7 + 1 + 8 + 8 + 8) (0#7 ++ BitVec.ofBool o ++ b ++ a ++ opc) i = _
  simp only [BitVec.getLsbD_append, BitVec.getLsbD_ofBool]
  rcases Nat.lt_or_ge i 8 with h | h
  · simp [h]
  · rcases Nat.lt_or_ge i 16 with h1 | h1
    · simp [show ¬ i < 8 by omega, h1, show i - 8 < 8 by omega]
    · rcases Nat.lt_or_ge i 24 with h2 | h2
      · simp [show ¬ i < 8 by omega, show ¬ i < 16 by omega, h2, show ¬ i - 8 < 8 by omega,
          show i - 8 - 8 = i - 16 by omega, show i - 16 < 8 by omega]
      · by_cases h3 : i = 24
        · subst h3; simp
        · simp [show ¬ i < 8 by omega, show ¬ i < 16 by omega, show ¬ i < 24 by omega, show ¬ i - 8 < 8 by omega,
            show ¬ i - 8 - 8 < 8 by omega, h3, show ¬ i - 8 - 8 - 8 < 1 by omega]

@[simp] theorem opcField_commandWord (opc a b : Byte) (o : Bool) : opcField (commandWord opc a b o) = opc := by
  apply BitVec.eq_of_getLsbD_eq
  intro i hi
  simp [opcField, commandWord_getLsbD, hi]

@[simp] theorem aField_commandWord (opc a b : Byte) (o : Bool) : aField (commandWord opc a b o) = a := by
  apply BitVec.eq_of_getLsbD_eq
  intro i hi
  simp [aField, commandWord_getLsbD, hi, show 8 + i < 16 by omega]

@[simp] theorem bField_commandWord (opc a b : Byte) (o : Bool) : bField (commandWord opc a b o) = b := by
  apply BitVec.eq_of_getLsbD_eq
  intro i hi
  simp [bField, commandWord_getLsbD, hi, show ¬ 16 + i < 8 by omega, show 16 + i < 24 by omega]

@[simp] theorem outselField_commandWord (opc a b : Byte) (o : Bool) : outselField (commandWord opc a b o) = o := by
  simp only [outselField, commandWord_getLsbD]
  simp

@[simp] theorem rsvField_commandWord (opc a b : Byte) (o : Bool) : rsvField (commandWord opc a b o) = 0 := by
  apply BitVec.eq_of_getLsbD_eq
  intro i hi
  simp [rsvField, commandWord_getLsbD, show ¬ 25 + i < 8 by omega, show ¬ 25 + i < 16 by omega, show ¬ 25 + i < 24 by omega,
    show ¬ 25 + i = 24 by omega]

/-- A word with RSV = 0 is its fields put together (R110). -/
theorem commandWord_fields (w : Word) (h : rsvField w = 0) :
    commandWord (opcField w) (aField w) (bField w) (outselField w) = w := by
  apply BitVec.eq_of_getLsbD_eq
  intro i hi
  rw [commandWord_getLsbD]
  split
  · next h1 => simp [opcField, h1]
  · split
    · simp [aField, show i - 8 < 8 by omega, show 8 + (i - 8) = i by omega]
    · split
      · simp [bField, show i - 16 < 8 by omega, show 16 + (i - 16) = i by omega]
      · by_cases h2 : i = 24
        · subst h2; simp [outselField]
        · have := congrArg (fun v => v.getLsbD (i - 25)) h
          simp [rsvField, show i - 25 < 7 by omega, show 25 + (i - 25) = i by omega] at this
          simp [h2, this]

/-- A command word, field by field: the fields and RSV = 0 determine it (R110). -/
theorem eq_commandWord_iff (w : Word) (opc a b : Byte) (o : Bool) :
    w = commandWord opc a b o ↔ opcField w = opc ∧ aField w = a ∧ bField w = b ∧ outselField w = o ∧ rsvField w = 0 := by
  constructor
  · rintro rfl; simp
  · rintro ⟨rfl, rfl, rfl, rfl, h⟩; exact (commandWord_fields w h).symm

/-- The word with OPC alone (R110). -/
theorem commandWord_opc (opc : Byte) : commandWord opc 0 0 false = opc.zeroExtend 32 := by
  apply BitVec.eq_of_getLsbD_eq
  intro i hi
  rw [commandWord_getLsbD]
  by_cases h : i < 8
  · simp [h, hi]
  · simp [h, hi, BitVec.getLsbD_of_ge opc i (by omega)]

/-- Decoding a word whose RSV is zero is the case split of R117 on its fields. -/
theorem decode_commandWord (opc a b : Byte) (o : Bool) : decode (commandWord opc a b o) = decodeFields opc a b o := by
  simp [decode]

/-- What `needs` answers (R113). -/
theorem needs_eq_ok (c : Bool) (i j : Instr) : needs c i = .ok j ↔ c = true ∧ i = j := by
  cases c <;> simp [needs]

/-- The word a command decodes from is the command's word (R117). -/
theorem decode_eq_ok {w : Word} {i : Instr} (h : decode w = .ok i) : rsvField w = 0 ∧
    decodeFields (opcField w) (aField w) (bField w) (outselField w) = .ok i := by
  simp only [decode] at h
  split at h
  · simp at h
  · next h' => exact ⟨by simpa using h', h⟩

/-- One case of the split of R117. -/
theorem decode_case {c : Prop} [Decidable c] {x y z : Except DecodeError Instr} (h : (if c then x else y) = z) :
    (c ∧ x = z) ∨ y = z := by
  by_cases hc : c
  · rw [if_pos hc] at h; exact .inl ⟨hc, h⟩
  · rw [if_neg hc] at h; exact .inr h

/-- R117, opcode by opcode: the command's own fields, and every other field zero. -/
theorem decodeFields_eq_ok {opc a b : Byte} {o : Bool} {i : Instr} (h : decodeFields opc a b o = .ok i) :
    commandWord opc a b o = encode i := by
  unfold decodeFields at h
  iterate 20
    (rcases decode_case h with ⟨rfl, hk⟩ | h
     · rw [needs_eq_ok] at hk
       simp only [Bool.and_eq_true, beq_iff_eq, Bool.not_eq_true'] at hk
       obtain ⟨h1, rfl⟩ := hk
       obtain ⟨⟨rfl, rfl⟩, rfl⟩ := h1
       rfl)
  cases h

/-- A word is its fields (R110). -/
theorem word_ext_fields {v w : Word} (h1 : opcField v = opcField w) (h2 : aField v = aField w) (h3 : bField v = bField w)
    (h4 : outselField v = outselField w) (h5 : rsvField v = rsvField w) : v = w := by
  apply BitVec.eq_of_getLsbD_eq
  intro i hi
  by_cases a1 : i < 8
  · have := congrArg (fun x => x.getLsbD i) h1
    simpa [opcField, a1] using this
  by_cases a2 : i < 16
  · have := congrArg (fun x => x.getLsbD (i - 8)) h2
    simpa [aField, show i - 8 < 8 by omega, show 8 + (i - 8) = i by omega] using this
  by_cases a3 : i < 24
  · have := congrArg (fun x => x.getLsbD (i - 16)) h3
    simpa [bField, show i - 16 < 8 by omega, show 16 + (i - 16) = i by omega] using this
  by_cases a4 : i = 24
  · subst a4; exact h4
  · have := congrArg (fun x => x.getLsbD (i - 25)) h5
    simpa [rsvField, show i - 25 < 7 by omega, show 25 + (i - 25) = i by omega] using this

/-- A row of R118 selects a word field by field. -/
theorem selects_iff (r : OpcodeRow) (w : Word) : r.selects w = true ↔
    opcField w &&& opcField r.mask = opcField r.pattern ∧ aField w &&& aField r.mask = aField r.pattern ∧
    bField w &&& bField r.mask = bField r.pattern ∧ (outselField w && outselField r.mask) = outselField r.pattern ∧
    rsvField w &&& rsvField r.mask = rsvField r.pattern := by
  have opc : opcField (w &&& r.mask) = opcField w &&& opcField r.mask := by simp [opcField, BitVec.extractLsb'_and]
  have a : aField (w &&& r.mask) = aField w &&& aField r.mask := by simp [aField, BitVec.extractLsb'_and]
  have b : bField (w &&& r.mask) = bField w &&& bField r.mask := by simp [bField, BitVec.extractLsb'_and]
  have o : outselField (w &&& r.mask) = (outselField w && outselField r.mask) := by simp [outselField]
  have rsv : rsvField (w &&& r.mask) = rsvField w &&& rsvField r.mask := by simp [rsvField, BitVec.extractLsb'_and]
  simp only [OpcodeRow.selects, beq_iff_eq]
  constructor
  · intro h; rw [← h, opc, a, b, o, rsv]; simp
  · rintro ⟨h1, h2, h3, h4, h5⟩
    exact word_ext_fields (opc ▸ h1) (a ▸ h2) (b ▸ h3) (o ▸ h4) (rsv ▸ h5)

end Sys2Proof
end

