-- ==== Sys2Proof/Laws/Host.lean ====
section
/-! SUPPORT. What the host's register and DMEM accesses do. -/

namespace Sys2Proof.Machine

/-! ### The register map (R32) -/

/-- Each register is found at its offset. -/
@[simp] theorem regAt_regOffset (r : RegName) : regAt (regOffset r) = some r := by
  cases r with
  | cmd | status | cfg | size | src | dst | piaddr | pilen | tseed | result | kinfo => rfl
  | keyin j => revert j; decide +kernel
  | ivin j => revert j; decide +kernel
  | block j => revert j; decide +kernel
  | iv j => revert j; decide +kernel
  | key j => revert j; decide +kernel
  | ks j => revert j; decide +kernel

/-- An aligned offset names a register only at the register's own offset. -/
theorem regOffset_of_regAt {offset : Nat} {r : RegName} (ha : offset % 4 = 0) (h : regAt offset = some r) :
    regOffset r = offset := by
  have hlt : offset < 0x200 := by
    by_contra hge
    simp only [regAt, within] at h
    simp (disch := omega) only [if_neg, reduceCtorEq, Bool.and_eq_true, decide_eq_true_eq] at h
  have all : ∀ o : Fin 0x200, o.val % 4 = 0 → ∀ r, regAt o.val = some r → regOffset r = o.val := by decide +kernel
  exact all ⟨offset, hlt⟩ ha r h

theorem regOffset_injective {r r' : RegName} (h : regOffset r = regOffset r') : r = r' := by
  have := congrArg regAt h
  simpa using this

/-! ### Register accesses (R31, R33, R57, R58) -/

/-- A register read changes nothing but the count of draws. -/
theorem readReg_frame (offset : Nat) (s : State) : (readReg offset s).2 = { s with draws := (readReg offset s).2.draws } := by
  unfold readReg
  split
  · rfl
  · split <;> rfl

/-- While idle a register read takes no draw. -/
theorem readReg_idle (offset : Nat) (s : State) (h : s.busy = false) : (readReg offset s).2 = s := by
  unfold readReg
  split
  · rfl
  · simp [h]

/-- While BUSY, a CMD write sets DROP and any other write is ignored. -/
theorem writeReg_busy (offset : Nat) (v : Word) (s : State) (h : s.busy = true) :
    writeReg offset v s = if regAt offset = some .cmd then { s with drop := true } else s := by
  unfold writeReg
  split
  · next h' => simp [h']
  · next h' => simp [h, h']
  · next r h' h'' =>
    have : ¬ regAt offset = some .cmd := by rw [h'']; simpa using h'
    simp [h, this]

/-- While idle, a CMD write accepts the word. -/
theorem writeReg_cmd_idle (offset : Nat) (v : Word) (s : State) (h : s.busy = false) (h' : regAt offset = some .cmd) :
    writeReg offset v s = accept v s := by
  simp [writeReg, h, h']

/-- A stored register leaves the sequencer, STATUS, key material, DMEM and the model's own fields as they were. -/
theorem storeReg_frame (r : RegName) (v : Word) (s : State) :
    storeReg r v s = { s with cfgKeyBits := (storeReg r v s).cfgKeyBits, cfgMode := (storeReg r v s).cfgMode,
                              size := (storeReg r v s).size, src := (storeReg r v s).src, dst := (storeReg r v s).dst,
                              piaddr := (storeReg r v s).piaddr, pilen := (storeReg r v s).pilen,
                              tseed := (storeReg r v s).tseed, keyin := (storeReg r v s).keyin,
                              ivin := (storeReg r v s).ivin, blk := (storeReg r v s).blk } := by
  cases s
  cases r <;> simp only [storeReg]

/-- While idle, a write to a register other than CMD stores it, and a write to a reserved offset is ignored. -/
theorem writeReg_idle (offset : Nat) (v : Word) (s : State) (h : s.busy = false) (h' : regAt offset ≠ some .cmd) :
    writeReg offset v s = match regAt offset with | none => s | some r => storeReg r v s := by
  unfold writeReg
  split
  · next h1 => simp [h1]
  · next h1 => exact absurd h1 h'
  · next r h1 h2 => simp [h, h2]

/-! ### Ranges of a running command (R98) -/

/-- What a running buffer command's ranges are made of. -/
theorem runningBuffer_congr {s t : State} (hb : t.busy = s.busy) (hc : t.cmd = s.cmd) : runningBuffer t = runningBuffer s := by
  simp [runningBuffer, hb, hc]

theorem runningBuffer_busy {s : State} {o : Bool} (h : runningBuffer s = some o) : s.busy = true := by
  unfold runningBuffer at h
  split at h
  · assumption
  · simp at h

/-- Which ENCRYPT or DECRYPT is running (R98). -/
theorem runningBuffer_eq_some {s : State} {o : Bool} :
    runningBuffer s = some o ↔ s.busy = true ∧ (decode s.cmd = .ok (.encrypt o) ∨ decode s.cmd = .ok (.decrypt o)) := by
  unfold runningBuffer
  split
  · next h => split <;> cases o <;> simp_all
  · next h => simp [h]

/-- With no ENCRYPT or DECRYPT running, no address lies in a running command's range. -/
theorem inOutputRange_of_none {s : State} (a : Nat) (h : runningBuffer s = none) : inOutputRange s a = false := by
  simp [inOutputRange, h]

theorem inRunningRanges_of_none {s : State} (a : Nat) (h : runningBuffer s = none) : inRunningRanges s a = false := by
  simp [inRunningRanges, h]

@[simp] theorem inRunningRanges_idle (s : State) (a : Nat) (h : s.busy = false) : inRunningRanges s a = false := by
  simp [inRunningRanges, runningBuffer, h]

@[simp] theorem inOutputRange_idle (s : State) (a : Nat) (h : s.busy = false) : inOutputRange s a = false := by
  simp [inOutputRange, runningBuffer, h]

/-- The output range is one of the running command's ranges. -/
theorem inRunningRanges_of_inOutputRange {s : State} {a : Nat} (h : inOutputRange s a = true) : inRunningRanges s a = true := by
  unfold inOutputRange at h
  unfold inRunningRanges
  split at h
  · next o h' => simp [h]
  · simp at h

/-! ### DMEM accesses of the host (R87, R98) -/

/-- A host write of bytes changes DMEM and the race flag, and nothing else. -/
theorem hostWriteBytes_frame (a : Nat) (bs : List Byte) (s : State) :
    hostWriteBytes a bs s = { s with dmem := (hostWriteBytes a bs s).dmem, raced := (hostWriteBytes a bs s).raced } := by
  induction bs generalizing a s with
  | nil => rfl
  | cons b bs ih => rw [hostWriteBytes, ih]; rfl

theorem hostWriteBytes_dmem (a : Nat) (bs : List Byte) (s : State) :
    (hostWriteBytes a bs s).dmem = s.dmem.writeBytes a bs := by
  induction bs generalizing a s with
  | nil => rfl
  | cons b bs ih => rw [hostWriteBytes, ih]; rfl

/-- A host write races exactly when one of its bytes lies in the running command's ranges (R98). -/
theorem hostWriteBytes_raced (a : Nat) (bs : List Byte) (s : State) :
    (hostWriteBytes a bs s).raced = true ↔ s.raced = true ∨ ∃ x, a ≤ x ∧ x < a + bs.length ∧ inRunningRanges s x = true := by
  induction bs generalizing a s with
  | nil => simp [hostWriteBytes]; intro x h1 h2; omega
  | cons b bs ih =>
    simp only [hostWriteBytes, ih, hostWriteByte, Bool.or_eq_true, List.length_cons]
    constructor
    · rintro ((h | h) | ⟨x, h1, h2, h3⟩)
      · exact .inl h
      · exact .inr ⟨a, by omega, by omega, h⟩
      · exact .inr ⟨x, by omega, by omega, h3⟩
    · rintro (h | ⟨x, h1, h2, h3⟩)
      · exact .inl (.inl h)
      · by_cases hx : x = a
        · exact .inl (.inr (hx ▸ h3))
        · exact .inr ⟨x, by omega, by omega, h3⟩

/-- A host read of bytes changes nothing but the count of draws. -/
theorem hostReadBytes_frame (a n : Nat) (s : State) :
    (hostReadBytes a n s).2 = { s with draws := (hostReadBytes a n s).2.draws } := by
  induction n generalizing a s with
  | zero => rfl
  | succ n ih =>
    rw [hostReadBytes]
    simp only
    rw [ih]
    unfold hostReadByte
    split <;> rfl

@[simp] theorem inOutputRange_draws (s : State) (d a : Nat) : inOutputRange { s with draws := d } a = inOutputRange s a := rfl

@[simp] theorem hostReadBytes_length (a n : Nat) (s : State) : (hostReadBytes a n s).1.length = n := by
  induction n generalizing a s with
  | zero => rfl
  | succ n ih => simp [hostReadBytes, ih]

/-- A host read of one byte takes a draw in the output range of a running command, and none elsewhere. -/
theorem hostReadByte_state (a : Nat) (s : State) :
    (hostReadByte a s).2 = { s with draws := s.draws + if inOutputRange s a then 1 else 0 } := by
  unfold hostReadByte
  split <;> simp_all

/-- Byte j of a host read, and the draws it takes: one for each byte in the output range of a running command (R98). -/
theorem hostReadBytes_eq (a n : Nat) (s : State) :
    hostReadBytes a n s =
      ((List.range n).map (fun j =>
        if inOutputRange s (a + j) then Config.freeByte (s.draws + (List.range j).countP fun i => inOutputRange s (a + i))
        else s.dmem.byteAt (a + j)),
       { s with draws := s.draws + (List.range n).countP fun i => inOutputRange s (a + i) }) := by
  induction n generalizing a s with
  | zero => rfl
  | succ n ih =>
    rw [hostReadBytes]
    simp only [ih, hostReadByte_state, inOutputRange_draws, List.range_succ_eq_map, List.map_cons, List.map_map,
      List.countP_cons, List.countP_map, Function.comp_def, Nat.add_zero, List.countP_nil, List.range_zero]
    have shift (i : Nat) : a + 1 + i = a + i.succ := by omega
    have first : (hostReadByte a s).1 = if inOutputRange s a then Config.freeByte s.draws else s.dmem.byteAt a := by
      unfold hostReadByte; split <;> rfl
    have move (c e : Nat) : s.draws + e + c = s.draws + (c + e) := by omega
    simp only [shift, first, move]

/-- While idle a host read returns DMEM's bytes and changes nothing. -/
theorem hostReadBytes_idle (a n : Nat) (s : State) (h : s.busy = false) : hostReadBytes a n s = (s.dmem.readBytes a n, s) := by
  induction n generalizing a with
  | zero => rfl
  | succ n ih =>
    rw [hostReadBytes]
    simp only [hostReadByte, h, inOutputRange_idle, Bool.false_eq_true, if_false, ih]
    simp only [Memory.readBytes, List.range_succ_eq_map, List.map_cons, List.map_map, Nat.add_zero, Prod.mk.injEq, and_true,
      List.cons.injEq, true_and]
    apply List.map_congr_left
    intro i _
    simp only [Function.comp]
    congr 1
    omega

/-- A power of two's own logarithm gives it back: the widths that have a natural alignment (R87). -/
theorem alignedAccess_pow (addr k : Nat) : alignedAccess addr (2 ^ k) = decide (addr % 2 ^ k = 0) := by
  simp [alignedAccess, Nat.log2_two_pow]

/-! ### A served host move, by its kind -/

/-- An aligned word read inside the register space is `readReg`, recorded. -/
theorem hostMove_regRead (offset : Nat) (s : State) (h : offset < 0x200) (ha : offset % 4 = 0) :
    hostMove (.regRead offset 4) s = .next (logRead (.reg offset (readReg offset s).1) (readReg offset s).2) := by
  simp [hostMove, wordAccess, ha, Nat.not_le.mpr h]

/-- An aligned word write inside the register space is `writeReg`. -/
theorem hostMove_regWrite (offset : Nat) (v : Word) (s : State) (h : offset < 0x200) (ha : offset % 4 = 0) :
    hostMove (.regWrite offset 4 v) s = .next (writeReg offset v s) := by
  simp [hostMove, wordAccess, ha, Nat.not_le.mpr h]

/-- A naturally aligned read inside DMEM is `hostReadBytes`, recorded. -/
theorem hostMove_dmemRead (addr k : Nat) (s : State) (ha : addr % 2 ^ k = 0) (h : addr + 2 ^ k ≤ s.params.dmemSize) :
    hostMove (.dmemRead addr (2 ^ k)) s =
      .next (logRead (.dmem addr (2 ^ k) (leNat (hostReadBytes addr (2 ^ k) s).1)) (hostReadBytes addr (2 ^ k) s).2) := by
  simp [hostMove, alignedAccess_pow, ha, h]

/-- A naturally aligned write inside DMEM is `hostWriteBytes`. -/
theorem hostMove_dmemWrite (addr k value : Nat) (s : State) (ha : addr % 2 ^ k = 0) (h : addr + 2 ^ k ≤ s.params.dmemSize) :
    hostMove (.dmemWrite addr (2 ^ k) value) s = .next (hostWriteBytes addr (leBytes (2 ^ k) value) s) := by
  simp [hostMove, alignedAccess_pow, ha, h]

/-- Reset's DMEM keeps every byte outside the output range of a command in flight (R321). -/
theorem resetDmem_outside (s : State) (a : Nat) (h : inOutputRange s a = false ∨ s.params.dmemSize ≤ a) :
    (resetDmem s).1.byteAt a = s.dmem.byteAt a := by
  unfold resetDmem
  split
  · next o h' =>
    simp only [Memory.byteAt_writeBytes, freeBytes_length]
    rw [if_neg]
    rintro ⟨h1, h2⟩
    rcases h with h | h
    · simp [inOutputRange, h', within] at h; omega
    · omega
  · rfl

end Sys2Proof.Machine
end

