-- ==== Sys2Proof/Laws/KeyExpansion.lean ====
section
/-! SUPPORT. The words of a key schedule: how many there are, the first Nk of them, and the recurrence of the others (R174, R177). -/

namespace Sys2Proof.Machine

theorem expandLoop_length (nk n i : Nat) (ws : List KeyWord) : (expandLoop nk n i ws).length = ws.length + n := by
  induction n generalizing i ws with
  | zero => rfl
  | succ n ih => rw [expandLoop, ih]; simp; omega

/-- `4 (Nk + 7)` words (R172, R177). -/
theorem expandWords_length (key : List Byte) (nk : Nat) : (expandWords key nk).length = 4 * (nk + 7) := by
  rw [expandWords, expandLoop_length]
  simp; omega

/-- Words already computed stay. -/
theorem wordAt_expandLoop_old (nk n i : Nat) (ws : List KeyWord) (j : Nat) (h : j < ws.length) :
    wordAt (expandLoop nk n i ws) j = wordAt ws j := by
  induction n generalizing i ws with
  | zero => rfl
  | succ n ih =>
    rw [expandLoop, ih _ _ (by simp; omega), wordAt, wordAt]
    simp [List.getD_eq_getElem?_getD, List.getElem?_append_left h]

/-- The next word depends on the words at indices below it alone. -/
theorem nextWord_congr (nk i : Nat) (ws ws' : List KeyWord) (hn : 1 ≤ nk) (hi : nk ≤ i)
    (h : ∀ j, j < i → wordAt ws j = wordAt ws' j) : nextWord nk i ws = nextWord nk i ws' := by
  simp only [nextWord, h (i - 1) (by omega), h (i - nk) (by omega)]

/-- A word the loop computes follows the loop body of R174. -/
theorem wordAt_expandLoop_new (nk n : Nat) (ws : List KeyWord) (hn : 1 ≤ nk) (hw : nk ≤ ws.length) (j : Nat)
    (h : ws.length ≤ j) (h' : j < ws.length + n) :
    wordAt (expandLoop nk n ws.length ws) j = nextWord nk j (expandLoop nk n ws.length ws) := by
  induction n generalizing ws with
  | zero => omega
  | succ n ih =>
    have hl : (ws ++ [nextWord nk ws.length ws]).length = ws.length + 1 := by simp
    rw [expandLoop, ← hl]
    by_cases hj : j = ws.length
    · subst hj
      rw [wordAt_expandLoop_old _ _ _ _ _ (by omega)]
      have e : wordAt (ws ++ [nextWord nk ws.length ws]) ws.length = nextWord nk ws.length ws := by simp [wordAt]
      rw [e]
      apply nextWord_congr nk _ _ _ hn hw
      intro k hk
      rw [wordAt_expandLoop_old _ _ _ _ _ (by omega), wordAt, wordAt]
      simp [List.getD_eq_getElem?_getD, List.getElem?_append_left hk]
    · exact ih _ (by omega) (by omega) (by omega)

/-- The first Nk words are the key's (R174, R177). -/
theorem wordAt_expandWords_key (key : List Byte) (nk i : Nat) (h : i < nk) : wordAt (expandWords key nk) i = keyWordAt key i := by
  rw [expandWords, wordAt_expandLoop_old _ _ _ _ _ (by simpa using h)]
  simp [wordAt, h]

/-- Every later word follows the loop body of R174. -/
theorem wordAt_expandWords_next (key : List Byte) (nk i : Nat) (hn : 1 ≤ nk) (h : nk ≤ i) (h' : i < 4 * (nk + 7)) :
    wordAt (expandWords key nk) i = nextWord nk i (expandWords key nk) := by
  have := wordAt_expandLoop_new nk (4 * (nk + 7) - nk) ((List.range nk).map (keyWordAt key)) hn (by simp) i
    (by simpa using h) (by simp; omega)
  simpa only [List.length_map, List.length_range, expandWords] using this

/-- The loop body of R174, byte by byte: RotWord takes the byte after, SubWord looks it up, Rcon enters byte 0 (R173 to R176). -/
theorem nextWord_getElem (nk i : Nat) (ws : List KeyWord) (m : Nat) (hm : m < 4) :
    (nextWord nk i ws)[m] = (wordAt ws (i - nk))[m] ^^^
      (if i % nk = 0 then
        sbox ((wordAt ws (i - 1))[(m + 1) % 4]'(Nat.mod_lt _ (by decide))) ^^^ (if m = 0 then rconByte (i / nk - 1) else 0)
      else if 6 < nk ∧ i % nk = 4 then sbox (wordAt ws (i - 1))[m]
      else (wordAt ws (i - 1))[m]) := by
  generalize hp : wordAt ws (i - 1) = p
  simp only [nextWord, hp]
  by_cases h1 : i % nk = 0
  · simp only [h1, if_true]
    match m, hm with
    | 0, _ => simp [xorWord, subWord, rotWord, rcon]
    | 1, _ => simp [xorWord, subWord, rotWord, rcon]
    | 2, _ => simp [xorWord, subWord, rotWord, rcon]
    | 3, _ => simp [xorWord, subWord, rotWord, rcon]
  · by_cases h2 : 6 < nk ∧ i % nk = 4
    · simp [h2, xorWord, subWord]
    · simp [h1, h2, xorWord]

theorem flatMap_words_length (ws : List KeyWord) : (ws.flatMap Vector.toList).length = 4 * ws.length := by
  induction ws with
  | nil => rfl
  | cons w ws ih => simp [List.flatMap_cons, ih]; omega

theorem flatMap_words_getD (ws : List KeyWord) (i m : Nat) (hm : m < 4) :
    (ws.flatMap Vector.toList).getD (4 * i + m) 0 = (wordAt ws i)[m] := by
  induction ws generalizing i with
  | nil => simp [wordAt]
  | cons w ws ih =>
    simp only [List.flatMap_cons]
    cases i with
    | zero => simp [wordAt, List.getD_eq_getElem?_getD, List.getElem?_append, hm]
    | succ i =>
      have := ih i
      simp only [List.getD_eq_getElem?_getD] at this ⊢
      rw [List.getElem?_append_right (by simp; omega)]
      simpa [wordAt, show 4 * (i + 1) + m - 4 = 4 * i + m by omega] using this

/-- `16 (Nr + 1)` bytes, where Nr = Nk + 6 (R172, R177). -/
theorem expand_length (key : List Byte) (nk : Nat) : (expand key nk).length = 16 * (nk + 7) := by
  rw [expand, flatMap_words_length, expandWords_length]; omega

/-- Byte m of word i of the schedule stands at byte 4i + m (R174). -/
theorem expand_getD (key : List Byte) (nk i m : Nat) (hm : m < 4) :
    (expand key nk).getD (4 * i + m) 0 = (wordAt (expandWords key nk) i)[m] := flatMap_words_getD _ i m hm

end Sys2Proof.Machine
end

