-- ==== Sys2Proof/Laws/ModeController.lean ====
section
/-! SUPPORT. The buffer functions of the mode controller: they keep the length, and block by block and on the tail window the
inverse direction undoes the forward one. -/

namespace Sys2Proof.Machine

@[simp] theorem onBytes_length (f : Block → Block) (l : List Byte) : (onBytes f l).length = 16 := by simp [onBytes]

/-- On 16 bytes, a block function undoes the one it is the inverse of. -/
theorem onBytes_onBytes (d e : Block → Block) (h : ∀ b, d (e b) = b) (l : List Byte) (hl : l.length = 16) :
    onBytes d (onBytes e l) = l := by
  simp [onBytes, h, toList_blockOf l hl]

/-! ### Full blocks (R244, R245, R247) -/

theorem mapBlocks_length (f : Block → Block) (q : Nat) (buf : List Byte) (h : 16 * q ≤ buf.length) :
    (mapBlocks f q buf).length = buf.length := by
  induction q generalizing buf with
  | zero => rfl
  | succ q ih =>
    have := ih (buf.drop 16) (by simp; omega)
    simp only [mapBlocks, List.length_append, onBytes_length, this, List.length_drop]
    omega

theorem mapBlocks_mapBlocks (d e : Block → Block) (h : ∀ b, d (e b) = b) (q : Nat) (buf : List Byte)
    (hl : 16 * q ≤ buf.length) : mapBlocks d q (mapBlocks e q buf) = buf := by
  induction q generalizing buf with
  | zero => rfl
  | succ q ih =>
    have h16 : (buf.take 16).length = 16 := by simp; omega
    simp only [mapBlocks]
    rw [List.take_left' (onBytes_length e _), List.drop_left' (onBytes_length e _), onBytes_onBytes d e h _ h16,
      ih (buf.drop 16) (by simp; omega), List.take_append_drop]

/-- A byte past the full blocks stays. -/
theorem mapBlocks_drop (f : Block → Block) (q : Nat) (buf : List Byte) (h : 16 * q ≤ buf.length) :
    (mapBlocks f q buf).drop (16 * q) = buf.drop (16 * q) := by
  induction q generalizing buf with
  | zero => rfl
  | succ q ih =>
    simp only [mapBlocks]
    rw [show 16 * (q + 1) = 16 + 16 * q by omega, ← List.drop_drop, List.drop_left' (onBytes_length f _),
      ih (buf.drop 16) (by simp; omega), List.drop_drop]

/-- Full block i of the output is the block function of full block i of the input (R245, R247). -/
theorem mapBlocks_block (f : Block → Block) (q : Nat) (buf : List Byte) (h : 16 * q ≤ buf.length) (i : Nat) (hi : i < q) :
    ((mapBlocks f q buf).drop (16 * i)).take 16 = onBytes f ((buf.drop (16 * i)).take 16) := by
  induction q generalizing buf i with
  | zero => omega
  | succ q ih =>
    simp only [mapBlocks]
    cases i with
    | zero => simp [List.take_left' (onBytes_length f _)]
    | succ i =>
      rw [show 16 * (i + 1) = 16 + 16 * i by omega, ← List.drop_drop, List.drop_left' (onBytes_length f _),
        ih (buf.drop 16) (by simp; omega) i (by omega), List.drop_drop]

/-! ### The tail window (R244, R246) -/

theorem mapTail_length (f : Block → Block) (buf : List Byte) (h : 16 ≤ buf.length) : (mapTail f buf).length = buf.length := by
  simp [mapTail]; omega

theorem mapTail_mapTail (d e : Block → Block) (h : ∀ b, d (e b) = b) (buf : List Byte) (hl : 16 ≤ buf.length) :
    mapTail d (mapTail e buf) = buf := by
  have h1 : (buf.take (buf.length - 16)).length = buf.length - 16 := by simp
  have h2 : (buf.drop (buf.length - 16)).length = 16 := by simp; omega
  rw [mapTail, mapTail_length e buf hl]
  rw [mapTail, List.take_left' h1, List.drop_left' h1, onBytes_onBytes d e h _ h2, List.take_append_drop]

/-- The bytes before the tail window stay. -/
theorem mapTail_take (f : Block → Block) (buf : List Byte) (k : Nat) (h : k ≤ buf.length - 16) :
    (mapTail f buf).take k = buf.take k := by
  have h1 : k ≤ (buf.take (buf.length - 16)).length := by simp; omega
  rw [mapTail, List.take_append_of_le_length h1, List.take_take]
  congr 1; omega

/-- The tail window is the block function of the window before. -/
theorem mapTail_drop (f : Block → Block) (buf : List Byte) :
    (mapTail f buf).drop (buf.length - 16) = onBytes f (buf.drop (buf.length - 16)) := by
  rw [mapTail, List.drop_left' (by simp)]

/-! ### ECB -/

theorem ecbEnc_length (e : Block → Block) (buf : List Byte) (h : 16 ≤ buf.length) : (ecbEnc e buf).length = buf.length := by
  have hb := mapBlocks_length e (buf.length / 16) buf (by omega)
  unfold ecbEnc
  simp only
  split
  · exact hb
  · rw [mapTail_length _ _ (by omega), hb]

theorem ecbDec_length (d : Block → Block) (buf : List Byte) (h : 16 ≤ buf.length) : (ecbDec d buf).length = buf.length := by
  unfold ecbDec
  split
  · exact mapBlocks_length d _ buf (by omega)
  · rw [mapBlocks_length _ _ _ (by rw [mapTail_length d buf h]; omega), mapTail_length d buf h]

/-! ### CBC -/

theorem cbcEncBlocks_length (e : Block → Block) (q : Nat) (cv : Block) (buf : List Byte) (h : 16 * q ≤ buf.length) :
    (cbcEncBlocks e q cv buf).1.length = buf.length := by
  induction q generalizing cv buf with
  | zero => rfl
  | succ q ih =>
    simp only [cbcEncBlocks, List.length_append, Vector.length_toList]
    rw [ih _ (buf.drop 16) (by simp; omega)]
    simp; omega

/-- The block loop of CBC decryption undoes that of CBC encryption, for the same start of the chain (R250, R252). -/
theorem cbcDecBlocks_cbcEncBlocks (d e : Block → Block) (h : ∀ b, d (e b) = b) (q : Nat) (cv : Block) (buf : List Byte)
    (hl : 16 * q ≤ buf.length) : cbcDecBlocks d q cv (cbcEncBlocks e q cv buf).1 = buf := by
  induction q generalizing cv buf with
  | zero => rfl
  | succ q ih =>
    have h16 : (buf.take 16).length = 16 := by simp; omega
    simp only [cbcEncBlocks, cbcDecBlocks]
    rw [List.take_left' (by simp), List.drop_left' (by simp)]
    simp only [blockOf_toList, h, xorBlock_cancel, toList_blockOf _ h16]
    rw [ih _ (buf.drop 16) (by simp; omega), List.take_append_drop]

/-- The last ciphertext block stands in the buffer, before the bytes the loop did not reach (R250). -/
theorem cbcEncBlocks_last (e : Block → Block) (q : Nat) (cv : Block) (buf : List Byte) (h : 16 * (q + 1) ≤ buf.length) :
    ((cbcEncBlocks e (q + 1) cv buf).1.drop (16 * q)).take 16 = (cbcEncBlocks e (q + 1) cv buf).2.toList := by
  induction q generalizing cv buf with
  | zero => simp [cbcEncBlocks]
  | succ q ih =>
    rw [cbcEncBlocks]
    simp only
    rw [show 16 * (q + 1) = 16 + 16 * q by omega, ← List.drop_drop, List.drop_left' (by simp)]
    exact ih _ (buf.drop 16) (by simp; omega)

/-- The bytes past the full blocks stay in the block loop of CBC. -/
theorem cbcEncBlocks_drop (e : Block → Block) (q : Nat) (cv : Block) (buf : List Byte) (h : 16 * q ≤ buf.length) :
    (cbcEncBlocks e q cv buf).1.drop (16 * q) = buf.drop (16 * q) := by
  induction q generalizing cv buf with
  | zero => rfl
  | succ q ih =>
    simp only [cbcEncBlocks]
    rw [show 16 * (q + 1) = 16 + 16 * q by omega, ← List.drop_drop, List.drop_left' (by simp),
      ih _ (buf.drop 16) (by simp; omega), List.drop_drop]

theorem cbcWindow_length (policy : CbcTail) (f : Block → Block) (buf : List Byte) (h : 16 ≤ buf.length) :
    (cbcWindow policy f buf).length = buf.length := by
  cases policy
  · exact mapTail_length f buf h
  · rfl

theorem cbcWindow_cbcWindow (policy : CbcTail) (d e : Block → Block) (h : ∀ b, d (e b) = b) (buf : List Byte)
    (hl : 16 ≤ buf.length) : cbcWindow policy d (cbcWindow policy e buf) = buf := by
  cases policy
  · exact mapTail_mapTail d e h buf hl
  · rfl

theorem cbcEncTail_length (policy : CbcTail) (e : Block → Block) (q : Nat) (buf : List Byte) (cv : Block)
    (h : 16 ≤ buf.length) (hq : q = buf.length / 16) : (cbcEncTail policy e q buf cv).length = buf.length := by
  have hx : (buf.take (16 * q) ++ xorBytes (buf.drop (16 * q)) cv.toList).length = buf.length := by simp; omega
  rw [cbcEncTail, cbcWindow_length _ _ _ (by omega), hx]

theorem cbcEnc_length (policy : CbcTail) (e : Block → Block) (iv : Block) (buf : List Byte) (h : 16 ≤ buf.length) :
    (cbcEnc policy e iv buf).length = buf.length := by
  have hb := cbcEncBlocks_length e (buf.length / 16) iv buf (by omega)
  unfold cbcEnc
  simp only
  split
  · exact hb
  · rw [cbcEncTail_length _ _ _ _ _ (by omega) (by rw [hb]), hb]

theorem cbcDecBlocks_length (d : Block → Block) (q : Nat) (cv : Block) (buf : List Byte) (h : 16 * q ≤ buf.length) :
    (cbcDecBlocks d q cv buf).length = buf.length := by
  induction q generalizing cv buf with
  | zero => rfl
  | succ q ih =>
    simp only [cbcDecBlocks, List.length_append, Vector.length_toList]
    rw [ih _ (buf.drop 16) (by simp; omega)]
    simp; omega

theorem cbcDecTail_length (policy : CbcTail) (d : Block → Block) (q : Nat) (buf : List Byte) (h : 16 ≤ buf.length)
    (hq : q = buf.length / 16) : (cbcDecTail policy d q buf).length = buf.length := by
  have hb := cbcWindow_length policy d buf h
  simp only [cbcDecTail, List.length_append, List.length_take, xorBytes_length, List.length_drop, hb]
  omega

theorem cbcDec_length (policy : CbcTail) (d : Block → Block) (iv : Block) (buf : List Byte) (h : 16 ≤ buf.length) :
    (cbcDec policy d iv buf).length = buf.length := by
  unfold cbcDec
  split
  · exact cbcDecBlocks_length d _ iv buf (by omega)
  · rw [cbcDecBlocks_length _ _ _ _ (by rw [cbcDecTail_length policy d _ buf h rfl]; omega),
      cbcDecTail_length policy d _ buf h rfl]

/-- The tail of CBC decryption undoes the tail of CBC encryption, the full block before it being the last ciphertext block
(R251, R253, R255). -/
theorem cbcDecTail_cbcEncTail (policy : CbcTail) (d e : Block → Block) (h : ∀ b, d (e b) = b) (q : Nat) (buf : List Byte)
    (cv : Block) (hq : q + 1 = buf.length / 16) (hcv : (buf.drop (16 * q)).take 16 = cv.toList) :
    cbcDecTail policy d (q + 1) (cbcEncTail policy e (q + 1) buf cv) = buf := by
  have hx : (buf.take (16 * (q + 1)) ++ xorBytes (buf.drop (16 * (q + 1))) cv.toList).length = buf.length := by simp; omega
  have h1 : (buf.take (16 * (q + 1))).length = 16 * (q + 1) := by simp; omega
  rw [cbcEncTail, cbcDecTail, cbcWindow_cbcWindow policy d e h _ (by omega)]
  rw [List.take_left' h1, List.drop_left' h1, Nat.add_sub_cancel, List.drop_append_of_le_length (by omega), List.drop_take,
    show 16 * (q + 1) - 16 * q = 16 by omega, hcv]
  have h3 : xorBytes (xorBytes (buf.drop (16 * (q + 1))) cv.toList) (cv.toList ++ xorBytes (buf.drop (16 * (q + 1))) cv.toList) =
      xorBytes (xorBytes (buf.drop (16 * (q + 1))) cv.toList) cv.toList := by
    apply List.ext_getElem
    · simp
    · intro i hi1 hi2
      have : i < 16 := by simp at hi2; omega
      simp [xorBytes, this]
  rw [h3, xorBytes_cancel _ _ (by simp; omega), List.take_append_drop]

/-! ### PVS -/

@[simp] theorem pvsMask_length (k : Nat) (pi : List Byte) (w j : Nat) : (pvsMask k pi w j).length = 64 := by simp [pvsMask]

theorem pvsXorLoop_length (k : Nat) (pi : List Byte) (w m j : Nat) (buf : List Byte) (h : 64 * m ≤ buf.length) :
    (pvsXorLoop k pi w m j buf).length = buf.length := by
  induction m generalizing j buf with
  | zero => rfl
  | succ m ih =>
    simp only [pvsXorLoop, List.length_append, xorBytes_length, pvsMask_length]
    rw [ih (j + 1) (buf.drop 64) (by simp; omega)]
    simp; omega

theorem pvsXor_length (k : Nat) (pi : List Byte) (w : Nat) (buf : List Byte) : (pvsXor k pi w buf).length = buf.length :=
  pvsXorLoop_length k pi w _ 0 buf (by omega)

/-- The XOR loop is its own inverse (R265). -/
theorem pvsXorLoop_twice (k : Nat) (pi : List Byte) (w m j : Nat) (buf : List Byte) (h : 64 * m ≤ buf.length) :
    pvsXorLoop k pi w m j (pvsXorLoop k pi w m j buf) = buf := by
  induction m generalizing j buf with
  | zero => rfl
  | succ m ih =>
    have hl : (xorBytes (buf.take 64) (pvsMask k pi w j)).length = 64 := by simp; omega
    simp only [pvsXorLoop]
    rw [List.take_left' hl, List.drop_left' hl, ih (j + 1) (buf.drop 64) (by simp; omega), xorBytes_cancel _ _ (by simp),
      List.take_append_drop]

/-! ### The dispatch over modes (R243) -/

theorem encryptBytes_length (s : State) (buf : List Byte) (h : 16 ≤ buf.length) : (encryptBytes s buf).length = buf.length := by
  unfold encryptBytes
  cases s.mode with
  | ecb => exact ecbEnc_length _ _ h
  | cbc => exact cbcEnc_length _ _ _ _ h
  | pvs =>
    simp only
    split
    · rw [ecbEnc_length _ _ (by rw [pvsXor_length]; exact h), pvsXor_length]
    · exact ecbEnc_length _ _ h

theorem decryptBytes_length (s : State) (buf : List Byte) (h : 16 ≤ buf.length) : (decryptBytes s buf).length = buf.length := by
  unfold decryptBytes
  cases s.mode with
  | ecb => exact ecbDec_length _ _ h
  | cbc => exact cbcDec_length _ _ _ _ h
  | pvs =>
    simp only
    split
    · rw [pvsXor_length, ecbDec_length _ _ h]
    · exact ecbDec_length _ _ h

end Sys2Proof.Machine
end

