-- ==== Sys2Proof/Laws/PerInstr.lean ====
section
/-! SUPPORT. For every command: its word is selected by the row of R118 that has its mnemonic. -/

namespace Sys2Proof.Laws.TableRow

/-- The command's word is selected by a row of R118 with the command's mnemonic (R115, R118). -/
def Statement (i : Instr) : Prop := ∃ r ∈ opcodeRows, r.selects (encode i) = true ∧ r.mnemonic = i.mnemonic

/-- The row of R118 named, and a command word checked against it field by field. -/
theorem row_selects {i : Instr} {r : OpcodeRow} {opc a b : Byte} {o : Bool} (hr : r ∈ opcodeRows)
    (hw : encode i = commandWord opc a b o) (hm : r.mnemonic = i.mnemonic)
    (h1 : opc &&& opcField r.mask = opcField r.pattern) (h2 : a &&& aField r.mask = aField r.pattern)
    (h3 : b &&& bField r.mask = bField r.pattern) (h4 : (o && outselField r.mask) = outselField r.pattern)
    (h5 : rsvField r.pattern = 0) : Statement i := by
  refine ⟨r, hr, ?_, hm⟩
  rw [selects_iff, hw]
  simp [h1, h2, h3, h4, h5]

/-- A field under a mask of zeros. -/
theorem byte_and_zero (x : Byte) : x &&& 0x00 = 0 := BitVec.and_zero

theorem nop : Statement .nop :=
  row_selects (r := ⟨"NOP", 0x00000000, 0xFFFFFFFF⟩) (by decide) rfl rfl (by decide) (by decide) (by decide) (by decide) (by decide)

theorem gfmul (a : Byte) (b : Byte) : Statement (.gfmul a b) :=
  row_selects (r := ⟨"GFMUL", 0x00000001, 0xFF0000FF⟩) (by decide) rfl rfl (by decide) (byte_and_zero _) (byte_and_zero _) (by decide) (by decide)

theorem sbox (a : Byte) : Statement (.sbox a) :=
  row_selects (r := ⟨"SBOX", 0x00000002, 0xFFFF00FF⟩) (by decide) rfl rfl (by decide) (byte_and_zero _) (by decide) (by decide) (by decide)

theorem invsbox (a : Byte) : Statement (.invsbox a) :=
  row_selects (r := ⟨"INVSBOX", 0x00000003, 0xFFFF00FF⟩) (by decide) rfl rfl (by decide) (byte_and_zero _) (by decide) (by decide) (by decide)

theorem setkey : Statement .setkey :=
  row_selects (r := ⟨"SETKEY", 0x00000010, 0xFFFFFFFF⟩) (by decide) rfl rfl (by decide) (by decide) (by decide) (by decide) (by decide)

theorem expand : Statement .expand :=
  row_selects (r := ⟨"EXPAND", 0x00000011, 0xFFFFFFFF⟩) (by decide) rfl rfl (by decide) (by decide) (by decide) (by decide) (by decide)

theorem setiv : Statement .setiv :=
  row_selects (r := ⟨"SETIV", 0x00000012, 0xFFFFFFFF⟩) (by decide) rfl rfl (by decide) (by decide) (by decide) (by decide) (by decide)

theorem geniv : Statement .geniv :=
  row_selects (r := ⟨"GENIV", 0x00000013, 0xFFFFFFFF⟩) (by decide) rfl rfl (by decide) (by decide) (by decide) (by decide) (by decide)

theorem encblk : Statement .encblk :=
  row_selects (r := ⟨"ENCBLK", 0x00000020, 0xFFFFFFFF⟩) (by decide) rfl rfl (by decide) (by decide) (by decide) (by decide) (by decide)

theorem decblk : Statement .decblk :=
  row_selects (r := ⟨"DECBLK", 0x00000021, 0xFFFFFFFF⟩) (by decide) rfl rfl (by decide) (by decide) (by decide) (by decide) (by decide)

theorem subbytes : Statement .subbytes :=
  row_selects (r := ⟨"SUBBYTES", 0x00000022, 0xFFFFFFFF⟩) (by decide) rfl rfl (by decide) (by decide) (by decide) (by decide) (by decide)

theorem invsubbytes : Statement .invsubbytes :=
  row_selects (r := ⟨"INVSUBBYTES", 0x00000023, 0xFFFFFFFF⟩) (by decide) rfl rfl (by decide) (by decide) (by decide) (by decide) (by decide)

theorem shiftrows : Statement .shiftrows :=
  row_selects (r := ⟨"SHIFTROWS", 0x00000024, 0xFFFFFFFF⟩) (by decide) rfl rfl (by decide) (by decide) (by decide) (by decide) (by decide)

theorem invshiftrows : Statement .invshiftrows :=
  row_selects (r := ⟨"INVSHIFTROWS", 0x00000025, 0xFFFFFFFF⟩) (by decide) rfl rfl (by decide) (by decide) (by decide) (by decide) (by decide)

theorem mixcolumns : Statement .mixcolumns :=
  row_selects (r := ⟨"MIXCOLUMNS", 0x00000026, 0xFFFFFFFF⟩) (by decide) rfl rfl (by decide) (by decide) (by decide) (by decide) (by decide)

theorem invmixcolumns : Statement .invmixcolumns :=
  row_selects (r := ⟨"INVMIXCOLUMNS", 0x00000027, 0xFFFFFFFF⟩) (by decide) rfl rfl (by decide) (by decide) (by decide) (by decide) (by decide)

theorem addrk (r : Byte) : Statement (.addrk r) :=
  row_selects (r := ⟨"ADDRK", 0x00000028, 0xFFFF00FF⟩) (by decide) rfl rfl (by decide) (byte_and_zero _) (by decide) (by decide) (by decide)

theorem encrypt (outsel : Bool) : Statement (.encrypt outsel) :=
  row_selects (r := ⟨"ENCRYPT", 0x00000030, 0xFEFFFFFF⟩) (by decide) rfl rfl (by decide) (by decide) (by decide) (Bool.and_false _) (by decide)

theorem decrypt (outsel : Bool) : Statement (.decrypt outsel) :=
  row_selects (r := ⟨"DECRYPT", 0x00000031, 0xFEFFFFFF⟩) (by decide) rfl rfl (by decide) (by decide) (by decide) (Bool.and_false _) (by decide)

theorem zeroize : Statement .zeroize :=
  row_selects (r := ⟨"ZEROIZE", 0x0000003F, 0xFFFFFFFF⟩) (by decide) rfl rfl (by decide) (by decide) (by decide) (by decide) (by decide)

end Sys2Proof.Laws.TableRow
end

