-- ==== Sys2Proof/Laws/Step.lean ====
section
/-! SUPPORT. Everything a step can do, said once: the inversion of a host move and of a step, and induction over a run. -/

namespace Sys2Proof.Machine

/-- A host move that is served, kind by kind: what it needed and the state it leaves. -/
theorem hostMove_cases {m : HostMove} {s t : State} (h : hostMove m s = .next t) :
    (∃ offset width, m = .regRead offset width ∧ offset < 0x200 ∧ wordAccess offset width = true ∧
      t = logRead (.reg offset (readReg offset s).1) (readReg offset s).2) ∨
    (∃ offset width v, m = .regWrite offset width v ∧ offset < 0x200 ∧ wordAccess offset width = true ∧
      t = writeReg offset v s) ∨
    (∃ addr width, m = .dmemRead addr width ∧ alignedAccess addr width = true ∧ addr + width ≤ s.params.dmemSize ∧
      t = logRead (.dmem addr width (leNat (hostReadBytes addr width s).1)) (hostReadBytes addr width s).2) ∨
    (∃ addr width v, m = .dmemWrite addr width v ∧ alignedAccess addr width = true ∧ addr + width ≤ s.params.dmemSize ∧
      t = hostWriteBytes addr (leBytes width v) s) ∨
    (m = .poll ∧ t = logRead (.reg (regOffset .status) (statusWord s))
      (if s.busy then { s with moves := .poll :: s.moves } else s)) ∨
    (m = .reset ∧ t = resetState s) := by
  cases m with
  | regRead offset width =>
    simp only [hostMove] at h
    split at h
    · cases h
    · split at h
      · cases h; exact .inl ⟨offset, width, rfl, by omega, by assumption, rfl⟩
      · cases h
  | regWrite offset width v =>
    simp only [hostMove] at h
    split at h
    · cases h
    · split at h
      · cases h; exact .inr (.inl ⟨offset, width, v, rfl, by omega, by assumption, rfl⟩)
      · cases h
  | dmemRead addr width =>
    simp only [hostMove] at h
    split at h
    · split at h
      · cases h; exact .inr (.inr (.inl ⟨addr, width, rfl, by assumption, by assumption, rfl⟩))
      · cases h
    · cases h
  | dmemWrite addr width v =>
    simp only [hostMove] at h
    split at h
    · split at h
      · cases h; exact .inr (.inr (.inr (.inl ⟨addr, width, v, rfl, by assumption, by assumption, rfl⟩)))
      · cases h
    · cases h
  | poll => cases h; exact .inr (.inr (.inr (.inr (.inl ⟨rfl, rfl⟩))))
  | reset => cases h; exact .inr (.inr (.inr (.inr (.inr ⟨rfl, rfl⟩))))

/-- A host step that is served: no move is left, or the first one is made. -/
theorem hostStep_cases {s t : State} (h : hostStep s = .next t) :
    (s.moves = [] ∧ t = s) ∨ ∃ m rest, s.moves = m :: rest ∧ hostMove m { s with moves := rest } = .next t := by
  unfold hostStep at h
  split at h
  · next hm => cases h; exact .inl ⟨hm, rfl⟩
  · next m rest hm => exact .inr ⟨m, rest, hm, h⟩

/-- A step is a completion, a host move beside a running command, or a host move while idle (R11, R12). -/
theorem step_cases {s t : State} (h : step s = .next t) :
    (s.busy = true ∧ s.wait = 0 ∧ completeCommand s = .next t) ∨
    (s.busy = true ∧ ∃ n, s.wait = n + 1 ∧ hostStep { s with wait := n } = .next t) ∨
    (s.busy = false ∧ hostStep s = .next t) := by
  cases hb : s.busy with
  | false => exact .inr (.inr ⟨rfl, by simpa [step, hb] using h⟩)
  | true =>
    cases hw : s.wait with
    | zero => exact .inl ⟨rfl, rfl, by simpa [step, hb, hw] using h⟩
    | succ n => exact .inr (.inl ⟨rfl, n, rfl, by simpa [step, hb, hw] using h⟩)

/-- A completion is the command's meaning, or the error of R113 and R116. -/
theorem completeCommand_cases {s t : State} (h : completeCommand s = .next t) :
    (∃ i, decode s.cmd = .ok i ∧ exec i s = .next t) ∨
    (∃ e, decode s.cmd = .error e ∧ t = errorState .illegalCommand s) := by
  unfold completeCommand at h
  split at h
  · next i hd => exact .inl ⟨i, hd, h⟩
  · next e hd => cases h; exact .inr ⟨e, hd, rfl⟩

/-- What every step keeps, every run keeps. -/
theorem run_keeps {P : State → Prop} (hP : ∀ s t, P s → step s = .next t → P t) (k : Nat) :
    ∀ s t, P s → Sys2Proof.core.run k s = .next t → P t := by
  induction k with
  | zero => intro s t hs h; cases h; exact hs
  | succ k ih =>
    intro s t hs h
    simp only [Host.Core.run] at h
    split at h
    · next u hu => exact ih u t (hP s u hs hu) h
    · cases h
    · cases h

end Sys2Proof.Machine
end

