-- ==== Sys2Proof/Tests/Slice0.lean ====
section
/-! SUPPORT. Tests: expected values from spec/'s examples, vectors and tables (named at each test), and one witness for each
hypothesis and clause of the obligations. -/

namespace Sys2Proof.Machine.Tests

/-! ### Helpers -/

/-- The key of R251's examples, `2b7e151628aed2a6abf7158809cf4f3c`. -/
def keyBytes : List Byte := [0x2b, 0x7e, 0x15, 0x16, 0x28, 0xae, 0xd2, 0xa6, 0xab, 0xf7, 0x15, 0x88, 0x09, 0xcf, 0x4f, 0x3c]

/-- `000102030405060708090a0b0c0d0e0f`. -/
def countBytes : List Byte := (List.range 16).map (BitVec.ofNat 8)

/-- A latched 128-bit key (R51). -/
def keyed (mode : Mode) (key : List Byte) : State :=
  { State.reset with key := bytesOf 32 key, keybits := 128, mode := mode, keyValid := true }

/-- A latched 128-bit key and its schedule (R52). -/
def ready (mode : Mode) (key : List Byte) : State :=
  { keyed mode key with ks := bytesOf 240 (expand key 4), nk := 4, nr := 10, ksValid := true }

/-- A schedule that is valid and zero: enough where no value of it matters. -/
def zeroReady (mode : Mode) : State := { keyed mode [] with nk := 4, nr := 10, ksValid := true }

/-- A buffer of `n` bytes at `a`. -/
def withBuffer (a n : Nat) (s : State) : State := { s with src := BitVec.ofNat 32 a, size := BitVec.ofNat 32 n }

/-- What the completion of the word `w` leaves, seen through `f`. -/
def after {α : Type} (w : Word) (s : State) (f : State → α) : Option α :=
  match step (s.withFetchWord 32 w.toNat) with
  | .next t => some (f t)
  | _ => none

/-- The state of a host that has these moves to make. -/
def withMoves (ms : List HostMove) (s : State) : State := { s with moves := ms }

/-! ### Well-formedness: an ill-formed term for each check, refused -/

theorem test_params_wf_reset : resetParams.wf = true := by decide
theorem test_params_wf_empty_dmem : ({ resetParams with dmemSize := 0 } : Params).wf = false := by decide
theorem test_params_wf_large_dmem : ({ resetParams with dmemSize := 2 ^ 32 + 1 } : Params).wf = false := by decide
theorem test_params_wf_overlap : ({ resetParams with dmemBase := 0x1FF } : Params).wf = false := by decide
theorem test_cmdspec_wf_gfmul : (CmdSpec.gfmul 256 0).wf = false ∧ (CmdSpec.gfmul 0 256).wf = false ∧ (CmdSpec.gfmul 255 255).wf = true := by decide
theorem test_cmdspec_wf_sbox : (CmdSpec.sbox 256).wf = false ∧ (CmdSpec.invsbox 256).wf = false := by decide
theorem test_cmdspec_wf_addrk : (CmdSpec.addrk 256).wf = false ∧ cmdInstr (.addrk 256) = none := by decide
theorem test_stmt_wf_wr : (HostStmt.wr .cfg (2 ^ 32)).wf = false := by decide
theorem test_stmt_wf_cmd : (HostStmt.cmd (.sbox 256)).wf = false ∧ (HostStmt.exec (.sbox 256)).wf = false := by decide
theorem test_stmt_wf_bytes : (HostStmt.wrkey (List.replicate 33 0)).wf = false ∧ (HostStmt.wriv (List.replicate 15 0)).wf = false ∧
    (HostStmt.wrblk (List.replicate 17 0)).wf = false := by decide
theorem test_stmt_wf_setcfg : (HostStmt.setcfg 65536 .ecb).wf = false := by decide
theorem test_stmt_wf_memory : (HostStmt.wrm (2 ^ 32) [0]).wf = false ∧ (HostStmt.rdm (2 ^ 32) 1).wf = false := by decide

/-! ### Decoding: each word written out from the bits of R118 -/

theorem test_decode_nop : decode 0b00000000000000000000000000000000 = .ok .nop := by decide
theorem test_decode_gfmul : decode 0b00000000100000110101011100000001 = .ok (.gfmul 0x57 0x83) := by decide
theorem test_decode_sbox : decode 0b00000000000000000101001100000010 = .ok (.sbox 0x53) := by decide
theorem test_decode_invsbox : decode 0b00000000000000001110110100000011 = .ok (.invsbox 0xED) := by decide
theorem test_decode_setkey : decode 0b00000000000000000000000000010000 = .ok .setkey := by decide
theorem test_decode_expand : decode 0b00000000000000000000000000010001 = .ok .expand := by decide
theorem test_decode_setiv : decode 0b00000000000000000000000000010010 = .ok .setiv := by decide
theorem test_decode_geniv : decode 0b00000000000000000000000000010011 = .ok .geniv := by decide
theorem test_decode_encblk : decode 0b00000000000000000000000000100000 = .ok .encblk := by decide
theorem test_decode_decblk : decode 0b00000000000000000000000000100001 = .ok .decblk := by decide
theorem test_decode_subbytes : decode 0b00000000000000000000000000100010 = .ok .subbytes := by decide
theorem test_decode_invsubbytes : decode 0b00000000000000000000000000100011 = .ok .invsubbytes := by decide
theorem test_decode_shiftrows : decode 0b00000000000000000000000000100100 = .ok .shiftrows := by decide
theorem test_decode_invshiftrows : decode 0b00000000000000000000000000100101 = .ok .invshiftrows := by decide
theorem test_decode_mixcolumns : decode 0b00000000000000000000000000100110 = .ok .mixcolumns := by decide
theorem test_decode_invmixcolumns : decode 0b00000000000000000000000000100111 = .ok .invmixcolumns := by decide
theorem test_decode_addrk : decode 0b00000000000000000000101000101000 = .ok (.addrk 10) := by decide
theorem test_decode_encrypt : decode 0b00000000000000000000000000110000 = .ok (.encrypt false) ∧
    decode 0b00000001000000000000000000110000 = .ok (.encrypt true) := by decide
theorem test_decode_decrypt : decode 0b00000000000000000000000000110001 = .ok (.decrypt false) ∧
    decode 0b00000001000000000000000000110001 = .ok (.decrypt true) := by decide
theorem test_decode_zeroize : decode 0b00000000000000000000000000111111 = .ok .zeroize := by decide
theorem test_decode_table_word : decodeTableWord 32 0x00835701 = some (.gfmul 0x57 0x83) ∧ decodeTableWord 32 0x00000004 = none ∧
    decodeTableWord 8 0x3F = some .zeroize ∧ decodeTableWord 40 0x100000000 = none := by decide

/-! ### One step of each command -/

/-- R279: DONE, and nothing else. -/
theorem test_nop : after 0x00000000 State.reset (regValue .status) = some 0x00000002 := by decide
/-- R306: NOP with A = 1. -/
theorem test_nop_unused_field : after 0x00000100 State.reset (regValue .status) = some 0x000000D6 := by decide
/-- R150. -/
theorem test_gfmul : after 0x00835701 State.reset (regValue .result) = some 0x000000C1 := by decide
/-- V20: the reduction fires. -/
theorem test_gfmul_reduces : after 0x00028001 State.reset (regValue .result) = some 0x0000001B := by decide
/-- R151. -/
theorem test_sbox : after 0x00005302 State.reset (regValue .result) = some 0x000000ED := by decide
/-- R152. -/
theorem test_invsbox : after 0x0000ED03 State.reset (regValue .result) = some 0x00000053 := by decide
/-- R170: DONE and KEY_VALID; Nk and Nr read 0 until EXPAND. -/
theorem test_setkey : after 0x00000010 { State.reset with cfgKeyBits := 128, keyin := bytesOf 32 countBytes }
    (fun t => (regValue .status t, regValue .kinfo t, regValue (.key 3) t)) = some (0x00000102, 0x00000080, 0x0F0E0D0C) := by
  decide
/-- R306: KEYBITS 127 and MODE 3; the length is checked first. -/
theorem test_setkey_errors :
    after 0x00000010 { State.reset with cfgKeyBits := 127, cfgMode := 3 } (regValue .status) = some 0x00000076 ∧
    after 0x00000010 { State.reset with cfgKeyBits := 128, cfgMode := 3 } (regValue .status) = some 0x00000086 := by decide
/-- R180: KS4 and KS43; V24: KINFO and KS44. -/
theorem test_expand : after 0x00000011 (keyed .ecb keyBytes)
    (fun t => (regValue (.ks 4) t, regValue (.ks 43) t, regValue (.ks 44) t, regValue .kinfo t)) =
      some (0x17FEFAA0, 0xA60C63B6, 0, 0x0A400080) := by decide +kernel
/-- R306: no key. -/
theorem test_expand_nokey : after 0x00000011 State.reset (regValue .status) = some 0x00000096 := by decide
/-- R274. -/
theorem test_setiv : after 0x00000012 { keyed .cbc keyBytes with ivin := blockOf countBytes }
    (fun t => (regValue (.iv 0) t, regValue .status t)) = some (0x03020100, 0x00000502) := by decide
/-- R306: the IV is set once. -/
theorem test_setiv_again : after 0x00000012 { keyed .cbc keyBytes with ivValid := true } (fun t => (t.errcode, t.iv)) =
    some (10, Vector.replicate 16 0) := by decide
/-- R275, R293: no schedule before an IV already set. -/
theorem test_geniv_errors : after 0x00000013 { State.reset with ivValid := true } (fun t => t.errcode) = some 3 ∧
    after 0x00000013 { zeroReady .cbc with ivValid := true } (fun t => t.errcode) = some 10 := by decide
/-- R275: TSEED enters the counter block in little-endian order (R276). -/
theorem test_geniv_counter : ivCounterBlock { State.reset with tseed := 0x12345678 } =
    #v[0x78, 0x56, 0x34, 0x12, 0, 0, 0, 0, 0, 0, 0, 0, 0, 0, 0, 0] := by decide
/-- R220: the block of FIPS-197, under the key `000102..0f`. -/
theorem test_encblk : after 0x00000020 { ready .ecb countBytes with blk :=
      #v[0x00, 0x11, 0x22, 0x33, 0x44, 0x55, 0x66, 0x77, 0x88, 0x99, 0xaa, 0xbb, 0xcc, 0xdd, 0xee, 0xff] } (fun t => t.blk) =
    some #v[0x69, 0xc4, 0xe0, 0xd8, 0x6a, 0x7b, 0x04, 0x30, 0xd8, 0xcd, 0xb7, 0x80, 0x70, 0xb4, 0xc5, 0x5a] := by decide +kernel
/-- R306: no schedule. -/
theorem test_encblk_no_schedule : after 0x00000020 State.reset (regValue .status) = some 0x00000036 := by decide
/-- R221: the same block back. -/
theorem test_decblk : after 0x00000021 { ready .ecb countBytes with blk :=
      #v[0x69, 0xc4, 0xe0, 0xd8, 0x6a, 0x7b, 0x04, 0x30, 0xd8, 0xcd, 0xb7, 0x80, 0x70, 0xb4, 0xc5, 0x5a] } (fun t => t.blk) =
    some #v[0x00, 0x11, 0x22, 0x33, 0x44, 0x55, 0x66, 0x77, 0x88, 0x99, 0xaa, 0xbb, 0xcc, 0xdd, 0xee, 0xff] := by decide +kernel

/-- The blocks of R222 to R228. -/
def start : Block := #v[0x19, 0x3d, 0xe3, 0xbe, 0xa0, 0xf4, 0xe2, 0x2b, 0x9a, 0xc6, 0x8d, 0x2a, 0xe9, 0xf8, 0x48, 0x08]
def subbed : Block := #v[0xd4, 0x27, 0x11, 0xae, 0xe0, 0xbf, 0x98, 0xf1, 0xb8, 0xb4, 0x5d, 0xe5, 0x1e, 0x41, 0x52, 0x30]
def shifted : Block := #v[0xd4, 0xbf, 0x5d, 0x30, 0xe0, 0xb4, 0x52, 0xae, 0xb8, 0x41, 0x11, 0xf1, 0x1e, 0x27, 0x98, 0xe5]
def mixed : Block := #v[0x04, 0x66, 0x81, 0xe5, 0xe0, 0xcb, 0x19, 0x9a, 0x48, 0xf8, 0xd3, 0x7a, 0x28, 0x06, 0x26, 0x4c]

theorem test_subbytes : after 0x00000022 { State.reset with blk := start } (fun t => t.blk) = some subbed := by decide
theorem test_invsubbytes : after 0x00000023 { State.reset with blk := subbed } (fun t => t.blk) = some start := by decide
theorem test_shiftrows : after 0x00000024 { State.reset with blk := subbed } (fun t => t.blk) = some shifted := by decide
theorem test_invshiftrows : after 0x00000025 { State.reset with blk := shifted } (fun t => t.blk) = some subbed := by decide
theorem test_mixcolumns : after 0x00000026 { State.reset with blk := shifted } (fun t => t.blk) = some mixed := by decide +kernel
theorem test_invmixcolumns : after 0x00000027 { State.reset with blk := mixed } (fun t => t.blk) = some shifted := by decide +kernel
/-- R228: ADDRK 1. -/
theorem test_addrk : after 0x00000128 { ready .ecb keyBytes with blk := mixed } (fun t => t.blk) =
    some #v[0xa4, 0x9c, 0x7f, 0xf2, 0x68, 0x9f, 0x35, 0x2b, 0x6b, 0x5b, 0xea, 0x43, 0x02, 0x6a, 0x50, 0x49] := by decide +kernel
/-- R306: ADDRK 11 with Nr = 10. -/
theorem test_addrk_invalid_round : after 0x00000B28 { zeroReady .ecb with blk := mixed } (fun t => (t.errcode, t.blk)) =
    some (11, mixed) := by decide
/-- The first 17 bytes of the plaintext of R246's examples. -/
def plain17 : List Byte := [0x6b, 0xc1, 0xbe, 0xe2, 0x2e, 0x40, 0x9f, 0x96, 0xe9, 0x3d, 0x7e, 0x11, 0x73, 0x93, 0x17, 0x2a, 0xae]

/-- R246: ECB, n = 17. -/
theorem test_encrypt_tail : after 0x00000030 { withBuffer 0x100 17 (ready .ecb keyBytes) with
                                               dmem := Memory.writeBytes [] 0x100 plain17 }
      (fun t => t.dmem.readBytes 0x100 17) =
    some [0x3a, 0x51, 0x7b, 0xf2, 0xd5, 0xb9, 0xd1, 0xde, 0xfe, 0x56, 0xd3, 0xca, 0x08, 0x59, 0x26, 0x82, 0xbb] := by
  decide +kernel
/-- R306: NullInput wins over ZeroLength; then ZeroLength, and InvalidInputSize at 15. -/
theorem test_encrypt_errors :
    after 0x00000030 (withBuffer 0 0 (zeroReady .ecb)) (regValue .status) = some 0x00000316 ∧
    after 0x00000030 (withBuffer 0x100 0 (zeroReady .ecb)) (regValue .status) = some 0x00000356 ∧
    after 0x00000030 (withBuffer 0x100 15 (zeroReady .ecb)) (regValue .status) = some 0x00000366 := by decide
/-- R306: CBC without an IV; R83: one byte past DMEM, and a range that would wrap. -/
theorem test_decrypt_errors :
    after 0x00000031 (withBuffer 0x100 16 (zeroReady .cbc)) (regValue .status) = some 0x00000346 ∧
    after 0x00000031 (withBuffer 0xFF1 16 (zeroReady .ecb)) (fun t => t.errcode) = some 12 ∧
    after 0x00000031 (withBuffer 0xFFFFFFF0 16 (zeroReady .ecb)) (fun t => t.errcode) = some 12 := by decide
/-- The ciphertext block of R241's example. -/
def cbcBlock : List Byte := [0x76, 0x49, 0xab, 0xac, 0x81, 0x19, 0xb2, 0x46, 0xce, 0xe9, 0x8e, 0x9b, 0x12, 0xe9, 0x19, 0x7d]

/-- R241: CBC. -/
theorem test_decrypt_cbc : after 0x00000031 { withBuffer 0x100 16 (ready .cbc keyBytes) with
                                              iv := blockOf countBytes, ivValid := true,
                                              dmem := Memory.writeBytes [] 0x100 cbcBlock }
      (fun t => t.dmem.readBytes 0x100 16) = some (plain17.take 16) := by decide +kernel
/-- R265: one π window of value 1 leaves the schedule's bytes in the low half and zeros in the high half. -/
theorem test_pvs_xor : pvsXor (leNat ((expand keyBytes 4).take 32)) (0x01 :: List.replicate 31 0) 1 (List.replicate 70 0) =
    (expand keyBytes 4).take 32 ++ List.replicate 38 0 := by decide +kernel
/-- R280: STATUS 2, and the configuration registers stay. -/
theorem test_zeroize : after 0x0000003F { ready .cbc keyBytes with size := 5, blk := start, ivValid := true, result := 1 }
    (fun t => (regValue .status t, t.size, t.blk, regValue .kinfo t)) = some (2, 5, Vector.replicate 16 0, 0) := by decide +kernel

/-! ### The host's side -/

/-- R31, R32: a reserved offset, a write-only register, a read-only register. -/
theorem test_register_rules : (readReg 0x02C (ready .ecb keyBytes)).1 = 0 ∧ (readReg 0x000 (ready .ecb keyBytes)).1 = 0 ∧
    writeReg 0x004 5 State.reset = State.reset := by decide +kernel
/-- R38: a CMD write while BUSY. -/
theorem test_drop : (writeReg 0x000 5 (latch 0 State.reset)).drop = true ∧ (writeReg 0x000 5 (latch 0 State.reset)).cmd = 0 := by decide
/-- R87: a wide write is little-endian, a misaligned one is refused, one past DMEM is a fault. -/
theorem test_dmem_access : step (withMoves [.dmemWrite 0x100 2 0xABCD] State.reset) =
      .next { State.reset with dmem := [(0x100, 0xCD), (0x101, 0xAB)] } ∧
    step (withMoves [.dmemWrite 0x101 2 0] State.reset) = .refused .dmemAccessMisaligned ∧
    step (withMoves [.dmemRead 0x1000 1] State.reset) = .fault .dmemAddressOutsideMemory := ⟨rfl, rfl, rfl⟩
/-- R31: a byte access to a register is refused; 0x200 is outside the register space. -/
theorem test_register_access : step (withMoves [.regRead 4 1] State.reset) = .refused .registerAccessNotWord ∧
    step (withMoves [.regRead 0x200 4] State.reset) = .fault .registerOffsetOutsideSpace := ⟨rfl, rfl⟩
/-- R31, R32: a host's write of TSEED while idle is stored, and its read returns it. -/
theorem test_register_served : step (withMoves [.regWrite 0x020 4 7] State.reset) = .next { State.reset with tseed := 7 } ∧
    step (withMoves [.regRead 0x020 4] { State.reset with tseed := 7 }) =
      .next { State.reset with tseed := 7, hostLog := [.reg 0x020 7] } := ⟨rfl, rfl⟩
/-- R98: of an aligned word read at 0x100 beside an in-place ENCRYPT at 0x102, two bytes are draws; a word write there races. -/
theorem test_race_access :
    let s := latch 0x30 (withBuffer 0x102 16 (zeroReady .ecb))
    (hostReadBytes 0x100 4 s).2.draws = 2 ∧ (hostWriteBytes 0x100 [1, 2, 3, 4] s).raced = true ∧
    (hostWriteBytes 0x100 [1, 2] s).raced = false := by decide
/-- R132: `wait` reads STATUS once when BUSY = 0, and stays while BUSY = 1. -/
theorem test_poll : step (withMoves [.poll] State.reset) = .next { State.reset with hostLog := [.reg 4 0] } ∧
    step (withMoves [.poll] { latch 0 State.reset with wait := 1 }) =
      .next { latch 0 State.reset with moves := [.poll], hostLog := [.reg 4 1] } := ⟨rfl, rfl⟩
/-- R320: the reset step. -/
theorem test_reset_step : step (withMoves [.reset] (zeroReady .cbc)) = .next State.reset := rfl
/-- R132: `setcfg 128, CBC` and `exec SETKEY`. -/
theorem test_assembly : programMoves [.setcfg 128 .cbc, .exec .setkey] =
    some [.regWrite 0x008 4 0x00010080, .regWrite 0x000 4 0x00000010, .poll] := by decide
/-- R132: `wriv` puts byte 0 in the least significant lane. -/
theorem test_assembly_wriv : (programMoves [.wriv countBytes]).map (·.take 1) = some [.regWrite 0x060 4 0x03020100] := by decide
/-- R92: REG_BASE and DMEM_BASE. -/
theorem test_locate : busWrite resetParams 0x0 4 0x3F = some (.regWrite 0 4 0x3F) ∧
    busRead resetParams 0x1100 1 = some (.dmemRead 0x100 1) ∧ busRead resetParams 0x300 4 = none := by decide
/-- R7 and the example of 95_test_vectors.md section 1.3: 45 bytes. -/
theorem test_key_file : keyFileSave { keyed .cbc keyBytes with iv := blockOf countBytes, ivValid := true } =
    some ([0x41, 0x45, 0x53, 0x4b, 0x45, 0x59, 0x43, 0x42, 0x43, 0x80, 0x00] ++ keyBytes ++ countBytes) := by decide +kernel
/-- R7: a tag that is no tag, and a length outside the set, fail the load. -/
theorem test_key_file_malformed : keyFileLoad ([0x41, 0x45, 0x53, 0x4b, 0x45, 0x59, 0x50, 0x56, 0x53, 0x80, 0x00] ++ keyBytes) = none ∧
    keyFileLoad ([0x41, 0x45, 0x53, 0x4b, 0x45, 0x59, 0x45, 0x43, 0x42, 0x7F, 0x00] ++ keyBytes) = none := by decide

/-! ### Witnesses: for each statement with hypotheses, concrete inputs that meet them all, clause by clause -/

/-- A state right after the acceptance of `w`, its completion next: the hypotheses of `illegalAtCompletion`. -/
theorem witness_illegal_at_completion : (latch 0x00000004 State.reset).busy = true ∧ (latch 0x00000004 State.reset).wait = 0 ∧
    (latch 0x00000004 State.reset).cmd = 0x00000004 := by decide
/-- PatternTableSelectsTheDecodedCommand: a selected word, and one no row selects. -/
theorem witness_pattern_table : (∃ r ∈ opcodeRows, r.selects 0x01000030 = true) ∧
    decode 0x01000030 = .ok (.encrypt true) ∧ (∀ r ∈ opcodeRows, r.selects 0x02000030 = false) ∧
    decode 0x00835701 = .ok (.gfmul 0x57 0x83) ∧ decode 0x00000A28 = .ok (.addrk 10) := by decide
/-- NonzeroUnusedFieldIsIllegal: each disjunct, at the smallest and the largest value of the field. -/
theorem witness_unused_field : rsvField 0x02000030 ≠ 0 ∧ rsvField 0xFE000000 ≠ 0 ∧
    (aField 0x00000100 ≠ 0 ∧ opcField 0x00000100 = 0x00) ∧ (aField 0x0000FF30 ≠ 0 ∧ opcField 0x0000FF30 = 0x30) ∧
    (bField 0x00010028 ≠ 0 ∧ opcField 0x00010028 = 0x28) ∧ (bField 0x00FF0002 ≠ 0 ∧ opcField 0x00FF0002 = 0x02) ∧
    (outselField 0x01000002 = true ∧ opcField 0x01000002 = 0x02) ∧ (outselField 0x01000001 = true ∧ opcField 0x01000001 = 0x01) := by
  decide
/-- ReservedOpcodeIsIllegal: both ends of each range. -/
theorem witness_reserved_opcode : (List.map (fun w : Word => (opcField w).toNat)
    [0x04, 0x0F, 0x14, 0x1F, 0x29, 0x2F, 0x32, 0x3E, 0x40, 0xFF]) = [0x04, 0x0F, 0x14, 0x1F, 0x29, 0x2F, 0x32, 0x3E, 0x40, 0xFF] := by
  decide
/-- `plainWord` and `aWord`: a word with the OPC and something more. -/
theorem witness_extra_field : opcField 0x00000110 = 0x10 ∧ (0x00000110 : Word) ≠ (0x10 : Byte).zeroExtend 32 ∧
    opcField 0x00010028 = 0x28 ∧ bField 0x00010028 ≠ 0 := by decide
/-- StepRunsTheDecodedCommand, its three kinds of step; CmdWriteWhileIdleIsAccepted and the two writes while BUSY. -/
theorem witness_step : ((latch 0 State.reset).busy = true ∧ (latch 0 State.reset).wait = 0 ∧ decode (latch 0 State.reset).cmd = .ok .nop) ∧
    (({ latch 0 State.reset with wait := 1 } : State).busy = true ∧ ({ latch 0 State.reset with wait := 1 } : State).wait = 0 + 1) ∧
    State.reset.busy = false := by decide
theorem witness_cmd_write_idle : (withMoves [.regWrite 0x000 4 0x3F] State.reset).busy = false ∧
    (withMoves [.regWrite 0x000 4 0x3F] State.reset).moves = [.regWrite 0x000 4 0x3F] := by decide
/-- A running command with one core step left and a host move beside it; the offsets 4 and 0x1FC are the ends of the range. -/
theorem witness_write_busy (ms : List HostMove) : (withMoves ms { latch 0 State.reset with wait := 1 }).busy = true ∧
    (withMoves ms { latch 0 State.reset with wait := 1 }).wait = 0 + 1 ∧
    (withMoves ms { latch 0 State.reset with wait := 1 }).moves = ms ∧ 4 % 4 = 0 ∧ 0x1FC % 4 = 0 ∧ 0 < 4 ∧ 0x1FC < 0x200 :=
  ⟨rfl, rfl, rfl, rfl, rfl, by decide, by decide⟩
/-- OperandsHoldUntilCompletion: a step with the host's move served, and a byte of the running ranges that it changes. -/
theorem witness_operands_hold :
    let s := withMoves [.dmemWrite 0x100 1 0] { latch 0x30 (withBuffer 0x100 16 (zeroReady .ecb)) with wait := 1 }
    s.busy = true ∧ s.wait = 0 + 1 ∧ s.moves.head? ≠ some .reset ∧ (∃ t, step s = .next t) ∧ inRunningRanges s 0x100 = true := by
  refine ⟨rfl, rfl, by decide, ⟨_, rfl⟩, by decide⟩
/-- AcceptedCommandCompletes: a silent host, and one that polls. -/
theorem witness_completes : (latch 0 State.reset).moves = [] ∧
    (∀ m ∈ (withMoves [.poll] { latch 0 State.reset with wait := 1 }).moves.take 1, m ≠ .reset) ∧
    (∃ t, Sys2Proof.core.run 2 (withMoves [.poll] { latch 0 State.reset with wait := 1 }) = .next t) :=
  ⟨rfl, by decide, ⟨_, rfl⟩⟩
/-- ErrorChangesOnlyStatus, CommandWritesOnlyItsState: a completion in an error. -/
theorem witness_error : ∃ t, step (latch 0x04 State.reset) = .next t ∧ t.err = true := ⟨_, rfl, rfl⟩
theorem witness_error_status : StatusInv (latch 0x04 State.reset) := by constructor <;> decide
theorem witness_command_error : ∃ t, exec .expand State.reset = .next t ∧ t.err = true := ⟨_, rfl, rfl⟩
/-- `writesOnly`: an ENCRYPT with and without an IV to assign, and an address outside its output range. -/
theorem witness_encrypt_frame : ¬ ((zeroReady .cbc).mode = .cbc ∧ ({ zeroReady .cbc with ivValid := true } : State).ivValid = false) ∧
    ¬ (outAddr false (withBuffer 0x100 16 (zeroReady .ecb)) ≤ 0x110 ∧
      0x110 < outAddr false (withBuffer 0x100 16 (zeroReady .ecb)) + (withBuffer 0x100 16 (zeroReady .ecb)).size.toNat) := by decide
/-- RegisterAccessRules: a register of each access right, the ends of the reserved offsets, a narrow and a misaligned access. -/
theorem witness_register_access : regAccess .status ≠ .wo ∧ regAccess .cmd = .wo ∧ regAccess .kinfo = .ro ∧ regAccess .cfg = .rw ∧
    regAt 0x02C = none ∧ regAt 0x1FC = none ∧ (0x02C % 4 = 0 ∧ 0x1FC < 0x200) ∧ (1 ≠ 4 ∧ 2 % 4 ≠ 0) := by decide
theorem witness_reserved_offset : ∀ r, regOffset r ≠ 0x02C := by
  intro r h
  have := congrArg regAt h
  rw [show regAt 0x02C = none by decide] at this
  cases r <;> simp [regOffset] at h <;> omega
/-- StatusAndKinfoFields: a key and no key. ReadsWhileBusy: a running command. -/
theorem witness_kinfo : State.reset.keyValid = false ∧ (zeroReady .pvs).keyValid = true ∧ (latch 0 State.reset).busy = true := by decide
/-- RegisterAccessRules, WrittenRegisterReadsBack: served accesses at the two ends of the register space. -/
theorem witness_served_access : (0 < 0x200 ∧ 0 % 4 = 0) ∧ (0x1FC < 0x200 ∧ 0x1FC % 4 = 0) ∧ State.reset.busy = false ∧
    regAccess .tseed = .rw := by decide
/-- HostDmemAccessIsLittleEndian: the last aligned double word of DMEM, idle and beside a NOP; a misaligned access of two bytes. -/
theorem witness_dmem_access : State.reset.busy = false ∧ 0xFF8 % 2 ^ 3 = 0 ∧ 0xFF8 + 2 ^ 3 ≤ State.reset.params.dmemSize ∧
    0x001 % 2 ^ (0 + 1) ≠ 0 := by decide
theorem witness_dmem_access_busy : (latch 0 State.reset).busy = true ∧ ∀ o, decode (latch 0 State.reset).cmd ≠ .ok (.encrypt o) ∧
    decode (latch 0 State.reset).cmd ≠ .ok (.decrypt o) := by decide
/-- StepCommandsTransformBlock: a block with four equal columns (that are not constant), and one with a column of equal bytes. -/
theorem witness_equal_columns :
    let b : Block := #v[1, 2, 3, 4, 1, 2, 3, 4, 1, 2, 3, 4, 1, 2, 3, 4]
    ∀ r c : Fin 4, cell b r c = cell b r 0 := by decide
theorem witness_equal_bytes :
    let b : Block := #v[0, 1, 2, 3, 0xc6, 0xc6, 0xc6, 0xc6, 8, 9, 10, 11, 12, 13, 14, 15]
    ∀ r : Fin 4, cell b r (1 : Fin 4) = 0xc6 := by decide
/-- RacesBecomeDraws: the first and last address of the output range and the first after it; an access that begins before the
output range and ends in it; and a raced ENCRYPT that succeeds. -/
theorem witness_race :
    let s := latch 0x30 (withBuffer 0x100 16 (zeroReady .ecb))
    s.busy = true ∧ decode s.cmd = .ok (.encrypt false) ∧ outAddr false s = 0x100 ∧ inOutputRange s 0x100 = true ∧
    inOutputRange s 0x10F = true ∧ inOutputRange s 0x110 = false := by decide
theorem witness_race_access :
    let s := latch 0x30 (withBuffer 0x102 16 (zeroReady .ecb))
    s.busy = true ∧ decode s.cmd = .ok (.encrypt false) ∧ 0x100 % 2 ^ 2 = 0 ∧ 0x100 + 2 ^ 2 ≤ s.params.dmemSize ∧
    inOutputRange s 0x101 = false ∧ inOutputRange s 0x102 = true := by decide
theorem witness_raced_success : ∃ s t, s.raced = true ∧ exec (.encrypt false) s = .next t ∧ t.err = false ∧ 0 < s.size.toNat :=
  ⟨{ withBuffer 0x100 16 (zeroReady .ecb) with raced := true }, _, rfl,
    execEncrypt_ok false { withBuffer 0x100 16 (zeroReady .ecb) with raced := true } (by decide), rfl, by decide⟩
/-- ResetStepKeepsDmem: an address outside the output range, one past DMEM, and a command in flight whose range leaves DMEM. -/
theorem witness_reset_in_flight :
    let s := latch 0x30 (withBuffer 0xFF8 16 (zeroReady .ecb))
    inOutputRange s 0xFF7 = false ∧ s.params.dmemSize ≤ 0x1000 ∧ runningBuffer s = some false ∧ 7 < s.size.toNat ∧
    outAddr false s + 7 < s.params.dmemSize := by decide
theorem witness_params : resetParams.wf = true := by decide

/-- StepKeepsTheInvariant: a keyed state with its schedule, and a step of it. -/
theorem witness_invariant : CoreInv (withMoves [.regWrite 0x000 4 0x30] (ready .cbc keyBytes)) where
  params := by decide
  key := ⟨fun _ => rfl, fun _ => by decide +kernel, fun h => by simp [withMoves, ready, keyed] at h⟩
  schedule := ⟨fun _ => rfl, fun _ => rfl, fun _ => rfl, fun _ => by
    have h : (bytesOf 32 keyBytes).toList.take 16 = keyBytes := by decide
    simp [withMoves, ready, keyed, h], fun h => by simp [withMoves, ready] at h⟩
  iv := ⟨fun _ => rfl, fun _ => rfl⟩
  status := ⟨fun h => by simp [withMoves, ready, keyed, State.reset] at h, fun h => by simp [withMoves, ready, keyed, State.reset] at h,
    by decide, by decide, fun h => by simp [withMoves, ready, keyed, State.reset] at h,
    fun h => by simp [withMoves, ready, keyed, State.reset] at h⟩
  dmem := ⟨by simp [withMoves, ready, keyed, State.reset], by simp [withMoves, ready, keyed, State.reset]⟩
theorem witness_invariant_step : ∃ t, step (withMoves [.regWrite 0x000 4 0x30] (ready .cbc keyBytes)) = .next t := ⟨_, rfl⟩
/-- WaitingHostMeetsNoDraw: `cmd NOP ; wait`, before and during the command. -/
theorem witness_disciplined : Disciplined (withMoves [.regWrite 0x000 4 0, .poll] State.reset) ∧
    Disciplined (withMoves [.poll] { latch 0 State.reset with wait := 1 }) :=
  ⟨⟨by decide, by decide, by decide⟩, ⟨by decide, by decide, by decide⟩⟩
theorem witness_disciplined_step : ∃ t, step (withMoves [.regWrite 0x000 4 0, .poll] State.reset) = .next t := ⟨_, rfl⟩
/-- DmemIsCanonical: canonical memories, and an address on each side of a range. -/
theorem witness_dmem_wf : Memory.wf [(0x100, 1), (0x101, 2)] ∧ ¬ (0x100 ≤ 0xFF ∧ 0xFF < 0x100 + 2) ∧
    ¬ (0x100 ≤ 0x102 ∧ 0x102 < 0x100 + 2) := by decide
/-- MultiplicationTableLaws, SboxIsAffineOfInverse: zero, one and the pair of V22. -/
theorem witness_inverse : (0x53 : Byte) ≠ 0 ∧ gfMul 0x53 0xCA = 1 ∧ gfMul 0x01 0x01 = 1 := by decide
/-- SetkeyLatchesTheStagedKey: each length and mode, and the lengths and modes next to them. -/
theorem witness_setkey : (∀ m : BitVec 2, m = 0 ∨ m = 1 ∨ m = 2 ↔ m ≠ 3) ∧
    legalKeyBits 128 = true ∧ legalKeyBits 192 = true ∧ legalKeyBits 256 = true ∧ legalKeyBits 127 = false ∧
    legalKeyBits 129 = false ∧ legalKeyBits 0 = false := by decide
theorem witness_setkey_state : ∃ s : State, s.cfgKeyBits = 192 ∧ s.cfgMode = 2 := ⟨{ State.reset with cfgKeyBits := 192, cfgMode := 2 }, rfl, rfl⟩
/-- ExpandDerivesTheSchedule: no key, and a key of each length; the words at both ends of the recurrence. -/
theorem witness_expand : State.reset.keyValid = false ∧ (keyed .ecb keyBytes).keyValid = true ∧ (keyed .ecb keyBytes).keybits = 128 ∧
    ({ keyed .ecb keyBytes with keybits := 192 } : State).keybits = 192 ∧
    ({ keyed .ecb keyBytes with keybits := 256 } : State).keybits = 256 ∧ 4 ≤ 4 ∧ 43 < 4 * (10 + 1) ∧ 16 * (10 + 1) ≤ 176 ∧ 239 < 240 := by decide
/-- BlockCipherCommands, AddrkXorsARoundKey, StepCommandsComposeToTheCipher: with and without a schedule, r = 0, Nr and Nr + 1. -/
theorem witness_schedule : (zeroReady .ecb).ksValid = true ∧ State.reset.ksValid = false ∧ 1 ≤ (zeroReady .ecb).nr.toNat ∧
    (0 : Byte).toNat ≤ (zeroReady .ecb).nr.toNat ∧ (10 : Byte).toNat ≤ (zeroReady .ecb).nr.toNat ∧
    (zeroReady .ecb).nr.toNat < (11 : Byte).toNat := by decide
/-- BufferChecksInOrder: each clause, n at 0, 1, 15 and 16, a range that ends at DMEM's end and one that ends after it. -/
theorem witness_buffer_checks :
    State.reset.src = 0 ∧
    ((withBuffer 1 0 State.reset).src ≠ 0 ∧ (withBuffer 1 0 State.reset).dst = 0) ∧
    ((withBuffer 1 0 State.reset).src ≠ 0 ∧ (withBuffer 1 0 State.reset).ksValid = false) ∧
    ((zeroReady .cbc).mode = .cbc ∧ (zeroReady .cbc).ksValid = true ∧ (zeroReady .cbc).ivValid = false) ∧
    ((withBuffer 1 0 (zeroReady .ecb)).size.toNat = 0 ∧ (withBuffer 1 1 (zeroReady .ecb)).size.toNat = 1 ∧
      (withBuffer 1 15 (zeroReady .ecb)).size.toNat = 15) ∧
    ((withBuffer 0xFF1 16 (zeroReady .ecb)).params.dmemSize < 0xFF1 + 16) ∧
    (checkBuffer .enc false (withBuffer 0xFF0 16 (zeroReady .ecb)) = none) ∧
    (checkBuffer .dec true { withBuffer 0xFF0 16 (zeroReady .ecb) with dst := 1 } = none) := by decide
theorem witness_pi_out_of_range :
    let s : State := { withBuffer 0x100 64 (zeroReady .pvs) with piaddr := 0xFE1, pilen := 32 }
    s.mode = .pvs ∧ piAvailable s = true ∧ s.params.dmemSize < s.piaddr.toNat + piBytesLen s := by decide
/-- EcbBufferCommands, CbcBufferCommands, PvsBufferCommands: ready buffers, both OUTSEL forms, with and without IV and π stream. -/
theorem witness_ecb_buffer : bufferReady false (withBuffer 0xFF0 16 (zeroReady .ecb)) ∧
    bufferReady true { withBuffer 0x100 17 (zeroReady .ecb) with dst := 0x200 } ∧ (zeroReady .ecb).raced = false := by
  unfold bufferReady; decide
theorem witness_cbc_buffer : bufferReady false (withBuffer 0x100 17 (zeroReady .cbc)) ∧
    (withBuffer 0x100 17 (zeroReady .cbc)).ivValid = false ∧
    bufferReady false { withBuffer 0x100 16 (zeroReady .cbc) with ivValid := true } := by unfold bufferReady; decide
theorem witness_pvs_buffer : bufferReady false { withBuffer 0x100 64 (zeroReady .pvs) with piaddr := 0xFE0, pilen := 63 } ∧
    bufferReady false { withBuffer 0x100 64 (zeroReady .pvs) with piaddr := 0xFE0, pilen := 31 } ∧
    bufferReady false (withBuffer 0x100 64 (zeroReady .pvs)) ∧ (zeroReady .pvs).params.pvsKeyOp = .scheduleBytes0To31 := by
  unfold bufferReady; decide
/-- EcbEncryptsBlocksThenTail, CbcChainsBlocksThenTail, EcbRoundTrip, CbcRoundTrip: the shortest buffer, one with a tail of one
byte, and two blocks. PvsXorPass: an operand of 256 bits. -/
theorem witness_buffers : 16 ≤ (List.replicate 16 (0 : Byte)).length ∧ 16 ≤ plain17.length ∧ 17 % 16 ≠ 0 ∧ 0 + 1 < 32 / 16 ∧
    2 ^ 256 - 1 < 2 ^ 256 := by decide
/-- EncryptThenDecryptRestoresDmem: an ENCRYPT that succeeds, with a π range next to the buffer. -/
theorem witness_encrypt_then_decrypt : ∃ s t, s.raced = false ∧ exec (.encrypt false) s = .next t ∧ t.err = false ∧ s.mode = .pvs ∧
    piAvailable s = true ∧ s.src.toNat + s.size.toNat ≤ s.piaddr.toNat :=
  ⟨{ withBuffer 0x100 64 (zeroReady .pvs) with piaddr := 0x140, pilen := 32 }, _, rfl,
    execEncrypt_ok false { withBuffer 0x100 64 (zeroReady .pvs) with piaddr := 0x140, pilen := 32 } (by decide), rfl, rfl,
    by decide, by decide⟩
/-- EcbLocality: two equal blocks. -/
theorem witness_locality : (List.replicate 32 (0 : Byte)).length % 16 = 0 ∧ 16 * 1 + 16 ≤ (List.replicate 32 (0 : Byte)).length ∧
    ((List.replicate 32 (0 : Byte)).drop (16 * 0)).take 16 = ((List.replicate 32 (0 : Byte)).drop (16 * 1)).take 16 := by decide
/-- CbcIvSensitivity, CbcShortBufferPrefixDiffers: two IVs, and the lengths 16, 17, 31 and 32. -/
theorem witness_ivs : (Vector.replicate 16 0 : Block) ≠ blockOf countBytes ∧ countBytes.length = 16 ∧
    (16 ≤ 16 ∧ 16 < 17 ∧ 17 < 32 ∧ 16 < 31 ∧ 31 < 32 ∧ 32 ≤ 32) := by decide
/-- IvCommands: keyed or not, IV set or not, schedule or not. -/
theorem witness_iv_commands : (keyed .cbc keyBytes).keyValid = true ∧ (keyed .cbc keyBytes).ivValid = false ∧
    State.reset.keyValid = false ∧ ({ keyed .cbc keyBytes with ivValid := true } : State).ivValid = true ∧
    (zeroReady .cbc).ksValid = true ∧ (zeroReady .cbc).ivValid = false ∧ State.reset.ksValid = false := by decide
/-- ControlCommandsAndLifecycle: a command that succeeds, one that fails, one beside a set IV. -/
theorem witness_lifecycle : (∃ t, exec .zeroize (zeroReady .cbc) = .next t ∧ t.err = false) ∧
    (∃ t, exec .expand State.reset = .next t ∧ t.err = true) ∧
    (({ zeroReady .cbc with ivValid := true } : State).ivValid = true ∧ Instr.geniv ≠ .setkey ∧ Instr.geniv ≠ .zeroize) :=
  ⟨⟨_, rfl, rfl⟩, ⟨_, rfl, rfl⟩, rfl, by decide, by decide⟩

/-! ### Completion: for each command a state that meets its statement's hypotheses, where it answers a next state without error -/

/-- Every command, from a state with key, schedule and buffer, and no IV. -/
theorem witness_every_command_completes (i : Instr) :
    i ∈ [.nop, .gfmul 0x57 0x83, .sbox 0x53, .invsbox 0xED, .expand, .setiv, .geniv, .encblk, .decblk, .subbytes, .invsubbytes] ++
      [.shiftrows, .invshiftrows, .mixcolumns, .invmixcolumns, .addrk 10, .zeroize] →
    ∃ t, exec i (zeroReady .ecb) = .next t ∧ t.err = false := by
  simp only [List.cons_append, List.nil_append, List.mem_cons, List.mem_nil_iff, or_false]
  rintro (rfl | rfl | rfl | rfl | rfl | rfl | rfl | rfl | rfl | rfl | rfl | rfl | rfl | rfl | rfl | rfl | rfl) <;> exact ⟨_, rfl, rfl⟩
theorem witness_setkey_completes : ∃ t, exec .setkey { State.reset with cfgKeyBits := 256, cfgMode := 2 } = .next t ∧ t.err = false :=
  ⟨_, rfl, rfl⟩
theorem witness_decrypt_completes : ∃ t, exec (.decrypt false) (withBuffer 0x100 17 (zeroReady .ecb)) = .next t ∧ t.err = false :=
  ⟨_, execDecrypt_ok false (withBuffer 0x100 17 (zeroReady .ecb)) (by decide), rfl⟩

end Sys2Proof.Machine.Tests
end

/-! SUPPORT. Proofs of the statements of spec/00_scope.md: how a step is chosen, what every step keeps, and that an accepted
command completes. -/

namespace Sys2Proof

/-- The word of a command decodes to that command (R117). -/
@[simp] theorem decode_encode (i : Instr) : decode (encode i) = .ok i := by
  cases i <;> simp [encode, decode_commandWord, decodeFields, needs]

end Sys2Proof

namespace Sys2Proof.Machine

/-! ### The step, case by case (R12, R54) -/

theorem step_of_last {s : State} (hb : s.busy = true) (hw : s.wait = 0) : step s = completeCommand s := by
  simp [step, hb, hw]

theorem step_of_running {s : State} {n : Nat} (hb : s.busy = true) (hw : s.wait = n + 1) :
    step s = hostStep { s with wait := n } := by
  simp [step, hb, hw]

theorem step_of_idle {s : State} (hb : s.busy = false) : step s = hostStep s := by
  simp [step, hb]

theorem hostStep_of_cons {s : State} {m : HostMove} {ms : List HostMove} (h : s.moves = m :: ms) :
    hostStep s = hostMove m { s with moves := ms } := by
  simp [hostStep, h]

theorem hostStep_of_nil {s : State} (h : s.moves = []) : hostStep s = .next s := by
  simp [hostStep, h]

theorem completeCommand_of_decode {s : State} {i : Instr} (h : decode s.cmd = .ok i) : completeCommand s = exec i s := by
  simp [completeCommand, h]

/-- The word given to `withFetchWord` is the one latched, for it has 32 bits. -/
theorem withFetchWord_eq_latch (s : State) (w : Word) : s.withFetchWord 32 w.toNat = latch w s := by
  simp only [State.withFetchWord, Nat.mod_eq_of_lt w.isLt, BitVec.ofNat_toNat, BitVec.setWidth_eq]

/-- Settles O6: each case is the equation of `step` or `hostStep` for it, and the word of `i` decodes to `i`. -/
theorem stepRunsTheDecodedCommand : Obligations.StepRunsTheDecodedCommand := by
  refine ⟨fun s i hb hw hd => ?_, fun s n => step_of_running, fun s => step_of_idle, fun s m ms => hostStep_of_cons,
    fun s => hostStep_of_nil, fun s i => ?_⟩
  · rw [step_of_last hb hw, completeCommand_of_decode hd]
  · rw [withFetchWord_eq_latch, step_of_last (latch_busy _ s) (latch_wait _ s), completeCommand_of_decode (i := i) (by simp)]

/-! ### What the host's accesses keep of the sequencer, the parameters and the host's own fields -/

@[simp] theorem readReg_busy (offset : Nat) (s : State) : (readReg offset s).2.busy = s.busy := by rw [readReg_frame]
@[simp] theorem readReg_wait (offset : Nat) (s : State) : (readReg offset s).2.wait = s.wait := by rw [readReg_frame]
@[simp] theorem readReg_params (offset : Nat) (s : State) : (readReg offset s).2.params = s.params := by rw [readReg_frame]
@[simp] theorem readReg_moves (offset : Nat) (s : State) : (readReg offset s).2.moves = s.moves := by rw [readReg_frame]
@[simp] theorem readReg_hostLog (offset : Nat) (s : State) : (readReg offset s).2.hostLog = s.hostLog := by rw [readReg_frame]

@[simp] theorem hostReadBytes_busy (a n : Nat) (s : State) : (hostReadBytes a n s).2.busy = s.busy := by
  rw [hostReadBytes_frame]
@[simp] theorem hostReadBytes_wait (a n : Nat) (s : State) : (hostReadBytes a n s).2.wait = s.wait := by
  rw [hostReadBytes_frame]
@[simp] theorem hostReadBytes_params (a n : Nat) (s : State) : (hostReadBytes a n s).2.params = s.params := by
  rw [hostReadBytes_frame]
@[simp] theorem hostReadBytes_moves (a n : Nat) (s : State) : (hostReadBytes a n s).2.moves = s.moves := by
  rw [hostReadBytes_frame]
@[simp] theorem hostReadBytes_hostLog (a n : Nat) (s : State) : (hostReadBytes a n s).2.hostLog = s.hostLog := by
  rw [hostReadBytes_frame]

@[simp] theorem hostWriteBytes_busy (a : Nat) (bs : List Byte) (s : State) : (hostWriteBytes a bs s).busy = s.busy := by
  rw [hostWriteBytes_frame]
@[simp] theorem hostWriteBytes_wait (a : Nat) (bs : List Byte) (s : State) : (hostWriteBytes a bs s).wait = s.wait := by
  rw [hostWriteBytes_frame]
@[simp] theorem hostWriteBytes_params (a : Nat) (bs : List Byte) (s : State) : (hostWriteBytes a bs s).params = s.params := by
  rw [hostWriteBytes_frame]
@[simp] theorem hostWriteBytes_moves (a : Nat) (bs : List Byte) (s : State) : (hostWriteBytes a bs s).moves = s.moves := by
  rw [hostWriteBytes_frame]
@[simp] theorem hostWriteBytes_hostLog (a : Nat) (bs : List Byte) (s : State) : (hostWriteBytes a bs s).hostLog = s.hostLog := by
  rw [hostWriteBytes_frame]

/-- What a register write can do: set DROP, accept the word, store a register, or nothing (R31, R33, R58). -/
theorem writeReg_cases (offset : Nat) (v : Word) (s : State) :
    writeReg offset v s = s ∨ (s.busy = true ∧ writeReg offset v s = { s with drop := true }) ∨
    (s.busy = false ∧ writeReg offset v s = accept v s) ∨
    (s.busy = false ∧ ∃ r, writeReg offset v s = storeReg r v s) := by
  rcases Bool.eq_false_or_eq_true s.busy with hb | hb
  · rw [writeReg_busy offset v s hb]
    split
    · exact .inr (.inl ⟨hb, rfl⟩)
    · exact .inl rfl
  · by_cases hc : regAt offset = some .cmd
    · exact .inr (.inr (.inl ⟨hb, writeReg_cmd_idle offset v s hb hc⟩))
    · rw [writeReg_idle offset v s hb hc]
      cases regAt offset with
      | none => exact .inl rfl
      | some r => exact .inr (.inr (.inr ⟨hb, r, rfl⟩))

/-- A register write leaves the parameters, the moves to come and the record of reads. -/
theorem writeReg_keeps_hostFields (offset : Nat) (v : Word) (s : State) : (writeReg offset v s).params = s.params ∧
    (writeReg offset v s).moves = s.moves ∧ (writeReg offset v s).hostLog = s.hostLog := by
  rcases writeReg_cases offset v s with h | ⟨-, h⟩ | ⟨-, h⟩ | ⟨-, r, h⟩
  · simp [h]
  · simp [h]
  · simp [h, accept]
  · rw [h, storeReg_frame]; simp

/-- While a command runs, a register write leaves it running, with as many core steps to go (R58, R301). -/
theorem writeReg_running (offset : Nat) (v : Word) (s : State) (hb : s.busy = true) :
    (writeReg offset v s).busy = true ∧ (writeReg offset v s).wait = s.wait := by
  rw [writeReg_busy offset v s hb]
  split
  · exact ⟨hb, rfl⟩
  · exact ⟨hb, rfl⟩

/-! ### The parameters and the record of reads (logs 1 and 15) -/

/-- `t` has the parameters of `s`, and the record of reads of `s` with at most one entry more. -/
def KeepsParamsAndRecord (s t : State) : Prop :=
  t.params = s.params ∧ (t.hostLog = s.hostLog ∨ ∃ r, t.hostLog = r :: s.hostLog)

theorem hostMove_keepsParamsAndRecord {m : HostMove} {s t : State} (h : hostMove m s = .next t) : KeepsParamsAndRecord s t := by
  rcases hostMove_cases h with ⟨offset, width, -, -, -, rfl⟩ | ⟨offset, width, v, -, -, -, rfl⟩ | ⟨addr, width, -, -, -, rfl⟩ |
    ⟨addr, width, v, -, -, -, rfl⟩ | ⟨-, rfl⟩ | ⟨-, rfl⟩
  · exact ⟨by simp, .inr ⟨_, by rw [logRead_hostLog, readReg_hostLog]⟩⟩
  · obtain ⟨hp, -, hl⟩ := writeReg_keeps_hostFields offset v s
    exact ⟨hp, .inl hl⟩
  · exact ⟨by simp, .inr ⟨_, by rw [logRead_hostLog, hostReadBytes_hostLog]⟩⟩
  · exact ⟨by simp, .inl (by simp)⟩
  · split <;> exact ⟨rfl, .inr ⟨_, rfl⟩⟩
  · exact ⟨rfl, .inl rfl⟩

theorem hostStep_keepsParamsAndRecord {s t : State} (h : hostStep s = .next t) : KeepsParamsAndRecord s t := by
  rcases hostStep_cases h with ⟨-, rfl⟩ | ⟨m, rest, -, hm⟩
  · exact ⟨rfl, .inl rfl⟩
  · exact hostMove_keepsParamsAndRecord (s := { s with moves := rest }) hm

/-- A completion, legal or not, is idle with DONE set, and keeps the parameters and the record of reads (R54, R296). -/
theorem completeCommand_ends {s t : State} (h : completeCommand s = .next t) :
    t.busy = false ∧ t.done = true ∧ t.params = s.params ∧ t.hostLog = s.hostLog := by
  rcases completeCommand_cases h with ⟨i, -, hi⟩ | ⟨-, -, rfl⟩
  · rcases exec_ends i s with ⟨e, he⟩ | ⟨u, hu, -, -, hp, -, -, hl⟩
    · cases he.symm.trans hi; exact ⟨rfl, rfl, rfl, rfl⟩
    · cases hu.symm.trans hi; exact ⟨rfl, rfl, hp, hl⟩
  · exact ⟨rfl, rfl, rfl, rfl⟩

/-- Settles O28: a step is a completion, which keeps both, or a host step, which adds at most the read it makes. -/
theorem stepKeepsParametersAndRecord : Obligations.StepKeepsParametersAndRecord := by
  intro s t h
  rcases step_cases h with ⟨-, -, hc⟩ | ⟨-, n, -, hs⟩ | ⟨-, hs⟩
  · obtain ⟨-, -, hp, hl⟩ := completeCommand_ends hc
    exact ⟨hp, .inl hl⟩
  · exact hostStep_keepsParamsAndRecord (s := { s with wait := n }) hs
  · exact hostStep_keepsParamsAndRecord hs

/-! ### A run of a command's core steps (R54, R333) -/

theorem run_succ_of_step {s u : State} (k : Nat) (h : step s = .next u) :
    Sys2Proof.core.run (k + 1) s = Sys2Proof.core.run k u := by
  have hc : Sys2Proof.core.step s = .next u := h
  simp only [Host.Core.run, hc]

theorem run_one (s : State) : Sys2Proof.core.run 1 s = step s := by
  have hc : Sys2Proof.core.step s = step s := rfl
  simp only [Host.Core.run, hc]
  cases step s <;> rfl

/-- A run that is served takes its first step. -/
theorem run_succ_cases {s t : State} {k : Nat} (h : Sys2Proof.core.run (k + 1) s = .next t) :
    ∃ u, step s = .next u ∧ Sys2Proof.core.run k u = .next t := by
  simp only [Host.Core.run] at h
  split at h
  · next u hu => exact ⟨u, hu, h⟩
  · cases h
  · cases h

/-- With a silent host the core steps pass, and the completion is that of the accepted state. -/
theorem run_silent (n : Nat) (s : State) (hb : s.busy = true) (hw : s.wait = n) (hm : s.moves = []) :
    Sys2Proof.core.run (n + 1) s = completeCommand { s with wait := 0 } := by
  induction n generalizing s with
  | zero =>
    have hs : { s with wait := 0 } = s := by rw [← hw]
    rw [run_one, step_of_last hb hw, hs]
  | succ n ih =>
    have hstep : step s = .next { s with wait := n } := by
      rw [step_of_running hb hw]
      exact hostStep_of_nil hm
    rw [run_succ_of_step _ hstep]
    exact ih { s with wait := n } hb rfl hm

/-- A move that is no reset leaves a running command running, with as many core steps to go; the moves to come stay, or are those
with the poll made before them again (R132). -/
theorem hostMove_running {m : HostMove} {s t : State} (h : hostMove m s = .next t) (hb : s.busy = true) (hm : m ≠ .reset) :
    t.busy = true ∧ t.wait = s.wait ∧ (t.moves = s.moves ∨ t.moves = m :: s.moves) := by
  rcases hostMove_cases h with ⟨offset, width, -, -, -, rfl⟩ | ⟨offset, width, v, -, -, -, rfl⟩ | ⟨addr, width, -, -, -, rfl⟩ |
    ⟨addr, width, v, -, -, -, rfl⟩ | ⟨rfl, rfl⟩ | ⟨rfl, -⟩
  · simp [hb]
  · obtain ⟨hb', hw⟩ := writeReg_running offset v s hb
    obtain ⟨-, hms, -⟩ := writeReg_keeps_hostFields offset v s
    exact ⟨hb', hw, .inl hms⟩
  · simp [hb]
  · simp [hb]
  · simp [hb]
  · exact absurd rfl hm

/-- A core step beside which the host makes no reset: one core step less to go, and no move to come in them is new. -/
theorem step_running {s t : State} {n : Nat} (h : step s = .next t) (hb : s.busy = true) (hw : s.wait = n + 1)
    (hm : ∀ m ∈ s.moves.take (n + 1), m ≠ .reset) :
    t.busy = true ∧ t.wait = n ∧ ∀ m ∈ t.moves.take n, m ≠ .reset := by
  rw [step_of_running hb hw] at h
  rcases hostStep_cases h with ⟨hnil, rfl⟩ | ⟨m, rest, hcons, hmove⟩
  · simp only at hnil
    exact ⟨hb, rfl, by simp [hnil]⟩
  · simp only at hcons
    rw [hcons, List.take_succ_cons] at hm
    obtain ⟨hb', hw', hms⟩ := hostMove_running hmove hb (hm m List.mem_cons_self)
    refine ⟨hb', hw', fun x hx => hm x ?_⟩
    rcases hms with hms | hms
    · rw [hms] at hx
      exact List.mem_cons_of_mem m hx
    · rw [hms] at hx
      rw [← List.take_succ_cons]
      exact List.take_subset_take_left _ (Nat.le_succ n) hx

/-- With no reset among the moves the remaining core steps can take, a run of them that is served ends in a completion. -/
theorem run_ends_idle (n : Nat) (s t : State) (hb : s.busy = true) (hw : s.wait = n) (hm : ∀ m ∈ s.moves.take n, m ≠ .reset)
    (h : Sys2Proof.core.run (n + 1) s = .next t) : t.busy = false ∧ t.done = true := by
  induction n generalizing s with
  | zero =>
    rw [run_one, step_of_last hb hw] at h
    obtain ⟨hidle, hdone, -, -⟩ := completeCommand_ends h
    exact ⟨hidle, hdone⟩
  | succ n ih =>
    obtain ⟨u, hstep, hrun⟩ := run_succ_cases h
    obtain ⟨hb', hw', hm'⟩ := step_running hstep hb hw hm
    exact ih u hb' hw' hm' hrun

/-- Settles O12, by induction on the core steps that remain. -/
theorem acceptedCommandCompletes : Obligations.AcceptedCommandCompletes :=
  ⟨fun s hb hm => run_silent s.wait s hb rfl hm, fun s t hb hm h => run_ends_idle s.wait s t hb rfl hm h⟩

end Sys2Proof.Machine

/-! SUPPORT. Proofs of the statements of spec/10_state.md: what a command writes, what every step keeps, and the register space. -/

namespace Sys2Proof.Machine

/-! ### What a command that succeeds leaves, before the completion's own fields (R54, R60) -/

/-- `Succeeds s i u`: from `s` command `i` passes its checks, and its effect is `u`. -/
inductive Succeeds (s : State) : Instr → State → Prop
  | nop : Succeeds s .nop s
  | gfmul (a b : Byte) : Succeeds s (.gfmul a b) { s with result := multiply a b }
  | sbox (a : Byte) : Succeeds s (.sbox a) { s with result := sbox a }
  | invsbox (a : Byte) : Succeeds s (.invsbox a) { s with result := invSbox a }
  | setkey (m : Mode) (legal : legalKeyBits s.cfgKeyBits = true) (mode : Mode.ofBits s.cfgMode = some m) :
    Succeeds s .setkey (clearIv (clearSchedule
      { s with key := stagedKey s, keybits := s.cfgKeyBits, mode := m, keyValid := true }))
  | expand (keyed : s.keyValid = true) :
    Succeeds s .expand { s with ks := bytesOf 240 (Machine.expand (s.key.toList.take (4 * latchedNk s)) (latchedNk s)),
                                nk := BitVec.ofNat 4 (latchedNk s), nr := BitVec.ofNat 5 (latchedNk s + 6), ksValid := true }
  | setiv (keyed : s.keyValid = true) (fresh : s.ivValid = false) : Succeeds s .setiv { s with iv := s.ivin, ivValid := true }
  | geniv (scheduled : s.ksValid = true) (fresh : s.ivValid = false) :
    Succeeds s .geniv { s with iv := ivGen s, ivValid := true }
  | encblk (scheduled : s.ksValid = true) : Succeeds s .encblk { s with blk := encBlock s s.blk }
  | decblk (scheduled : s.ksValid = true) : Succeeds s .decblk { s with blk := decBlock s s.blk }
  | subbytes : Succeeds s .subbytes { s with blk := subBytes s.blk }
  | invsubbytes : Succeeds s .invsubbytes { s with blk := invSubBytes s.blk }
  | shiftrows : Succeeds s .shiftrows { s with blk := shiftRows s.blk }
  | invshiftrows : Succeeds s .invshiftrows { s with blk := invShiftRows s.blk }
  | mixcolumns : Succeeds s .mixcolumns { s with blk := mixColumns s.blk }
  | invmixcolumns : Succeeds s .invmixcolumns { s with blk := invMixColumns s.blk }
  | addrk (r : Byte) (scheduled : s.ksValid = true) (round : r.toNat ≤ s.nr.toNat) :
    Succeeds s (.addrk r) { s with blk := addRoundKey s.ks s.blk r.toNat }
  | encrypt (o : Bool) (checked : checkBuffer .enc o s = none) :
    Succeeds s (.encrypt o) (writeOutput o (encryptBytes (assignMissingIv s) (inputBytes s))
      { assignMissingIv s with pvsdeg := pvsDegrades s })
  | decrypt (o : Bool) (checked : checkBuffer .dec o s = none) :
    Succeeds s (.decrypt o) (writeOutput o (decryptBytes s (inputBytes s)) { s with pvsdeg := pvsDegrades s })
  | zeroize : Succeeds s .zeroize (clearIv (clearSchedule
      { s with key := Vector.replicate 32 0, keybits := 0, mode := .ecb, keyValid := false, blk := Vector.replicate 16 0,
               result := 0, keyin := Vector.replicate 32 0, ivin := Vector.replicate 16 0 }))

/-- A command guarded by one check ends in its error, or passes the check and completes. -/
theorem guarded_cases {c : Prop} [Decidable c] {r : Result} {e : CmdError} {s t : State}
    (h : (if c then r else raise e s) = .next t) : t = errorState e s ∨ (c ∧ r = .next t) := by
  split at h
  · next hc => exact .inr ⟨hc, h⟩
  · cases h; exact .inl rfl

/-- A completed command gives the one next state it names. -/
theorem eq_of_complete {u t : State} (h : complete u = .next t) : t = completed u := by cases h; rfl

/-- `t` is an end of command `i` from `s`: the state of an error, or the completion of the command's effect. -/
def EndsIn (i : Instr) (s t : State) : Prop := (∃ e, t = errorState e s) ∨ ∃ u, Succeeds s i u ∧ t = completed u

theorem EndsIn.success {i : Instr} {s t u : State} (hu : Succeeds s i u) (h : complete u = .next t) : EndsIn i s t :=
  .inr ⟨u, hu, eq_of_complete h⟩

theorem EndsIn.error {i : Instr} {s t : State} {e : CmdError} (h : t = errorState e s) : EndsIn i s t := .inl ⟨e, h⟩

/-- Everything a command can do: end in an error, or pass its checks and complete (R54, R290). -/
theorem exec_cases {i : Instr} {s t : State} (h : exec i s = .next t) : EndsIn i s t := by
  cases i with
  | nop => exact .success .nop h
  | gfmul a b => exact .success (.gfmul a b) h
  | sbox a => exact .success (.sbox a) h
  | invsbox a => exact .success (.invsbox a) h
  | setkey =>
    obtain he | ⟨hlegal, h⟩ := guarded_cases h
    · exact .error he
    · split at h
      · cases h; exact .error rfl
      · next m hm => exact .success (.setkey m hlegal hm) h
  | expand =>
    obtain he | ⟨hkey, h⟩ := guarded_cases h
    · exact .error he
    · exact .success (.expand hkey) h
  | setiv =>
    obtain he | ⟨hkey, h⟩ := guarded_cases h
    · exact .error he
    · split at h
      · cases h; exact .error rfl
      · next hiv => exact .success (.setiv hkey (by simpa using hiv)) h
  | geniv =>
    obtain he | ⟨hks, h⟩ := guarded_cases h
    · exact .error he
    · split at h
      · cases h; exact .error rfl
      · next hiv => exact .success (.geniv hks (by simpa using hiv)) h
  | encblk =>
    obtain he | ⟨hks, h⟩ := guarded_cases h
    · exact .error he
    · exact .success (.encblk hks) h
  | decblk =>
    obtain he | ⟨hks, h⟩ := guarded_cases h
    · exact .error he
    · exact .success (.decblk hks) h
  | subbytes => exact .success .subbytes h
  | invsubbytes => exact .success .invsubbytes h
  | shiftrows => exact .success .shiftrows h
  | invshiftrows => exact .success .invshiftrows h
  | mixcolumns => exact .success .mixcolumns h
  | invmixcolumns => exact .success .invmixcolumns h
  | addrk r =>
    obtain he | ⟨hks, h⟩ := guarded_cases h
    · exact .error he
    · obtain he | ⟨hround, h⟩ := guarded_cases h
      · exact .error he
      · exact .success (.addrk r hks hround) h
  | encrypt o =>
    cases hc : checkBuffer .enc o s with
    | some e => exact .error (by cases (execEncrypt_error o s e hc).symm.trans h; rfl)
    | none => exact .success (.encrypt o hc) ((execEncrypt_ok o s hc).symm.trans h)
  | decrypt o =>
    cases hc : checkBuffer .dec o s with
    | some e => exact .error (by cases (execDecrypt_error o s e hc).symm.trans h; rfl)
    | none => exact .success (.decrypt o hc) ((execDecrypt_ok o s hc).symm.trans h)
  | zeroize => exact .success .zeroize h

/-! ### The invariant of the core (R34 to R37, R51 to R54, R80, R323) -/

/-- The fields the key, schedule and IV invariants speak of. -/
def keyMaterial (s : State) :
    (Vector Byte 32 × BitVec 16 × Mode × Bool) × (Vector Byte 240 × BitVec 4 × BitVec 5 × Bool) × Block × Bool :=
  ((s.key, s.keybits, s.mode, s.keyValid), (s.ks, s.nk, s.nr, s.ksValid), s.iv, s.ivValid)

/-- The fields the STATUS invariant speaks of. -/
def sequencer (s : State) : Bool × Bool × Bool × BitVec 4 × Bool × Bool × Bool :=
  (s.busy, s.done, s.err, s.errcode, s.pvsdeg, s.drop, s.raced)

/-- The key, the schedule and the IV belong together (R51 to R53, R323). -/
structure KeyMaterialInv (s : State) : Prop where
  key : KeyInv s
  schedule : ScheduleInv s
  iv : IvInv s

/-- DMEM's invariant and that of the parameters its size comes from. -/
structure MemoryInv (s : State) : Prop where
  params : s.params.wf = true
  dmem : DmemInv s

theorem coreInv_iff (s : State) : CoreInv s ↔ KeyMaterialInv s ∧ StatusInv s ∧ MemoryInv s :=
  ⟨fun h => ⟨⟨h.key, h.schedule, h.iv⟩, h.status, ⟨h.params, h.dmem⟩⟩,
   fun ⟨hk, hs, hm⟩ => ⟨hm.params, hk.key, hk.schedule, hk.iv, hs, hm.dmem⟩⟩

/-- The key material's invariant depends on nothing but the key material. -/
theorem KeyMaterialInv.congr {s t : State} (h : KeyMaterialInv s) (e : keyMaterial t = keyMaterial s) : KeyMaterialInv t := by
  simp only [keyMaterial, Prod.mk.injEq] at e
  obtain ⟨⟨ek, eb, em, ev⟩, ⟨es, enk, enr, esv⟩, ei, eiv⟩ := e
  obtain ⟨hk, hs, hi⟩ := h
  refine ⟨?_, ?_, ?_⟩
  · constructor
    · rw [ev, eb]; exact hk.legal
    · rw [ev, eb, ek]; exact hk.padded
    · rw [ev, eb, em, ek]; exact hk.empty
  · constructor
    · rw [esv, ev]; exact hs.keyed
    · rw [esv, enk, eb]; exact hs.nk
    · rw [esv, enr, enk]; exact hs.nr
    · rw [esv, es, ek, enk]; exact hs.expanded
    · rw [esv, enk, enr, es]; exact hs.empty
  · constructor
    · rw [eiv, ev]; exact hi.keyed
    · rw [eiv, ei]; exact hi.empty

/-- The STATUS invariant depends on nothing but the sequencer's fields. -/
theorem statusInv_congr {s t : State} (h : StatusInv s) (e : sequencer t = sequencer s) : StatusInv t := by
  simp only [sequencer, Prod.mk.injEq] at e
  obtain ⟨eb, ed, ee, ec, ep, eo, er⟩ := e
  constructor
  · rw [eb, ed, ee, ep]; exact h.running
  · rw [ee, ed]; exact h.outcome
  · rw [ee, ec]; exact h.code
  · rw [ec]; exact h.codeRange
  · rw [eo, eb, ed]; exact h.dropped
  · rw [er, eb]; exact h.raced

theorem MemoryInv.congr {s t : State} (h : MemoryInv s) (ed : t.dmem = s.dmem) (ep : t.params = s.params) : MemoryInv t :=
  ⟨ep ▸ h.params, ed ▸ h.dmem.wf, by rw [ed, ep]; exact h.dmem.bounded⟩

/-- A state with the key material, sequencer, DMEM and parameters of one that meets the invariant meets it. -/
theorem coreInv_congr {s t : State} (h : CoreInv s) (ek : keyMaterial t = keyMaterial s) (es : sequencer t = sequencer s)
    (ed : t.dmem = s.dmem) (ep : t.params = s.params) : CoreInv t := by
  rw [coreInv_iff] at h ⊢
  obtain ⟨hk, hs, hm⟩ := h
  exact ⟨hk.congr ek, statusInv_congr hs es, hm.congr ed ep⟩

/-- A range write that ends inside DMEM keeps it canonical and inside its size (R80). -/
theorem MemoryInv.writeBytes {s t : State} {a : Nat} {bs : List Byte} (h : MemoryInv s) (hr : a + bs.length ≤ s.params.dmemSize)
    (ed : t.dmem = s.dmem.writeBytes a bs) (ep : t.params = s.params) : MemoryInv t := by
  refine ⟨ep ▸ h.params, ed ▸ Memory.writeBytes_wf _ _ _ h.dmem.wf, fun c hc => ?_⟩
  rw [ep]
  rw [ed] at hc
  rcases Memory.mem_writeBytes _ _ _ _ hc with hc | ⟨-, hc⟩
  · exact h.dmem.bounded c hc
  · omega

/-! #### STATUS at acceptance and at the two ends of a command -/

theorem statusInv_accept (v : Word) (s : State) : StatusInv (accept v s) := by
  constructor <;> simp [accept]

theorem statusInv_completed (s : State) : StatusInv (completed s) := by
  constructor <;> simp

theorem statusInv_errorState (e : CmdError) (s : State) : StatusInv (errorState e s) := by
  constructor <;> simp [code_le]

/-- Dropping a command of a running core shows in DROP only (R38). -/
theorem statusInv_drop {s : State} (h : StatusInv s) (hb : s.busy = true) : StatusInv { s with drop := true } :=
  ⟨h.running, h.outcome, h.code, h.codeRange, fun _ => .inl hb, h.raced⟩

/-- A race is recorded only while a command runs (R98). -/
theorem statusInv_hostWriteBytes {s : State} (h : StatusInv s) (a : Nat) (bs : List Byte) : StatusInv (hostWriteBytes a bs s) := by
  have raced : (hostWriteBytes a bs s).raced = true → s.busy = true := by
    rw [hostWriteBytes_raced]
    rintro (hr | ⟨x, -, -, hx⟩)
    · exact h.raced hr
    · by_contra hb
      simp [inRunningRanges_idle s x (by simpa using hb)] at hx
  rw [hostWriteBytes_frame]
  exact ⟨h.running, h.outcome, h.code, h.codeRange, h.dropped, raced⟩

/-! #### Reset (R59, R320) -/

/-- With no key, schedule or IV, everything is zero. -/
theorem keyInv_cleared {s : State} (hb : s.keybits = 0) (hm : s.mode = .ecb) (hk : s.key = Vector.replicate 32 0)
    (hv : s.keyValid = false) : KeyInv s := by
  constructor <;> simp [hb, hm, hk, hv]

theorem scheduleInv_cleared {s : State} (hk : s.ks = Vector.replicate 240 0) (hnk : s.nk = 0) (hnr : s.nr = 0)
    (hv : s.ksValid = false) : ScheduleInv s := by
  constructor <;> simp [hk, hnk, hnr, hv]

theorem ivInv_cleared {s : State} (hi : s.iv = Vector.replicate 16 0) (hv : s.ivValid = false) : IvInv s := by
  constructor <;> simp [hi, hv]

theorem keyMaterialInv_reset : KeyMaterialInv State.reset :=
  ⟨keyInv_cleared rfl rfl rfl rfl, scheduleInv_cleared rfl rfl rfl rfl, ivInv_cleared rfl rfl⟩

theorem statusInv_reset : StatusInv State.reset := by constructor <;> simp [State.reset]

/-- Settles O25: DMEM lists nothing at reset, and no valid flag is set. -/
theorem invariantHoldsAtReset : Obligations.InvariantHoldsAtReset := by
  intro p hp
  rw [coreInv_iff]
  refine ⟨keyMaterialInv_reset.congr rfl, statusInv_congr statusInv_reset rfl, hp, ?_⟩
  exact ⟨List.Pairwise.nil, nofun⟩

/-- The draws a reset in flight writes end where DMEM ends (R321; log 9). -/
theorem memoryInv_resetState {s : State} (h : MemoryInv s) : MemoryInv (resetState s) := by
  cases hr : runningBuffer s with
  | none => exact h.congr (by simp [resetState, resetDmem, hr]) rfl
  | some o =>
    by_cases hin : outAddr o s ≤ s.params.dmemSize
    · refine h.writeBytes (a := outAddr o s) ?_ (by simp only [resetState, resetDmem, hr]; rfl) rfl
      rw [freeBytes_length]
      omega
    · have hn : min s.size.toNat (s.params.dmemSize - outAddr o s) = 0 := by omega
      exact h.congr (by simp [resetState, resetDmem, hr, hn, freeBytes, Memory.writeBytes]) rfl

theorem coreInv_resetState {s : State} (h : CoreInv s) : CoreInv (resetState s) := by
  rw [coreInv_iff] at h ⊢
  obtain ⟨-, -, hm⟩ := h
  exact ⟨keyMaterialInv_reset.congr rfl, statusInv_congr statusInv_reset rfl, memoryInv_resetState hm⟩

/-! #### The moves of the host -/

theorem coreInv_writeReg {s : State} (h : CoreInv s) (offset : Nat) (v : Word) : CoreInv (writeReg offset v s) := by
  rcases writeReg_cases offset v s with e | ⟨hb, e⟩ | ⟨-, e⟩ | ⟨-, r, e⟩
  · rw [e]; exact h
  · rw [coreInv_iff] at h ⊢
    obtain ⟨hk, hs, hm⟩ := h
    rw [e]
    exact ⟨hk.congr rfl, statusInv_drop hs hb, hm.congr rfl rfl⟩
  · rw [coreInv_iff] at h ⊢
    obtain ⟨hk, -, hm⟩ := h
    rw [e]
    exact ⟨hk.congr rfl, statusInv_accept v s, hm.congr rfl rfl⟩
  · rw [e, storeReg_frame]
    exact coreInv_congr h rfl rfl rfl rfl

theorem coreInv_hostWriteBytes {s : State} (h : CoreInv s) {a : Nat} {bs : List Byte} (hr : a + bs.length ≤ s.params.dmemSize) :
    CoreInv (hostWriteBytes a bs s) := by
  rw [coreInv_iff] at h ⊢
  obtain ⟨hk, hs, hm⟩ := h
  refine ⟨hk.congr (by rw [hostWriteBytes_frame]; rfl), statusInv_hostWriteBytes hs a bs, ?_⟩
  exact hm.writeBytes hr (hostWriteBytes_dmem a bs s) (hostWriteBytes_params a bs s)

theorem hostMove_keeps_coreInv {m : HostMove} {s t : State} (hs : CoreInv s) (h : hostMove m s = .next t) : CoreInv t := by
  rcases hostMove_cases h with ⟨offset, width, -, -, -, rfl⟩ | ⟨offset, width, v, -, -, -, rfl⟩ | ⟨addr, width, -, -, -, rfl⟩ |
    ⟨addr, width, v, -, -, hin, rfl⟩ | ⟨-, rfl⟩ | ⟨-, rfl⟩
  · rw [readReg_frame]; exact coreInv_congr hs rfl rfl rfl rfl
  · exact coreInv_writeReg hs offset v
  · rw [hostReadBytes_frame]; exact coreInv_congr hs rfl rfl rfl rfl
  · exact coreInv_hostWriteBytes hs (by rwa [leBytes_length])
  · split <;> exact coreInv_congr hs rfl rfl rfl rfl
  · exact coreInv_resetState hs

theorem hostStep_keeps_coreInv {s t : State} (hs : CoreInv s) (h : hostStep s = .next t) : CoreInv t := by
  rcases hostStep_cases h with ⟨-, rfl⟩ | ⟨m, rest, -, hm⟩
  · exact hs
  · exact hostMove_keeps_coreInv (s := { s with moves := rest }) (coreInv_congr hs rfl rfl rfl rfl) hm

/-! #### The commands -/

/-- The three legal key lengths (R41). -/
theorem legalKeyBits_iff (kb : BitVec 16) : legalKeyBits kb = true ↔ kb = 128 ∨ kb = 192 ∨ kb = 256 := by
  simp [legalKeyBits, or_assoc]

/-- Nk of a legal key length fits its field, and so does Nr (R172). -/
theorem latchedNk_le {s : State} (h : legalKeyBits s.keybits = true) : latchedNk s ≤ 8 := by
  rcases (legalKeyBits_iff _).mp h with h | h | h <;> simp [latchedNk, h]

/-- The staged key is zero past the bytes KEYBITS names (R170). -/
theorem stagedKey_padded (s : State) (i : Fin 32) (h : s.cfgKeyBits.toNat / 8 ≤ i.val) : (stagedKey s)[i] = 0 := by
  change (stagedKey s)[i.val] = 0
  rw [stagedKey, bytesOf_getElem, List.getD_eq_getElem?_getD, List.getElem?_eq_none (by simp; omega), Option.getD_none]

/-- A key of legal length with its padding, no schedule and no IV: what SETKEY leaves (R170). -/
theorem keyMaterialInv_setkey {s : State} (m : Mode) (hl : legalKeyBits s.cfgKeyBits = true) :
    KeyMaterialInv (clearIv (clearSchedule
      { s with key := stagedKey s, keybits := s.cfgKeyBits, mode := m, keyValid := true })) :=
  ⟨⟨fun _ => hl, fun _ => stagedKey_padded s, nofun⟩, scheduleInv_cleared rfl rfl rfl rfl, ivInv_cleared rfl rfl⟩

/-- The schedule of the latched key (R180). -/
theorem keyMaterialInv_expand {s : State} (h : KeyMaterialInv s) (hk : s.keyValid = true) :
    KeyMaterialInv { s with ks := bytesOf 240 (expand (s.key.toList.take (4 * latchedNk s)) (latchedNk s)),
                            nk := BitVec.ofNat 4 (latchedNk s), nr := BitVec.ofNat 5 (latchedNk s + 6), ksValid := true } := by
  obtain ⟨hkey, -, hiv⟩ := h
  have hle := latchedNk_le (hkey.legal hk)
  have hnk : (BitVec.ofNat 4 (latchedNk s)).toNat = latchedNk s := by rw [BitVec.toNat_ofNat]; omega
  have hnr : (BitVec.ofNat 5 (latchedNk s + 6)).toNat = latchedNk s + 6 := by rw [BitVec.toNat_ofNat]; omega
  refine ⟨⟨hkey.legal, hkey.padded, hkey.empty⟩, ⟨fun _ => hk, fun _ => hnk, fun _ => ?_, fun _ => ?_, nofun⟩,
    ⟨hiv.keyed, hiv.empty⟩⟩
  · simp only [hnk, hnr]
  · simp only [hnk]

/-- An IV set beside a latched key (R274 to R276). -/
theorem keyMaterialInv_setIv {s : State} (h : KeyMaterialInv s) (hk : s.keyValid = true) (v : Block) :
    KeyMaterialInv { s with iv := v, ivValid := true } := by
  obtain ⟨hkey, hsch, -⟩ := h
  exact ⟨⟨hkey.legal, hkey.padded, hkey.empty⟩, ⟨hsch.keyed, hsch.nk, hsch.nr, hsch.expanded, hsch.empty⟩,
    ⟨fun _ => hk, nofun⟩⟩

theorem keyMaterialInv_assignMissingIv {s : State} (h : KeyMaterialInv s) (hk : s.keyValid = true) :
    KeyMaterialInv (assignMissingIv s) := by
  by_cases hc : s.mode = .cbc ∧ s.ivValid = false
  · rw [assignMissingIv_of s hc.1 hc.2]
    exact keyMaterialInv_setIv h hk _
  · rwa [assignMissingIv_of_not s hc]

theorem keyMaterialInv_zeroize (s : State) :
    KeyMaterialInv (clearIv (clearSchedule
      { s with key := Vector.replicate 32 0, keybits := 0, mode := .ecb, keyValid := false, blk := Vector.replicate 16 0,
               result := 0, keyin := Vector.replicate 32 0, ivin := Vector.replicate 16 0 })) :=
  ⟨keyInv_cleared rfl rfl rfl rfl, scheduleInv_cleared rfl rfl rfl rfl, ivInv_cleared rfl rfl⟩

/-- The output range of a buffer command whose checks pass lies inside DMEM, whether it takes the output or draws (R83, R98). -/
theorem MemoryInv.writeOutput {s : State} (h : MemoryInv s) (o : Bool) (out : List Byte) (hl : out.length = s.size.toNat)
    (hr : outAddr o s + s.size.toNat ≤ s.params.dmemSize) : MemoryInv (writeOutput o out s) := by
  cases hraced : s.raced with
  | true =>
    rw [writeOutput_raced o out s hraced]
    exact h.writeBytes (by rw [freeBytes_length]; exact hr) rfl rfl
  | false =>
    rw [writeOutput_clean o out s hraced]
    exact h.writeBytes (by rw [hl]; exact hr) rfl rfl

@[simp] theorem inputBytes_length (s : State) : (inputBytes s).length = s.size.toNat := Memory.readBytes_length _ _ _

/-- The output of a buffer command that passes its checks is as long as its input, whatever the mode (R85). -/
theorem encryptOutput_length (s' : State) {s : State} (h : 16 ≤ s.size.toNat) :
    (encryptBytes s' (inputBytes s)).length = s.size.toNat := by
  rw [encryptBytes_length _ _ (by rwa [inputBytes_length]), inputBytes_length]

theorem decryptOutput_length (s' : State) {s : State} (h : 16 ≤ s.size.toNat) :
    (decryptBytes s' (inputBytes s)).length = s.size.toNat := by
  rw [decryptBytes_length _ _ (by rwa [inputBytes_length]), inputBytes_length]

/-- What the checks of a buffer command say of its schedule, its size and its output range (R242). -/
theorem checkBuffer_passes {dir : Dir} {o : Bool} {s : State} (h : checkBuffer dir o s = none) :
    s.ksValid = true ∧ 16 ≤ s.size.toNat ∧ outAddr o s + s.size.toNat ≤ s.params.dmemSize := by
  obtain ⟨-, -, hks, -, hsize, -, hout, -⟩ := (checkBuffer_eq_none dir o s).mp h
  exact ⟨hks, hsize, of_decide_eq_true hout⟩

@[simp] theorem keyMaterial_writeOutput (o : Bool) (out : List Byte) (s : State) :
    keyMaterial (writeOutput o out s) = keyMaterial s := by
  rw [writeOutput_frame]; rfl

/-- The effect of every command keeps the key material and DMEM in order. -/
theorem succeeds_keeps_inv {s u : State} {i : Instr} (h : Succeeds s i u) (hk : KeyMaterialInv s) (hm : MemoryInv s) :
    KeyMaterialInv u ∧ MemoryInv u := by
  cases h with
  | nop => exact ⟨hk, hm⟩
  | gfmul | sbox | invsbox | encblk | decblk | subbytes | invsubbytes | shiftrows | invshiftrows | mixcolumns | invmixcolumns
  | addrk =>
    exact ⟨hk.congr (by simp only [keyMaterial]), hm.congr rfl rfl⟩
  | setkey m hl _ => exact ⟨keyMaterialInv_setkey m hl, hm.congr rfl rfl⟩
  | expand hkey => exact ⟨keyMaterialInv_expand hk hkey, hm.congr rfl rfl⟩
  | setiv hkey _ => exact ⟨keyMaterialInv_setIv hk hkey _, hm.congr rfl rfl⟩
  | geniv hks _ => exact ⟨keyMaterialInv_setIv hk (hk.schedule.keyed hks) _, hm.congr rfl rfl⟩
  | encrypt o hc =>
    obtain ⟨hks, hsize, hout⟩ := checkBuffer_passes hc
    constructor
    · exact (keyMaterialInv_assignMissingIv hk (hk.schedule.keyed hks)).congr (keyMaterial_writeOutput _ _ _)
    · have hm' : MemoryInv { assignMissingIv s with pvsdeg := pvsDegrades s } := by
        rw [assignMissingIv_frame]; exact hm.congr rfl rfl
      refine hm'.writeOutput o _ ?_ ?_
      · rw [encryptOutput_length _ hsize, assignMissingIv_frame]
      · rw [assignMissingIv_frame]; exact hout
  | decrypt o hc =>
    obtain ⟨-, hsize, hout⟩ := checkBuffer_passes hc
    constructor
    · exact hk.congr (keyMaterial_writeOutput _ _ _)
    · have hm' : MemoryInv { s with pvsdeg := pvsDegrades s } := hm.congr rfl rfl
      exact hm'.writeOutput o _ (decryptOutput_length _ hsize) hout
  | zeroize => exact ⟨keyMaterialInv_zeroize s, hm.congr rfl rfl⟩

theorem coreInv_errorState {s : State} (h : CoreInv s) (e : CmdError) : CoreInv (errorState e s) := by
  rw [coreInv_iff] at h ⊢
  obtain ⟨hk, -, hm⟩ := h
  exact ⟨hk.congr rfl, statusInv_errorState e s, hm.congr rfl rfl⟩

theorem completeCommand_keeps_coreInv {s t : State} (hs : CoreInv s) (h : completeCommand s = .next t) : CoreInv t := by
  rcases completeCommand_cases h with ⟨i, -, hi⟩ | ⟨-, -, rfl⟩
  · rcases exec_cases hi with ⟨e, rfl⟩ | ⟨u, hu, rfl⟩
    · exact coreInv_errorState hs e
    · rw [coreInv_iff] at hs ⊢
      obtain ⟨hk, -, hm⟩ := hs
      obtain ⟨hk', hm'⟩ := succeeds_keeps_inv hu hk hm
      exact ⟨hk'.congr rfl, statusInv_completed u, hm'.congr rfl rfl⟩
  · exact coreInv_errorState hs .illegalCommand

/-- Settles O26: a completion keeps the invariant command by command, and any other step is at most one move of the host. -/
theorem stepKeepsTheInvariant : Obligations.StepKeepsTheInvariant := by
  intro s t hs h
  rcases step_cases h with ⟨-, -, hc⟩ | ⟨-, n, -, hh⟩ | ⟨-, hh⟩
  · exact completeCommand_keeps_coreInv hs hc
  · exact hostStep_keeps_coreInv (s := { s with wait := n }) (coreInv_congr hs rfl rfl rfl rfl) hh
  · exact hostStep_keeps_coreInv hs hh

/-! ### What each command writes (R54, R60, R296) -/

/-- Settles O13: a command ends in `errorState` of the state before it or in `completed` of its effect. -/
theorem everyCommandEndsInANextState : Obligations.EveryCommandEndsInANextState := by
  intro i s
  rcases exec_ends i s with ⟨e, he⟩ | ⟨u, hu, hcmd, hdrop, hparams, haccepts, hmoves, hlog⟩
  · exact ⟨_, he, rfl, rfl, by simp, rfl, rfl, rfl, rfl, rfl, rfl⟩
  · exact ⟨_, hu, rfl, rfl, by simp, hcmd, hdrop, hparams, haccepts, hmoves, hlog⟩

/-- An error writes no state of the command's own (R295). -/
theorem writesOnly_errorState (i : Instr) (s : State) (e : CmdError) : writesOnly i s (errorState e s) := by
  cases i with
  | encrypt o => exact ⟨rfl, fun _ => ⟨rfl, rfl⟩, fun _ _ => rfl⟩
  | decrypt o => exact ⟨rfl, fun _ _ => rfl⟩
  | _ => rfl

/-- DMEM outside the output range is as it was (R60). -/
theorem writeOutput_byteAt_outside {o : Bool} {out : List Byte} {s : State} (hl : out.length = s.size.toNat) {a : Nat}
    (ha : ¬ (outAddr o s ≤ a ∧ a < outAddr o s + s.size.toNat)) : (writeOutput o out s).dmem.byteAt a = s.dmem.byteAt a := by
  rw [writeOutput_byteAt o out s hl, if_neg ha]

theorem writesOnly_completed {i : Instr} {s u : State} (h : Succeeds s i u) : writesOnly i s (completed u) := by
  cases h with
  | encrypt o hc =>
    obtain ⟨-, hsize, -⟩ := checkBuffer_passes hc
    refine ⟨?_, fun hiv => ?_, fun a ha => ?_⟩
    · rw [writeOutput_frame, assignMissingIv_frame]; rfl
    · rw [writeOutput_frame, assignMissingIv_of_not s hiv]
      exact ⟨rfl, rfl⟩
    · rw [completed_dmem, assignMissingIv_frame]
      exact writeOutput_byteAt_outside (s := { s with iv := _, ivValid := _, pvsdeg := pvsDegrades s })
        (encryptOutput_length _ hsize) ha
  | decrypt o hc =>
    obtain ⟨-, hsize, -⟩ := checkBuffer_passes hc
    constructor
    · rw [writeOutput_frame]; rfl
    · intro a ha
      rw [completed_dmem]
      exact writeOutput_byteAt_outside (s := { s with pvsdeg := pvsDegrades s }) (decryptOutput_length _ hsize) ha
  | _ => rfl

/-- Settles O15: an error writes STATUS only, and a success ends in `completed` of the command's effect, which is no error. -/
theorem commandWritesOnlyItsState : Obligations.CommandWritesOnlyItsState := by
  intro i s t h
  rcases exec_cases h with ⟨e, rfl⟩ | ⟨u, hu, rfl⟩
  · exact ⟨writesOnly_errorState i s e, fun _ => rfl⟩
  · exact ⟨writesOnly_completed hu, nofun⟩

/-- Settles O7: both ends are record updates, and the codes are R291's table. -/
theorem completionWritesOnlyStatus : Obligations.CompletionWritesOnlyStatus :=
  ⟨fun _ => rfl, fun _ _ => rfl, rfl, rfl, rfl, rfl, rfl, rfl, rfl, rfl, rfl, rfl, rfl, rfl, rfl⟩

/-! ### Register accesses of the host (R31 to R33, R57, R58) -/

theorem regOffset_lt (r : RegName) : regOffset r < 0x200 := by
  cases r <;> simp only [regOffset] <;> omega

theorem regOffset_aligned (r : RegName) : regOffset r % 4 = 0 := by
  cases r <;> simp only [regOffset] <;> omega

/-- An aligned offset that is no register's is reserved (R32). -/
theorem regAt_eq_none {offset : Nat} (ha : offset % 4 = 0) (h : ∀ r, regOffset r ≠ offset) : regAt offset = none :=
  Option.eq_none_iff_forall_ne_some.mpr fun r hr => h r (regOffset_of_regAt ha hr)

/-- CMD is the one write-only register (R32). -/
theorem regAccess_eq_wo {r : RegName} : regAccess r = .wo ↔ r = .cmd := by
  cases r <;> simp [regAccess]

/-- A read of a register, by its name: a draw for the registers of R57 while BUSY, else its value. -/
theorem readReg_regOffset (r : RegName) (s : State) : readReg (regOffset r) s =
    if s.busy && drawsWhileBusy r then (Config.freeWord s.draws, { s with draws := s.draws + 1 }) else (regValue r s, s) := by
  simp [readReg]

theorem hostMove_read_register (r : RegName) (s : State) : hostMove (.regRead (regOffset r) 4) s =
    .next (logRead (.reg (regOffset r) (readReg (regOffset r) s).1) (readReg (regOffset r) s).2) :=
  hostMove_regRead _ s (regOffset_lt r) (regOffset_aligned r)

theorem hostMove_write_register (r : RegName) (v : Word) (s : State) :
    hostMove (.regWrite (regOffset r) 4 v) s = .next (writeReg (regOffset r) v s) :=
  hostMove_regWrite _ v s (regOffset_lt r) (regOffset_aligned r)

/-- A read that takes no draw is served with the register's value, and recorded. -/
theorem hostMove_read_exact {r : RegName} {s : State} (h : (s.busy && drawsWhileBusy r) = false) :
    hostMove (.regRead (regOffset r) 4) s = .next { s with hostLog := .reg (regOffset r) (regValue r s) :: s.hostLog } := by
  rw [hostMove_read_register, readReg_regOffset, h]
  rfl

/-- While BUSY a read of a register of R57 is served with a draw, and recorded. -/
theorem hostMove_read_draw {r : RegName} {s : State} (hb : s.busy = true) (hr : drawsWhileBusy r = true) :
    hostMove (.regRead (regOffset r) 4) s =
      .next { s with draws := s.draws + 1, hostLog := .reg (regOffset r) (Config.freeWord s.draws) :: s.hostLog } := by
  rw [hostMove_read_register, readReg_regOffset, hb, hr]
  rfl

/-- A reserved offset reads 0 and takes no draw (R31). -/
theorem readReg_reserved {offset : Nat} (s : State) (h : regAt offset = none) : readReg offset s = (0, s) := by
  simp [readReg, h]

/-- A write at a reserved offset is ignored (R31). -/
theorem writeReg_reserved {offset : Nat} (v : Word) (s : State) (h : regAt offset = none) : writeReg offset v s = s := by
  simp [writeReg, h]

/-- A write to a register other than CMD, by its name: ignored while BUSY, stored while idle (R58). -/
theorem writeReg_regOffset {r : RegName} (v : Word) (s : State) (hr : r ≠ .cmd) :
    writeReg (regOffset r) v s = if s.busy then s else storeReg r v s := by
  cases hb : s.busy with
  | true => simp [writeReg_busy _ v s hb, hr]
  | false => simp [writeReg_idle _ v s hb, hr]

/-- A read-only register ignores what is stored in it (R31). -/
theorem storeReg_ro {r : RegName} (v : Word) (s : State) (h : regAccess r = .ro) : storeReg r v s = s := by
  cases r with
  | status | result | kinfo | iv | key | ks => rfl
  | cmd | cfg | size | src | dst | piaddr | pilen | tseed | keyin | ivin | block => cases h

theorem writeReg_ro {r : RegName} (v : Word) (s : State) (h : regAccess r = .ro) : writeReg (regOffset r) v s = s := by
  rw [writeReg_regOffset v s (by rintro rfl; cases h), storeReg_ro v s h, ite_self]

/-- While BUSY a write anywhere but at CMD is ignored (R58). -/
theorem writeReg_busy_ignored {offset : Nat} (v : Word) {s : State} (hb : s.busy = true) (hc : regAt offset ≠ some .cmd) :
    writeReg offset v s = s := by
  rw [writeReg_busy offset v s hb, if_neg hc]

theorem step_of_idle_cons {s : State} {m : HostMove} {ms : List HostMove} (hb : s.busy = false) (hm : s.moves = m :: ms) :
    step s = hostMove m { s with moves := ms } := by
  rw [step_of_idle hb, hostStep_of_cons hm]

theorem step_of_running_cons {s : State} {n : Nat} {m : HostMove} {ms : List HostMove} (hb : s.busy = true) (hw : s.wait = n + 1)
    (hm : s.moves = m :: ms) : step s = hostMove m { s with wait := n, moves := ms } := by
  rw [step_of_running hb hw]
  exact hostStep_of_cons hm

/-- Settles O8: CMD's register is at offset 0, and an idle core accepts what is written there. -/
theorem cmdWriteWhileIdleIsAccepted : Obligations.CmdWriteWhileIdleIsAccepted := by
  intro s v ms hb hm
  refine ⟨(accept v { s with moves := ms }).wait, ?_⟩
  rw [step_of_idle_cons hb hm]
  exact (hostMove_write_register .cmd v _).trans (congrArg _ (writeReg_cmd_idle _ v { s with moves := ms } hb rfl))

/-- Settles O10: CMD's register is at offset 0 only, and a running core ignores a write to any other. -/
theorem registerWriteWhileBusyIsIgnored : Obligations.RegisterWriteWhileBusyIsIgnored := by
  intro s n offset v ms hb hw ha hpos hlt hm
  have hcmd : regAt offset ≠ some .cmd := fun h => by
    have : 0 = offset := regOffset_of_regAt ha h
    omega
  rw [step_of_running_cons hb hw hm, hostMove_regWrite offset v _ hlt ha,
    writeReg_busy_ignored v (s := { s with wait := n, moves := ms }) hb hcmd]

/-! #### The fields of the register values (R34, R41, R44) -/

/-- STATUS, its fields one after another from bit 31 down, at the width they add up to (R34). -/
def statusFields (s : State) : BitVec (20 + 1 + 1 + 1 + 1 + 4 + 1 + 1 + 1 + 1) :=
  0#20 ++ BitVec.ofBool s.pvsdeg ++ BitVec.ofBool s.ivValid ++ BitVec.ofBool s.ksValid ++ BitVec.ofBool s.keyValid ++
    s.errcode ++ BitVec.ofBool s.drop ++ BitVec.ofBool s.err ++ BitVec.ofBool s.done ++ BitVec.ofBool s.busy

theorem statusWord_getLsbD (s : State) (i : Nat) : (statusWord s).getLsbD i = (statusFields s).getLsbD i := rfl

theorem statusWord_extract (s : State) (a n : Nat) : (statusWord s).extractLsb' a n = (statusFields s).extractLsb' a n := rfl

/-- KINFO with a key latched, in the same way (R44). -/
def kinfoFields (s : State) : BitVec (3 + 5 + 4 + 2 + 2 + 16) := 0#3 ++ s.nr ++ s.nk ++ 0#2 ++ s.mode.bits ++ s.keybits

theorem kinfoWord_keyed {s : State} (h : s.keyValid = true) (a n : Nat) :
    (kinfoWord s).extractLsb' a n = (kinfoFields s).extractLsb' a n := by
  rw [kinfoWord, if_pos h]; rfl

theorem kinfoWord_unkeyed {s : State} (h : s.keyValid = false) : kinfoWord s = 0 := by
  simp [kinfoWord, h]

/-- CFG, in the same way (R41). -/
def cfgFields (s : State) : BitVec (14 + 2 + 16) := 0#14 ++ s.cfgMode ++ s.cfgKeyBits

theorem cfgWord_getLsbD (s : State) (i : Nat) : (cfgWord s).getLsbD i = (cfgFields s).getLsbD i := rfl

theorem cfgWord_extract (s : State) (a n : Nat) : (cfgWord s).extractLsb' a n = (cfgFields s).extractLsb' a n := rfl

theorem statusWord_errcode (s : State) : (statusWord s).extractLsb' 4 4 = s.errcode := by
  simp (disch := omega) only [statusWord_extract, statusFields,
    BitVec.extractLsb'_append_eq_of_le, BitVec.extractLsb'_append_eq_of_add_le]
  simp

theorem statusWord_reserved (s : State) : (statusWord s).extractLsb' 12 20 = 0 := by
  simp (disch := omega) only [statusWord_extract, statusFields, BitVec.extractLsb'_append_eq_of_le]
  simp

theorem cfgWord_reserved (s : State) : (cfgWord s).extractLsb' 18 14 = 0 := by
  simp (disch := omega) only [cfgWord_extract, cfgFields, BitVec.extractLsb'_append_eq_of_le]
  simp

theorem kinfoWord_fields {s : State} (h : s.keyValid = true) :
    (kinfoWord s).extractLsb' 0 16 = s.keybits ∧ (kinfoWord s).extractLsb' 16 2 = s.mode.bits ∧
    (kinfoWord s).extractLsb' 20 4 = s.nk ∧ (kinfoWord s).extractLsb' 24 5 = s.nr := by
  simp (disch := omega) only [kinfoWord_keyed h, kinfoFields,
    BitVec.extractLsb'_append_eq_of_le, BitVec.extractLsb'_append_eq_of_add_le]
  simp

theorem kinfoWord_reserved (s : State) : (kinfoWord s).extractLsb' 18 2 = 0 ∧ (kinfoWord s).extractLsb' 29 3 = 0 := by
  cases h : s.keyValid with
  | false => simp [kinfoWord_unkeyed h]
  | true =>
    simp (disch := omega) only [kinfoWord_keyed h, kinfoFields,
    BitVec.extractLsb'_append_eq_of_le, BitVec.extractLsb'_append_eq_of_add_le]
    simp

theorem statusWord_flags (s : State) :
    (statusWord s).getLsbD 0 = s.busy ∧ (statusWord s).getLsbD 1 = s.done ∧ (statusWord s).getLsbD 2 = s.err ∧
    (statusWord s).getLsbD 3 = s.drop ∧ (statusWord s).getLsbD 8 = s.keyValid ∧ (statusWord s).getLsbD 9 = s.ksValid ∧
    (statusWord s).getLsbD 10 = s.ivValid ∧ (statusWord s).getLsbD 11 = s.pvsdeg := by
  simp only [statusWord_getLsbD, statusFields, BitVec.getLsbD_append]
  simp

/-- Settles O19: the fields stand side by side, so each is read off its place. -/
theorem statusAndKinfoFields : Obligations.StatusAndKinfoFields := by
  intro s
  obtain ⟨hbusy, hdone, herr, hdrop, hkey, hks, hiv, hpvs⟩ := statusWord_flags s
  exact ⟨hbusy, hdone, herr, hdrop, statusWord_errcode s, hkey, hks, hiv, hpvs, kinfoWord_unkeyed, kinfoWord_fields, rfl, rfl, rfl⟩

theorem resultWord_reserved (s : State) : (regValue .result s).extractLsb' 8 24 = 0 := by
  ext i hi
  simp [regValue]

/-- CFG stores the 18 bits of its two fields and no other (R31, R41). -/
theorem storeReg_cfg_masked (v : Word) (s : State) : storeReg .cfg (v &&& 0x3FFFF) s = storeReg .cfg v s := by
  have low : (0x3FFFF : Word).extractLsb' 0 16 = BitVec.allOnes 16 := by decide
  have high : (0x3FFFF : Word).extractLsb' 16 2 = BitVec.allOnes 2 := by decide
  simp only [storeReg, BitVec.extractLsb'_and, low, high, BitVec.and_allOnes]

/-- Settles O16: each clause is the register map's read or write of the offset it speaks of. -/
theorem registerAccessRules : Obligations.RegisterAccessRules := by
  refine ⟨fun s offset v hlt ha => ?_, fun s r hb _ => ?_, fun s r hr => ?_, fun s r v hr => ?_, fun s offset hres ha hlt => ?_,
    fun s v => ?_, fun s offset width v hlt hw => ?_⟩
  · exact ⟨hostMove_regRead offset s hlt ha, hostMove_regWrite offset v s hlt ha⟩
  · exact hostMove_read_exact (by simp [hb])
  · obtain rfl := regAccess_eq_wo.mp hr
    exact hostMove_read_exact (by simp [drawsWhileBusy])
  · rw [hostMove_write_register, writeReg_ro v s hr]
  · have hnone := regAt_eq_none ha hres
    constructor
    · rw [hostMove_regRead offset s hlt ha, readReg_reserved s hnone]; rfl
    · intro v
      rw [hostMove_regWrite offset v s hlt ha, writeReg_reserved v s hnone]
  · obtain ⟨hk1, hk2⟩ := kinfoWord_reserved s
    refine ⟨cfgWord_reserved s, statusWord_reserved s, resultWord_reserved s, hk1, hk2, ?_⟩
    simp only [hostMove_write_register, writeReg_regOffset (r := .cfg) _ s (by simp), storeReg_cfg_masked]
  · have hword : wordAccess offset width = false := by
      rcases hw with hw | hw <;> simp [wordAccess, hw]
    simp [hostMove, hword, Nat.not_le.mpr hlt]

/-- Settles O20: STATUS and the host's own registers take no draw, the registers commands write do. -/
theorem readsWhileBusy : Obligations.ReadsWhileBusy := by
  intro s hb
  constructor
  · intro r hr
    refine hostMove_read_exact ?_
    rcases hr with rfl | rfl | rfl | rfl | rfl | rfl | rfl | rfl | ⟨j, rfl⟩ | ⟨j, rfl⟩ <;> simp [drawsWhileBusy]
  · intro r hr
    refine hostMove_read_draw hb ?_
    rcases hr with ⟨j, rfl⟩ | rfl | rfl | ⟨j, rfl⟩ | ⟨j, rfl⟩ | ⟨j, rfl⟩ <;> rfl

/-- The arrays the host writes show in their own registers only (R32). -/
theorem regValue_with_keyin {r : RegName} (x : Vector Byte 32) (s : State) (h : ∀ j, r ≠ .keyin j) :
    regValue r { s with keyin := x } = regValue r s := by
  cases r with
  | keyin j => exact absurd rfl (h j)
  | _ => rfl

theorem regValue_with_ivin {r : RegName} (x : Block) (s : State) (h : ∀ j, r ≠ .ivin j) :
    regValue r { s with ivin := x } = regValue r s := by
  cases r with
  | ivin j => exact absurd rfl (h j)
  | _ => rfl

theorem regValue_with_blk {r : RegName} (x : Block) (s : State) (h : ∀ j, r ≠ .block j) :
    regValue r { s with blk := x } = regValue r s := by
  cases r with
  | block j => exact absurd rfl (h j)
  | _ => rfl

/-- A register write changes no other register's value (R32). -/
theorem regValue_storeReg_of_ne {r r' : RegName} (v : Word) (s : State) (h : r' ≠ r) :
    regValue r' (storeReg r v s) = regValue r' s := by
  cases r with
  | cmd | status | result | kinfo | iv | key | ks => rfl
  | cfg => cases r' with | cfg => exact absurd rfl h | _ => rfl
  | size => cases r' with | size => exact absurd rfl h | _ => rfl
  | src => cases r' with | src => exact absurd rfl h | _ => rfl
  | dst => cases r' with | dst => exact absurd rfl h | _ => rfl
  | piaddr => cases r' with | piaddr => exact absurd rfl h | _ => rfl
  | pilen => cases r' with | pilen => exact absurd rfl h | _ => rfl
  | tseed => cases r' with | tseed => exact absurd rfl h | _ => rfl
  | keyin j =>
    cases r' with
    | keyin k => exact laneWord_setLanes_ne s.keyin j k v fun e => h (congrArg _ (Fin.ext e))
    | _ => exact regValue_with_keyin _ s nofun
  | ivin j =>
    cases r' with
    | ivin k => exact laneWord_setLanes_ne s.ivin j k v fun e => h (congrArg _ (Fin.ext e))
    | _ => exact regValue_with_ivin _ s nofun
  | block j =>
    cases r' with
    | block k => exact laneWord_setLanes_ne s.blk j k v fun e => h (congrArg _ (Fin.ext e))
    | _ => exact regValue_with_blk _ s nofun

/-- The two fields of a CFG write, put together again (R41). -/
theorem cfgWord_storeReg (v : Word) (s : State) : cfgWord (storeReg .cfg v s) = v &&& 0x3FFFF := by
  have mask : ∀ i < 32, (0x3FFFF : Word).getLsbD i = decide (i < 18) := by decide
  apply BitVec.eq_of_getLsbD_eq
  intro i hi
  rw [BitVec.getLsbD_and, mask i hi, cfgWord_getLsbD]
  simp only [cfgFields, storeReg, BitVec.getLsbD_append, BitVec.getLsbD_extractLsb']
  rcases Nat.lt_or_ge i 16 with h16 | h16
  · simp [h16, show i < 18 by omega]
  · rcases Nat.lt_or_ge i 18 with h18 | h18
    · simp [show ¬ i < 16 by omega, h18, show i - 16 < 2 by omega, show 16 + (i - 16) = i by omega]
    · simp [show ¬ i < 16 by omega, show ¬ i < 18 by omega, show ¬ i - 16 < 2 by omega]

/-- A read-write register holds what was written, CFG without its reserved bits (R31, R41 to R47). -/
theorem regValue_storeReg_self {r : RegName} (v : Word) (s : State) (h : regAccess r = .rw) :
    regValue r (storeReg r v s) = if r = .cfg then v &&& 0x3FFFF else v := by
  cases r with
  | cmd | status | result | kinfo | iv | key | ks => cases h
  | cfg => exact cfgWord_storeReg v s
  | size | src | dst | piaddr | pilen | tseed => rfl
  | keyin j => exact laneWord_setLanes s.keyin j v (by omega)
  | ivin j => exact laneWord_setLanes s.ivin j v (by omega)
  | block j => exact laneWord_setLanes s.blk j v (by omega)

/-- Settles O17: the write is `storeReg`, whose frame is the host's registers. -/
theorem writtenRegisterReadsBack : Obligations.WrittenRegisterReadsBack := by
  intro s r v hb hr
  have hcmd : r ≠ .cmd := by rintro rfl; cases hr
  have hbusy : (storeReg r v s).busy = false := by rw [storeReg_frame]; exact hb
  refine ⟨storeReg r v s, ?_, regValue_storeReg_self v s hr, ?_, fun r' h => regValue_storeReg_of_ne v s h, ?_⟩
  · rw [hostMove_write_register, writeReg_regOffset v s hcmd, hb]; rfl
  · exact hostMove_read_exact (by rw [hbusy, Bool.false_and])
  · rw [storeReg_frame]
    exact ⟨rfl, hb, rfl, rfl, rfl⟩

/-! #### Byte lanes (R50) -/

/-- A lane of a register that shows its array only under a condition (R46, R49). -/
theorem lane_ite {c : Prop} [Decidable c] (w : Word) (a n : Nat) :
    (if c then w else 0).extractLsb' a n = if c then w.extractLsb' a n else 0 := by
  split
  · rfl
  · exact BitVec.extractLsb'_zero

/-- KEY shows the bytes below keybits/8, and 0 above (R44). -/
theorem take_padded_getElem {n : Nat} (v : Vector Byte n) (k i : Nat) (h : i < n) :
    (bytesOf n (v.toList.take k))[i] = if i < k then v[i] else 0 := by
  rw [bytesOf_getElem n _ i h, List.getD_eq_getElem?_getD, List.getElem?_take]
  split
  · simp [h]
  · rfl

/-- Settles O18: each register is `laneWord` of the array it shows. -/
theorem byteRegistersAreLittleEndianLanes : Obligations.ByteRegistersAreLittleEndianLanes := by
  intro s m
  refine ⟨fun j => ?_, fun j => ?_, fun j => ?_, fun j => ?_, fun j => ?_, fun j => ?_⟩
  · exact laneWord_lane s.keyin j m m.isLt (by omega)
  · exact laneWord_lane s.ivin j m m.isLt (by omega)
  · exact laneWord_lane s.blk j m m.isLt (by omega)
  · rw [regValue, lane_ite, laneWord_lane s.iv j m m.isLt (by omega)]
  · rw [regValue, laneWord_lane _ j m m.isLt (by omega), take_padded_getElem]
  · rw [regValue, lane_ite, laneWord_lane s.ks j m m.isLt (by omega)]

/-! ### What holds while a command runs (R54, R58, R98) -/

/-- `t` differs from `s` at most in DROP, DMEM and the model's own fields, and a byte of the running command's ranges that changed
is a recorded race. -/
def HoldsOperands (s t : State) : Prop :=
  t = { s with drop := t.drop, dmem := t.dmem, raced := t.raced, draws := t.draws, moves := t.moves, hostLog := t.hostLog } ∧
  ∀ a, inRunningRanges s a = true → t.dmem.byteAt a ≠ s.dmem.byteAt a → t.raced = true

/-- A byte a host write changed in the running command's ranges is a race (R98). -/
theorem hostWriteBytes_changed_raced {s : State} {addr a : Nat} {bs : List Byte} (hr : inRunningRanges s a = true)
    (hne : (hostWriteBytes addr bs s).dmem.byteAt a ≠ s.dmem.byteAt a) : (hostWriteBytes addr bs s).raced = true := by
  rw [hostWriteBytes_dmem, Memory.byteAt_writeBytes] at hne
  have hin : addr ≤ a ∧ a < addr + bs.length := by
    by_contra hout
    exact hne (if_neg hout)
  exact (hostWriteBytes_raced addr bs s).mpr (.inr ⟨a, hin.1, hin.2, hr⟩)

theorem hostMove_holdsOperands {m : HostMove} {s t : State} (h : hostMove m s = .next t) (hb : s.busy = true) (hm : m ≠ .reset) :
    HoldsOperands s t := by
  rcases hostMove_cases h with ⟨offset, width, -, -, -, rfl⟩ | ⟨offset, width, v, -, -, -, rfl⟩ | ⟨addr, width, -, -, -, rfl⟩ |
    ⟨addr, width, v, -, -, -, rfl⟩ | ⟨-, rfl⟩ | ⟨hreset, -⟩
  · rw [readReg_frame]
    exact ⟨rfl, fun a _ hne => absurd rfl hne⟩
  · rw [writeReg_busy offset v s hb]
    split <;> exact ⟨rfl, fun a _ hne => absurd rfl hne⟩
  · rw [hostReadBytes_frame]
    exact ⟨rfl, fun a _ hne => absurd rfl hne⟩
  · refine ⟨?_, fun a hr hne => hostWriteBytes_changed_raced hr hne⟩
    rw [hostWriteBytes_frame]
  · split <;> exact ⟨rfl, fun a _ hne => absurd rfl hne⟩
  · exact absurd hreset hm

/-- Settles O11: such a step is at most one move of the host beside the running command. -/
theorem operandsHoldUntilCompletion : Obligations.OperandsHoldUntilCompletion := by
  intro s t n hb hw hm h
  rw [step_of_running hb hw] at h
  rcases hostStep_cases h with ⟨-, rfl⟩ | ⟨m, rest, hcons, hmove⟩
  · exact ⟨rfl, fun a _ hne => absurd rfl hne⟩
  · have hreset : m ≠ .reset := by
      rintro rfl
      exact hm (by rw [show s.moves = _ from hcons]; rfl)
    exact hostMove_holdsOperands hmove hb hreset

end Sys2Proof.Machine

/-! SUPPORT. Proofs of the statements of spec/20_memory.md: DMEM as data, and the host's accesses to it, idle and beside a
running command. -/

namespace Sys2Proof.Machine

/-- Settles O29: the laws of `writeBytes`, and that the written bytes determine a canonical memory. -/
theorem dmemIsCanonical : Obligations.DmemIsCanonical := by
  refine ⟨fun m a bs h => ⟨m.writeBytes_wf a bs h, m.readBytes_writeBytes a bs, fun x hx => ?_⟩,
    fun m m' h h' e => Memory.ext_of_written h h' e⟩
  rw [Memory.byteAt_writeBytes, if_neg hx]

/-! ### Host accesses while no ENCRYPT or DECRYPT runs (R87) -/

theorem runningBuffer_eq_none {s : State}
    (h : s.busy = true → ∀ o, decode s.cmd ≠ .ok (.encrypt o) ∧ decode s.cmd ≠ .ok (.decrypt o)) : runningBuffer s = none := by
  refine Option.eq_none_iff_forall_ne_some.mpr fun o ho => ?_
  obtain ⟨hb, hd | hd⟩ := runningBuffer_eq_some.mp ho
  · exact (h hb o).1 hd
  · exact (h hb o).2 hd

/-- With no buffer command running, a host write lands and is no race. -/
theorem hostWriteBytes_of_none {s : State} (a : Nat) (bs : List Byte) (h : runningBuffer s = none) :
    hostWriteBytes a bs s = { s with dmem := s.dmem.writeBytes a bs } := by
  have hraced : (hostWriteBytes a bs s).raced = s.raced := by
    rw [Bool.eq_iff_iff, hostWriteBytes_raced]
    simp [inRunningRanges_of_none _ h]
  rw [hostWriteBytes_frame, hostWriteBytes_dmem, hraced]

/-- With no buffer command running, a host read returns DMEM's bytes and takes no draw. -/
theorem hostReadBytes_of_none {s : State} (a n : Nat) (h : runningBuffer s = none) :
    hostReadBytes a n s = (s.dmem.readBytes a n, s) := by
  rw [hostReadBytes_eq]
  simp [inOutputRange_of_none _ h, Memory.readBytes]

/-- An integer written as n little-endian bytes reads back, as far as n bytes hold it (R14). -/
theorem leNat_readBytes_writeBytes (m : Memory) (a n value : Nat) :
    leNat ((m.writeBytes a (leBytes n value)).readBytes a n) = value % 256 ^ n := by
  have hread := m.readBytes_writeBytes a (leBytes n value)
  rw [leBytes_length] at hread
  rw [hread, leNat_leBytes]

theorem hostMove_dmemWrite_of_none {s : State} {addr k : Nat} (value : Nat) (hr : runningBuffer s = none) (ha : addr % 2 ^ k = 0)
    (h : addr + 2 ^ k ≤ s.params.dmemSize) :
    hostMove (.dmemWrite addr (2 ^ k) value) s = .next { s with dmem := s.dmem.writeBytes addr (leBytes (2 ^ k) value) } := by
  rw [hostMove_dmemWrite addr k value s ha h, hostWriteBytes_of_none addr _ hr]

theorem hostMove_dmemRead_of_none {s : State} {addr k : Nat} (hr : runningBuffer s = none) (ha : addr % 2 ^ k = 0)
    (h : addr + 2 ^ k ≤ s.params.dmemSize) :
    hostMove (.dmemRead addr (2 ^ k)) s =
      .next { s with hostLog := .dmem addr (2 ^ k) (leNat (s.dmem.readBytes addr (2 ^ k))) :: s.hostLog } := by
  rw [hostMove_dmemRead addr k s ha h, hostReadBytes_of_none addr _ hr]
  rfl

theorem alignedAccess_misaligned {addr k : Nat} (h : addr % 2 ^ k ≠ 0) : alignedAccess addr (2 ^ k) = false := by
  rw [alignedAccess_pow, decide_eq_false h]

/-- Settles O21: with no buffer command running the host's accesses are `writeBytes` and `readBytes` of the value's bytes. -/
theorem hostDmemAccessIsLittleEndian : Obligations.HostDmemAccessIsLittleEndian := by
  refine ⟨fun s addr k value hrun ha hin => ?_, fun s addr k value hmis => ?_⟩
  · have hnone : runningBuffer s = none := runningBuffer_eq_none hrun
    refine ⟨_, hostMove_dmemWrite_of_none value hnone ha hin, s.dmem.byteAt_writeBytes_leBytes addr (2 ^ k) value, rfl, ?_⟩
    rw [← leNat_readBytes_writeBytes s.dmem addr]
    exact hostMove_dmemRead_of_none (s := { s with dmem := s.dmem.writeBytes addr (leBytes (2 ^ k) value) }) hnone ha hin
  · simp [hostMove, alignedAccess_misaligned hmis]

/-! ### Races with a running ENCRYPT or DECRYPT (R98) -/

/-- The output range of a running command, as an interval. -/
theorem inOutputRange_of_running {s : State} {o : Bool} (h : runningBuffer s = some o) (a : Nat) :
    inOutputRange s a = decide (outAddr o s ≤ a ∧ a < outAddr o s + s.size.toNat) := by
  simp [inOutputRange, h, within]

/-- The ranges of a running command, as intervals; the π range is one only in PVS mode with the stream available (R262). -/
theorem inRunningRanges_of_running {s : State} {o : Bool} (h : runningBuffer s = some o) (a : Nat) :
    inRunningRanges s a = (decide (outAddr o s ≤ a ∧ a < outAddr o s + s.size.toNat) ||
      decide (s.src.toNat ≤ a ∧ a < s.src.toNat + s.size.toNat) ||
      decide (s.mode = .pvs ∧ piAvailable s = true ∧ s.piaddr.toNat ≤ a ∧ a < s.piaddr.toNat + piBytesLen s)) := by
  simp [inRunningRanges, h, within, Bool.and_assoc]

/-- A host read: the value has the width read, one draw is taken for each byte in the output range of a running command, and each
byte of the value is its draw or the byte as it stands. -/
theorem hostMove_dmemRead_bytes {s : State} {addr k : Nat} (ha : addr % 2 ^ k = 0) (h : addr + 2 ^ k ≤ s.params.dmemSize) :
    ∃ v : Nat, v < 256 ^ 2 ^ k ∧
      hostMove (.dmemRead addr (2 ^ k)) s =
        .next { s with draws := s.draws + (List.range (2 ^ k)).countP fun i => inOutputRange s (addr + i),
                       hostLog := .dmem addr (2 ^ k) v :: s.hostLog } ∧
      ∀ j, j < 2 ^ k → BitVec.ofNat 8 (v / 256 ^ j) =
        if inOutputRange s (addr + j) then
          Config.freeByte (s.draws + (List.range j).countP fun i => inOutputRange s (addr + i))
        else s.dmem.byteAt (addr + j) := by
  refine ⟨leNat (hostReadBytes addr (2 ^ k) s).1, ?_, ?_, fun j hj => ?_⟩
  · simpa using leNat_lt (hostReadBytes addr (2 ^ k) s).1
  · rw [hostMove_dmemRead addr k s ha h, hostReadBytes_eq]
    rfl
  · rw [leNat_byte _ j (by simpa using hj)]
    simp [hostReadBytes_eq]

/-- A host write: it lands, changes nothing else but the race flag, and is a race exactly when one of its bytes lies in the ranges
of a running command. -/
theorem hostMove_dmemWrite_bytes {s : State} {addr k : Nat} (value : Nat) (ha : addr % 2 ^ k = 0)
    (h : addr + 2 ^ k ≤ s.params.dmemSize) :
    ∃ t : State, hostMove (.dmemWrite addr (2 ^ k) value) s = .next t ∧
      t = { s with dmem := t.dmem, raced := t.raced } ∧
      (∀ a, t.dmem.byteAt a =
        if addr ≤ a ∧ a < addr + 2 ^ k then BitVec.ofNat 8 (value / 256 ^ (a - addr)) else s.dmem.byteAt a) ∧
      (t.raced = true ↔ s.raced = true ∨ ∃ j, j < 2 ^ k ∧ inRunningRanges s (addr + j) = true) := by
  refine ⟨_, hostMove_dmemWrite addr k value s ha h, hostWriteBytes_frame _ _ s, fun a => ?_, ?_⟩
  · rw [hostWriteBytes_dmem, Memory.byteAt_writeBytes_leBytes]
  · rw [hostWriteBytes_raced, leBytes_length]
    refine or_congr_right ⟨?_, ?_⟩
    · rintro ⟨x, hlo, hhi, hx⟩
      exact ⟨x - addr, by omega, by rwa [Nat.add_sub_cancel' hlo]⟩
    · rintro ⟨j, hj, hx⟩
      exact ⟨addr + j, by omega, by omega, hx⟩

/-- A raced output range write puts the next draws there, in address order (log 8). -/
theorem writeOutput_raced_byteAt {s : State} (o : Bool) (out : List Byte) (h : s.raced = true) {k : Nat} (hk : k < s.size.toNat) :
    (writeOutput o out s).dmem.byteAt (outAddr o s + k) = Config.freeByte (s.draws + k) := by
  rw [writeOutput_raced o out s h, Memory.byteAt_writeBytes, freeBytes_length, if_pos (by omega)]
  simp [freeBytes, hk]

/-- A raced buffer command that succeeds leaves draws in its output range, whatever its output would have been. -/
theorem succeeds_raced_byteAt {s u : State} {o : Bool} {i : Instr} (hi : i = .encrypt o ∨ i = .decrypt o) (hu : Succeeds s i u)
    (h : s.raced = true) {k : Nat} (hk : k < s.size.toNat) :
    u.dmem.byteAt (outAddr o s + k) = Config.freeByte (s.draws + k) := by
  rcases hi with rfl | rfl
  · cases hu
    rw [assignMissingIv_frame]
    exact writeOutput_raced_byteAt (s := { s with iv := _, ivValid := _, pvsdeg := pvsDegrades s }) o _ h hk
  · cases hu
    exact writeOutput_raced_byteAt (s := { s with pvsdeg := pvsDegrades s }) o _ h hk

/-- Settles O22: the host's accesses byte by byte with the running command's ranges as intervals, and the draws of a raced
completion. -/
theorem racesBecomeDraws : Obligations.RacesBecomeDraws := by
  refine ⟨fun s o hb hd => ?_, fun s t o i hi hraced hexec herr k hk => ?_⟩
  · have hrun : runningBuffer s = some o := runningBuffer_eq_some.mpr ⟨hb, hd⟩
    intro out ranges addr k value ha hin drawn
    have hout : inOutputRange s = out := funext (inOutputRange_of_running hrun)
    have hranges : inRunningRanges s = ranges := funext (inRunningRanges_of_running hrun)
    constructor
    · have hread := hostMove_dmemRead_bytes ha hin
      rwa [hout] at hread
    · have hwrite := hostMove_dmemWrite_bytes value ha hin
      rwa [hranges] at hwrite
  · rcases exec_cases hexec with ⟨e, rfl⟩ | ⟨u, hu, rfl⟩
    · cases herr
    · exact succeeds_raced_byteAt hi hu hraced hk

end Sys2Proof.Machine

/-! SUPPORT. Proofs of the statements of spec/30_encoding.md: a command has exactly one word, the rows of R118 select the words of
the commands, and every other word completes with IllegalCommand. -/

namespace Sys2Proof

/-! ### The words that decode to a command (R110, R117) -/

/-- A word decodes to a command exactly when it is the command's word. -/
theorem decode_eq_ok_iff {w : Word} {i : Instr} : decode w = .ok i ↔ w = encode i := by
  constructor
  · intro h
    obtain ⟨hrsv, hfields⟩ := decode_eq_ok h
    rw [← decodeFields_eq_ok hfields, commandWord_fields w hrsv]
  · rintro rfl
    exact decode_encode i

/-- Settles O2: both halves are the equivalence of decoding to a command and being its word. -/
theorem decodeAndEncodeAgree : Obligations.DecodeAndEncodeAgree :=
  ⟨decode_encode, fun _ _ h => (decode_eq_ok_iff.mp h).symm⟩

/-! ### The fields of a command's word: those its opcode does not use are zero (R113) -/

theorem rsvField_encode (i : Instr) : rsvField (encode i) = 0 := by
  cases i <;> exact rsvField_commandWord ..

theorem aField_encode {i : Instr} (h1 : opcField (encode i) ≠ 0x01) (h2 : opcField (encode i) ≠ 0x02)
    (h3 : opcField (encode i) ≠ 0x03) (h28 : opcField (encode i) ≠ 0x28) : aField (encode i) = 0 := by
  cases i with
  | gfmul a b => exact absurd (opcField_commandWord ..) h1
  | sbox a => exact absurd (opcField_commandWord ..) h2
  | invsbox a => exact absurd (opcField_commandWord ..) h3
  | addrk r => exact absurd (opcField_commandWord ..) h28
  | _ => exact aField_commandWord ..

theorem bField_encode {i : Instr} (h1 : opcField (encode i) ≠ 0x01) : bField (encode i) = 0 := by
  cases i with
  | gfmul a b => exact absurd (opcField_commandWord ..) h1
  | _ => exact bField_commandWord ..

theorem outselField_encode {i : Instr} (h30 : opcField (encode i) ≠ 0x30) (h31 : opcField (encode i) ≠ 0x31) :
    outselField (encode i) = false := by
  cases i with
  | encrypt o => exact absurd (opcField_commandWord ..) h30
  | decrypt o => exact absurd (opcField_commandWord ..) h31
  | _ => exact outselField_commandWord ..

/-! ### The rows of R118: each fixes OPC, and RSV to zero -/

/-- The row that selects a word has its OPC. -/
theorem opcField_of_selects {r : OpcodeRow} {w : Word} (hr : r ∈ opcodeRows) (h : r.selects w = true) :
    opcField w = opcField r.pattern := by
  have hmask : ∀ r ∈ opcodeRows, opcField r.mask = BitVec.allOnes 8 := by decide
  obtain ⟨hopc, -⟩ := (selects_iff r w).mp h
  rwa [hmask r hr, BitVec.and_allOnes] at hopc

/-- No two rows have the same OPC. -/
theorem opcodeRows_ext : ∀ r ∈ opcodeRows, ∀ r' ∈ opcodeRows, opcField r.pattern = opcField r'.pattern → r = r' := by
  decide

/-- No row has a reserved OPC (R115, R116). -/
theorem opcodeRows_opc : ∀ r ∈ opcodeRows, (opcField r.pattern).toNat ≤ 0x03 ∨
    (0x10 ≤ (opcField r.pattern).toNat ∧ (opcField r.pattern).toNat ≤ 0x13) ∨
    (0x20 ≤ (opcField r.pattern).toNat ∧ (opcField r.pattern).toNat ≤ 0x28) ∨
    (0x30 ≤ (opcField r.pattern).toNat ∧ (opcField r.pattern).toNat ≤ 0x31) ∨ (opcField r.pattern).toNat = 0x3F := by
  decide

/-- The row selects only words that decode to a command with its mnemonic. -/
def OpcodeRow.SelectsItsCommand (r : OpcodeRow) : Prop :=
  ∀ w, r.selects w = true → ∃ i, decode w = .ok i ∧ i.mnemonic = r.mnemonic

/-- A byte under the mask of a row: any byte where the row leaves the field open, and zero elsewhere. -/
theorem byte_of_masked {x : Byte} {isOpen : Bool} (h : x &&& (if isOpen then 0x00 else 0xFF) = 0) :
    x = if isOpen then x else 0 := by
  cases isOpen with
  | true => rfl
  | false => exact (BitVec.and_allOnes (x := x)).symm.trans h

/-- The same for a bit. -/
theorem bit_of_masked : ∀ {x isOpen : Bool}, (x && !isOpen) = false → x = (isOpen && x) := by
  decide

/-- A row whose pattern is OPC alone, and whose mask leaves open A, B and OUTSEL as its command `f` uses them. -/
theorem selectsItsCommand {r : OpcodeRow} (f : Byte → Byte → Bool → Instr) (opc : Byte) (openA openB openO : Bool)
    (hp : r.pattern = commandWord opc 0 0 false)
    (hm : opcField r.mask = BitVec.allOnes 8 ∧ aField r.mask = (if openA then 0x00 else 0xFF) ∧
      bField r.mask = (if openB then 0x00 else 0xFF) ∧ outselField r.mask = !openO ∧ rsvField r.mask = BitVec.allOnes 7)
    (hf : ∀ a b o, encode (f a b o) = commandWord opc (if openA then a else 0) (if openB then b else 0) (openO && o))
    (hn : ∀ a b o, (f a b o).mnemonic = r.mnemonic) : r.SelectsItsCommand := by
  intro w h
  obtain ⟨hopc, ha, hb, ho, hrsv⟩ := (selects_iff r w).mp h
  obtain ⟨hmopc, hma, hmb, hmo, hmrsv⟩ := hm
  simp only [hp, hmopc, hma, hmb, hmo, hmrsv, BitVec.and_allOnes, opcField_commandWord, aField_commandWord, bField_commandWord,
    outselField_commandWord, rsvField_commandWord] at hopc ha hb ho hrsv
  refine ⟨f (aField w) (bField w) (outselField w), decode_eq_ok_iff.mpr ?_, hn ..⟩
  rw [hf, eq_commandWord_iff]
  exact ⟨hopc, byte_of_masked ha, byte_of_masked hb, bit_of_masked ho, hrsv⟩

/-- Every row of R118 selects the words of its command alone. -/
theorem opcodeRows_selectTheirCommand : ∀ r ∈ opcodeRows, r.SelectsItsCommand := by
  simp only [opcodeRows, List.cons_append, List.nil_append, List.forall_mem_cons]
  exact ⟨
    selectsItsCommand (fun _ _ _ => .nop) 0x00 false false false (by decide) (by decide) (fun _ _ _ => rfl) (fun _ _ _ => rfl),
    selectsItsCommand (fun a b _ => .gfmul a b) 0x01 true true false (by decide) (by decide) (fun _ _ _ => rfl) (fun _ _ _ => rfl),
    selectsItsCommand (fun a _ _ => .sbox a) 0x02 true false false (by decide) (by decide) (fun _ _ _ => rfl) (fun _ _ _ => rfl),
    selectsItsCommand (fun a _ _ => .invsbox a) 0x03 true false false (by decide) (by decide) (fun _ _ _ => rfl) (fun _ _ _ => rfl),
    selectsItsCommand (fun _ _ _ => .setkey) 0x10 false false false (by decide) (by decide) (fun _ _ _ => rfl) (fun _ _ _ => rfl),
    selectsItsCommand (fun _ _ _ => .expand) 0x11 false false false (by decide) (by decide) (fun _ _ _ => rfl) (fun _ _ _ => rfl),
    selectsItsCommand (fun _ _ _ => .setiv) 0x12 false false false (by decide) (by decide) (fun _ _ _ => rfl) (fun _ _ _ => rfl),
    selectsItsCommand (fun _ _ _ => .geniv) 0x13 false false false (by decide) (by decide) (fun _ _ _ => rfl) (fun _ _ _ => rfl),
    selectsItsCommand (fun _ _ _ => .encblk) 0x20 false false false (by decide) (by decide) (fun _ _ _ => rfl) (fun _ _ _ => rfl),
    selectsItsCommand (fun _ _ _ => .decblk) 0x21 false false false (by decide) (by decide) (fun _ _ _ => rfl) (fun _ _ _ => rfl),
    selectsItsCommand (fun _ _ _ => .subbytes) 0x22 false false false (by decide) (by decide) (fun _ _ _ => rfl) (fun _ _ _ => rfl),
    selectsItsCommand (fun _ _ _ => .invsubbytes) 0x23 false false false (by decide) (by decide) (fun _ _ _ => rfl) (fun _ _ _ => rfl),
    selectsItsCommand (fun _ _ _ => .shiftrows) 0x24 false false false (by decide) (by decide) (fun _ _ _ => rfl) (fun _ _ _ => rfl),
    selectsItsCommand (fun _ _ _ => .invshiftrows) 0x25 false false false (by decide) (by decide) (fun _ _ _ => rfl) (fun _ _ _ => rfl),
    selectsItsCommand (fun _ _ _ => .mixcolumns) 0x26 false false false (by decide) (by decide) (fun _ _ _ => rfl) (fun _ _ _ => rfl),
    selectsItsCommand (fun _ _ _ => .invmixcolumns) 0x27 false false false (by decide) (by decide) (fun _ _ _ => rfl) (fun _ _ _ => rfl),
    selectsItsCommand (fun a _ _ => .addrk a) 0x28 true false false (by decide) (by decide) (fun _ _ _ => rfl) (fun _ _ _ => rfl),
    selectsItsCommand (fun _ _ o => .encrypt o) 0x30 false false true (by decide) (by decide) (fun _ _ _ => rfl) (fun _ _ _ => rfl),
    selectsItsCommand (fun _ _ o => .decrypt o) 0x31 false false true (by decide) (by decide) (fun _ _ _ => rfl) (fun _ _ _ => rfl),
    selectsItsCommand (fun _ _ _ => .zeroize) 0x3F false false false (by decide) (by decide) (fun _ _ _ => rfl) (fun _ _ _ => rfl),
    nofun⟩

/-- Every command's word is selected by a row with the command's mnemonic. -/
theorem exists_row_selects (i : Instr) : ∃ r ∈ opcodeRows, r.selects (encode i) = true ∧ r.mnemonic = i.mnemonic := by
  cases i with
  | nop => exact Laws.TableRow.nop
  | gfmul a b => exact Laws.TableRow.gfmul a b
  | sbox a => exact Laws.TableRow.sbox a
  | invsbox a => exact Laws.TableRow.invsbox a
  | setkey => exact Laws.TableRow.setkey
  | expand => exact Laws.TableRow.expand
  | setiv => exact Laws.TableRow.setiv
  | geniv => exact Laws.TableRow.geniv
  | encblk => exact Laws.TableRow.encblk
  | decblk => exact Laws.TableRow.decblk
  | subbytes => exact Laws.TableRow.subbytes
  | invsubbytes => exact Laws.TableRow.invsubbytes
  | shiftrows => exact Laws.TableRow.shiftrows
  | invshiftrows => exact Laws.TableRow.invshiftrows
  | mixcolumns => exact Laws.TableRow.mixcolumns
  | invmixcolumns => exact Laws.TableRow.invmixcolumns
  | addrk a => exact Laws.TableRow.addrk a
  | encrypt o => exact Laws.TableRow.encrypt o
  | decrypt o => exact Laws.TableRow.decrypt o
  | zeroize => exact Laws.TableRow.zeroize

end Sys2Proof

namespace Sys2Proof.Machine

/-! ### Illegal words (R113, R116, R117) -/

/-- A word that is no command's word completes with IllegalCommand. -/
theorem illegalAtCompletion_of_ne_encode {w : Word} (h : ∀ i, w ≠ encode i) : illegalAtCompletion w := by
  rintro s hb hw rfl
  rw [step_of_last hb hw, completeCommand]
  split
  · next i hd => exact absurd (decode_eq_ok_iff.mp hd) (h i)
  · rfl

/-- Settles O3: rows with the same OPC are the same row; a word decodes to a command exactly when it is the command's word, which
the command's row selects; and the operands are fields of that word. -/
theorem patternTableSelectsTheDecodedCommand : Obligations.PatternTableSelectsTheDecodedCommand := by
  refine ⟨fun w r hr r' hr' h h' => ?_, fun w i hd => ?_, fun w r hr => opcodeRows_selectTheirCommand r hr w, fun w hnone => ?_,
    fun w a b hd => ?_, fun w a hd => ?_, fun w o hd => ?_⟩
  · exact opcodeRows_ext r hr r' hr' ((opcField_of_selects hr h).symm.trans (opcField_of_selects hr' h'))
  · obtain rfl := decode_eq_ok_iff.mp hd
    exact exists_row_selects i
  · refine illegalAtCompletion_of_ne_encode ?_
    rintro i rfl
    obtain ⟨r, hr, hsel, -⟩ := exists_row_selects i
    exact Bool.noConfusion ((hnone r hr).symm.trans hsel)
  · obtain rfl := decode_eq_ok_iff.mp hd
    exact ⟨(aField_commandWord ..).symm, (bField_commandWord ..).symm⟩
  · simp only [decode_eq_ok_iff] at hd
    rcases hd with rfl | rfl | rfl <;> exact (aField_commandWord ..).symm
  · simp only [decode_eq_ok_iff] at hd
    rcases hd with rfl | rfl <;> exact (outselField_commandWord ..).symm

/-- Settles O4: in a command's word every field its opcode does not use is zero. -/
theorem nonzeroUnusedFieldIsIllegal : Obligations.NonzeroUnusedFieldIsIllegal := by
  intro w hfield
  refine illegalAtCompletion_of_ne_encode ?_
  rintro i rfl
  rcases hfield with hrsv | ⟨ha, h1, h2, h3, h28⟩ | ⟨hb, h1⟩ | ⟨ho, h30, h31⟩
  · exact hrsv (rsvField_encode i)
  · exact ha (aField_encode h1 h2 h3 h28)
  · exact hb (bField_encode h1)
  · exact Bool.noConfusion (ho.symm.trans (outselField_encode h30 h31))

/-- Settles O5: the OPC of a command's word is that of its row of R118, which is not reserved. -/
theorem reservedOpcodeIsIllegal : Obligations.ReservedOpcodeIsIllegal := by
  intro w hreserved
  refine illegalAtCompletion_of_ne_encode ?_
  rintro i rfl
  obtain ⟨r, hr, hsel, -⟩ := exists_row_selects i
  have hdefined := opcodeRows_opc r hr
  rw [← opcField_of_selects hr hsel] at hdefined
  omega

/-- Settles O1: the words are concrete, and `decode` computes on each. -/
theorem specWordsDecode : Obligations.SpecWordsDecode := by
  unfold Obligations.SpecWordsDecode
  decide

end Sys2Proof.Machine

/-! SUPPORT. Proofs of the statements of spec/41_gf_lut.md: the field laws, each from how the multiplier treats 1, `xtime` and XOR;
the ring of polynomials modulo the reduction polynomial; the tables; and the lookup commands. -/

namespace Sys2Proof.Machine

/-! ### The product and multiplication by x (R141 to R143) -/

/-- `xtime` of a power of two is the next power, or the reduction of x^8 (R141). -/
theorem xtime_one_shiftLeft : ∀ i : Fin 8, xtime (1#8 <<< i.val) = if i.val = 7 then 0x1B else 1#8 <<< (i.val + 1) := by
  decide

/-- A property that holds of 1 and that `xtime` and XOR keep holds of every byte: the powers of two are 1 under `xtime`. -/
theorem xtime_induction (P : Byte → Prop) (one : P 1) (step : ∀ a, P a → P (xtime a))
    (xor : ∀ a b, P a → P b → P (a ^^^ b)) (v : Byte) : P v := by
  refine byte_induction P (xor 1 1 one one) xor (fun i => ?_) v
  obtain ⟨i, hi⟩ := i
  induction i with
  | zero => exact one
  | succ i ih =>
    have hstep := step _ (ih (by omega))
    rwa [xtime_one_shiftLeft ⟨i, by omega⟩, if_neg (show i ≠ 7 by omega)] at hstep

@[simp] theorem xtime_zero : xtime 0#8 = 0#8 := by decide

theorem gfMulLoop_xtime_left (n : Nat) (a b : Byte) : gfMulLoop n (xtime a) b 0 = xtime (gfMulLoop n a b 0) := by
  induction n generalizing a b with
  | zero => exact xtime_zero.symm
  | succ n ih =>
    rw [gfMulLoop, gfMulLoop, gfMulLoop_acc, ih, gfMulLoop_acc n _ _ (if b.getLsbD 0 then 0 ^^^ a else 0), xtime_xor]
    split <;> simp

/-- Multiplying the first operand by x multiplies the product by x. -/
theorem gfMul_xtime_left (a b : Byte) : gfMul (xtime a) b = xtime (gfMul a b) := gfMulLoop_xtime_left 8 a b

theorem gfMul_zero_left (b : Byte) : gfMul 0 b = 0 := by
  have h := gfMul_xor_left 0 0 b
  rwa [BitVec.xor_self, BitVec.xor_self] at h

theorem gfMul_zero_right (a : Byte) : gfMul a 0 = 0 := by
  have h := gfMul_xor_right a 0 0
  rwa [BitVec.xor_self, BitVec.xor_self] at h

theorem gfMul_one_left (b : Byte) : gfMul 1 b = b := multiply_one b

theorem gfMul_one_right (a : Byte) : gfMul a 1 = a := by
  refine xtime_induction (fun a => gfMul a 1 = a) (by decide) (fun a ha => ?_) (fun a b ha hb => ?_) a
  · rw [gfMul_xtime_left, ha]
  · rw [gfMul_xor_left, ha, hb]

/-- Multiplying the second operand by x multiplies the product by x. -/
theorem gfMul_xtime_right (a b : Byte) : gfMul a (xtime b) = xtime (gfMul a b) := by
  refine xtime_induction (fun a => gfMul a (xtime b) = xtime (gfMul a b)) ?_ (fun a ha => ?_) (fun a a' ha ha' => ?_) a
  · rw [gfMul_one_left, gfMul_one_left]
  · rw [gfMul_xtime_left, ha, gfMul_xtime_left]
  · rw [gfMul_xor_left, ha, ha', gfMul_xor_left, xtime_xor]

theorem gfMul_comm (a b : Byte) : gfMul a b = gfMul b a := by
  refine xtime_induction (fun a => gfMul a b = gfMul b a) ?_ (fun a ha => ?_) (fun a a' ha ha' => ?_) a
  · rw [gfMul_one_left, gfMul_one_right]
  · rw [gfMul_xtime_left, gfMul_xtime_right, ha]
  · rw [gfMul_xor_left, gfMul_xor_right, ha, ha']

theorem gfMul_assoc (a b c : Byte) : gfMul (gfMul a b) c = gfMul a (gfMul b c) := by
  refine xtime_induction (fun a => gfMul (gfMul a b) c = gfMul a (gfMul b c)) ?_ (fun a ha => ?_) (fun a a' ha ha' => ?_) a
  · rw [gfMul_one_left, gfMul_one_left]
  · rw [gfMul_xtime_left, gfMul_xtime_left, gfMul_xtime_left, ha]
  · rw [gfMul_xor_left, gfMul_xor_left, gfMul_xor_left, ha, ha']

/-! ### The affine map and the inverse (R143, R145) -/

/-- The affine map of R145. -/
def sboxAffine (b : Byte) : Byte :=
  b ^^^ b.rotateLeft 1 ^^^ b.rotateLeft 2 ^^^ b.rotateLeft 3 ^^^ b.rotateLeft 4 ^^^ 0x63

/-- The affine map that undoes it. -/
def sboxAffineInv (c : Byte) : Byte := c.rotateLeft 1 ^^^ c.rotateLeft 3 ^^^ c.rotateLeft 6 ^^^ 0x05

theorem sboxAffine_sboxAffineInv : ∀ c : Byte, sboxAffine (sboxAffineInv c) = c := by decide +kernel

/-- The inverse of a byte, and 0 for 0, read off the table of R146 by undoing the affine map. -/
def gfInv (a : Byte) : Byte := sboxAffineInv (sbox a)

theorem gfInv_zero : gfInv 0 = 0 := rfl

/-- Checked entry by entry: the table holds the inverses. -/
theorem gfMul_gfInv : ∀ {a : Byte}, a ≠ 0 → gfMul a (gfInv a) = 1 := by decide +kernel

/-- Inverses are unique: b = b · (a · a⁻¹) = (a · b) · a⁻¹. -/
theorem eq_gfInv_of_gfMul_eq_one {a b : Byte} (h : gfMul a b = 1) : b = gfInv a := by
  have ha : a ≠ 0 := by
    rintro rfl
    exact absurd ((gfMul_zero_left b).symm.trans h) (by decide)
  calc b = gfMul b (gfMul a (gfInv a)) := by rw [gfMul_gfInv ha, gfMul_one_right]
    _ = gfMul (gfMul a b) (gfInv a) := by rw [← gfMul_assoc, gfMul_comm b a]
    _ = gfInv a := by rw [h, gfMul_one_left]

/-- Settles O30: the laws follow from linearity and from how the product treats 1 and multiplication by x; the inverse is the one
the table of R146 holds. -/
theorem multiplicationTableLaws : Obligations.MultiplicationTableLaws :=
  ⟨fun _ _ => rfl, gfMul_comm, fun a => ⟨gfMul_zero_right a, gfMul_one_right a⟩, gfMul_xor_right, gfMul_assoc,
    fun a ha => ⟨gfInv a, gfMul_gfInv ha, fun _ => eq_gfInv_of_gfMul_eq_one⟩⟩

/-! ### Bytes as polynomials modulo the reduction polynomial (R140) -/

theorem bytePolynomial_xor (a b : Byte) : bytePolynomial (a ^^^ b) = bytePolynomial a + bytePolynomial b := by
  simp only [bytePolynomial, ← Finset.sum_add_distrib, BitVec.getLsbD_xor]
  refine Finset.sum_congr rfl fun i _ => ?_
  cases a.getLsbD i <;> cases b.getLsbD i <;> simp [CharTwo.add_self_eq_zero]

theorem bytePolynomial_zero : bytePolynomial 0#8 = 0 := by simp [bytePolynomial]

/-- A power of two is a power of x. -/
theorem bytePolynomial_one_shiftLeft (i : Fin 8) : bytePolynomial (1#8 <<< i.val) = Polynomial.X ^ i.val := by
  have hbit (j : Nat) : (1#8 <<< i.val).getLsbD j = decide (j = i.val) := by
    rw [← BitVec.twoPow_eq, BitVec.getLsbD_twoPow]
    simp [i.isLt, eq_comm]
  simp [bytePolynomial, hbit]

/-- The class of a byte's polynomial modulo the reduction polynomial. -/
noncomputable def byteClass (v : Byte) : AdjoinRoot reductionPolynomial := AdjoinRoot.mk reductionPolynomial (bytePolynomial v)

theorem byteClass_xor (a b : Byte) : byteClass (a ^^^ b) = byteClass a + byteClass b := by
  simp only [byteClass, bytePolynomial_xor, map_add]

theorem byteClass_zero : byteClass 0#8 = 0 := by
  rw [byteClass, bytePolynomial_zero, map_zero]

theorem byteClass_one_shiftLeft (i : Fin 8) : byteClass (1#8 <<< i.val) = AdjoinRoot.root reductionPolynomial ^ i.val := by
  rw [byteClass, bytePolynomial_one_shiftLeft, map_pow, AdjoinRoot.mk_X]

theorem byteClass_one : byteClass 1 = 1 := (byteClass_one_shiftLeft 0).trans (pow_zero _)

/-- Modulo the reduction polynomial, x^8 is x^4 + x^3 + x + 1, which is the byte 0x1B: the two add up to that polynomial. -/
theorem byteClass_reduced : byteClass 0x1B = AdjoinRoot.root reductionPolynomial ^ 8 := by
  have h1B : bytePolynomial 0x1B = 1 + Polynomial.X + Polynomial.X ^ 3 + Polynomial.X ^ 4 := by
    simp [bytePolynomial, Finset.sum_range_succ]
  have hsum : bytePolynomial 0x1B + Polynomial.X ^ 8 = reductionPolynomial := by
    rw [h1B, reductionPolynomial]
    ring
  rw [byteClass, ← AdjoinRoot.mk_X, ← map_pow, AdjoinRoot.mk_eq_mk, CharTwo.sub_eq_add, hsum]

/-- `xtime` is multiplication by x (R141). -/
theorem byteClass_xtime (v : Byte) : byteClass (xtime v) = AdjoinRoot.root reductionPolynomial * byteClass v := by
  refine byte_induction (fun v => byteClass (xtime v) = AdjoinRoot.root reductionPolynomial * byteClass v) ?_
    (fun a b ha hb => ?_) (fun i => ?_) v
  · simp [byteClass_zero]
  · rw [xtime_xor, byteClass_xor, ha, hb, byteClass_xor, mul_add]
  · rw [xtime_one_shiftLeft, byteClass_one_shiftLeft, ← pow_succ']
    split
    · next h7 => rw [byteClass_reduced, h7]
    · next h7 => exact byteClass_one_shiftLeft ⟨i.val + 1, by omega⟩

/-- The product of bytes is the product of their classes. -/
theorem byteClass_gfMul (a b : Byte) : byteClass (gfMul a b) = byteClass a * byteClass b := by
  refine xtime_induction (fun a => byteClass (gfMul a b) = byteClass a * byteClass b) ?_ (fun a ha => ?_)
    (fun a a' ha ha' => ?_) a
  · rw [gfMul_one_left, byteClass_one, one_mul]
  · rw [gfMul_xtime_left, byteClass_xtime, ha, byteClass_xtime, mul_assoc]
  · rw [gfMul_xor_left, byteClass_xor, ha, ha', byteClass_xor, add_mul]

/-- Settles O31: two polynomials have the same class exactly when the reduction polynomial divides their difference. -/
theorem productIsPolynomialProduct : Obligations.ProductIsPolynomialProduct := by
  intro a b
  rw [← AdjoinRoot.mk_eq_mk, map_mul]
  exact (byteClass_gfMul a b).symm

/-! ### The rows of MixColumns (R144) -/

/-- Settles O32: each constant is 1 under `xtime` and XOR, and the product follows them. -/
theorem mixRowsByXtime : Obligations.MixRowsByXtime := by
  intro v
  have h2 : (0x02 : Byte) = xtime 1 := by decide
  have h3 : (0x03 : Byte) = xtime 1 ^^^ 1 := by decide
  have h9 : (0x09 : Byte) = xtime (xtime (xtime 1)) ^^^ 1 := by decide
  have hB : (0x0B : Byte) = xtime (xtime (xtime 1)) ^^^ xtime 1 ^^^ 1 := by decide
  have hD : (0x0D : Byte) = xtime (xtime (xtime 1)) ^^^ xtime (xtime 1) ^^^ 1 := by decide
  have hE : (0x0E : Byte) = xtime (xtime (xtime 1)) ^^^ xtime (xtime 1) ^^^ xtime 1 := by decide
  rw [h2, h3, h9, hB, hD, hE]
  simp only [multiply, gfMul_xor_left, gfMul_xtime_left, gfMul_one_left, and_self]

/-! ### The S-boxes (R145 to R148) -/

/-- Settles O33: in either case `b` is the inverse of `a`, which is S[a] with the affine map undone. -/
theorem sboxIsAffineOfInverse : Obligations.SboxIsAffineOfInverse := by
  intro a b h
  obtain rfl : b = gfInv a := by
    rcases h with ⟨rfl, rfl⟩ | h
    · exact gfInv_zero.symm
    · exact eq_gfInv_of_gfMul_eq_one h
  exact (sboxAffine_sboxAffineInv (sbox a)).symm

/-- S has no fixed point and no anti-fixed point (R148). -/
theorem sbox_ne_self_or_complement : ∀ a : Byte, sbox a ≠ a ∧ sbox a ≠ a ^^^ 0xFF := by decide +kernel

/-- Settles O34: each table undoes the other, so both are injective; the rest is read off the tables. -/
theorem sboxProperties : Obligations.SboxProperties :=
  ⟨invSbox_sbox, sbox_invSbox, fun _ _ h => Function.LeftInverse.injective invSbox_sbox h,
    fun _ _ h => Function.LeftInverse.injective sbox_invSbox h, rfl, rfl, rfl, rfl, rfl, rfl, sbox_ne_self_or_complement⟩

/-! ### The lookup commands (R150 to R152) -/

/-- The encoding of a command whose word has OPC and A alone: its word is found field by field, and every other word with
that OPC has a nonzero field it does not use (R113). -/
theorem aWord_of_encode {opc : Byte} {i : Byte → Instr} (henc : ∀ a, encode (i a) = commandWord opc a 0 false)
    (h1 : opc ≠ 0x01) (h30 : opc ≠ 0x30) (h31 : opc ≠ 0x31) : aWord opc i := by
  refine ⟨fun w a => ?_, fun w hopc hfield => nonzeroUnusedFieldIsIllegal w ?_⟩
  · rw [decode_eq_ok_iff, henc, eq_commandWord_iff]
  · subst hopc
    rcases hfield with hb | ho | hrsv
    · exact .inr (.inr (.inl ⟨hb, h1⟩))
    · exact .inr (.inr (.inr ⟨ho, h30, h31⟩))
    · exact .inl hrsv

theorem decode_eq_gfmul_iff {w : Word} {a b : Byte} : decode w = .ok (.gfmul a b) ↔
    opcField w = 0x01 ∧ aField w = a ∧ bField w = b ∧ outselField w = false ∧ rsvField w = 0 :=
  decode_eq_ok_iff.trans (eq_commandWord_iff ..)

theorem gfmul_illegalAtCompletion {w : Word} (hopc : opcField w = 0x01) (h : outselField w = true ∨ rsvField w ≠ 0) :
    illegalAtCompletion w := by
  refine nonzeroUnusedFieldIsIllegal w ?_
  rcases h with ho | hrsv
  · exact .inr (.inr (.inr ⟨ho, by rw [hopc]; decide, by rw [hopc]; decide⟩))
  · exact .inl hrsv

/-- Settles O35: the three effects and RESULT's value are the model's own equations, the encodings follow from the fields of a
command's word, and the examples are entries of the tables. -/
theorem lookupCommands : Obligations.LookupCommands :=
  ⟨fun _ _ _ => rfl, fun _ _ => rfl, fun _ _ => rfl, fun _ _ _ => decode_eq_gfmul_iff, fun _ => gfmul_illegalAtCompletion,
    aWord_of_encode (fun _ => rfl) (by decide) (by decide) (by decide),
    aWord_of_encode (fun _ => rfl) (by decide) (by decide) (by decide), fun _ => rfl,
    fun a b => ⟨gfMul_zero_left b, gfMul_zero_right a, multiply_one b⟩, rfl, rfl, rfl, rfl, rfl, invSbox_sbox⟩

end Sys2Proof.Machine

/-! SUPPORT. Proofs of the statements of spec/42_key_expansion.md: SETKEY and its errors, the bytes of the schedule EXPAND derives,
and the round constants. -/

namespace Sys2Proof.Machine

/-! ### The encoding of a command with no operand (R113) -/

/-- The word of such a command has OPC alone, and every other word with that OPC has a nonzero field it does not use. -/
theorem plainWord_of_encode {opc : Byte} {i : Instr} (henc : encode i = commandWord opc 0 0 false)
    (hA : opc ≠ 0x01 ∧ opc ≠ 0x02 ∧ opc ≠ 0x03 ∧ opc ≠ 0x28) (hO : opc ≠ 0x30 ∧ opc ≠ 0x31) : plainWord opc i := by
  refine ⟨fun w => ?_, fun w hopc hw => nonzeroUnusedFieldIsIllegal w ?_⟩
  · rw [decode_eq_ok_iff, henc, commandWord_opc]
  · subst hopc
    by_contra hunused
    simp only [not_or, not_and_or, not_not, Bool.not_eq_true] at hunused
    obtain ⟨hrsv, ha, hb, ho⟩ := hunused
    refine hw ?_
    rw [← commandWord_opc, eq_commandWord_iff]
    exact ⟨rfl, ha.resolve_right (by tauto), hb.resolve_right hA.1, ho.resolve_right (by tauto), hrsv⟩

/-! ### SETKEY (R170) -/

/-- Every mode tag but the reserved one names the mode with that tag (R41). -/
theorem Mode.exists_ofBits {b : BitVec 2} (h : b ≠ 3) : ∃ m, Mode.ofBits b = some m ∧ m.bits = b := by
  have htag : b = 0 ∨ b = 1 ∨ b = 2 := by bv_omega
  rcases htag with rfl | rfl | rfl
  · exact ⟨.ecb, rfl, rfl⟩
  · exact ⟨.cbc, rfl, rfl⟩
  · exact ⟨.pvs, rfl, rfl⟩

theorem exec_setkey_illegalLength {s : State} (h : legalKeyBits s.cfgKeyBits = false) :
    exec .setkey s = .next (errorState .invalidKeyLength s) := by
  simp [exec, execSetkey, h, raise]

theorem exec_setkey_reservedMode {s : State} (h : legalKeyBits s.cfgKeyBits = true) (hm : s.cfgMode = 3) :
    exec .setkey s = .next (errorState .invalidMode s) := by
  simp [exec, execSetkey, h, hm, Mode.ofBits, raise]

theorem exec_setkey_latches {s : State} {m : Mode} (h : legalKeyBits s.cfgKeyBits = true) (hm : Mode.ofBits s.cfgMode = some m) :
    exec .setkey s = .next (completed (clearIv (clearSchedule
      { s with key := stagedKey s, keybits := s.cfgKeyBits, mode := m, keyValid := true }))) := by
  simp [exec, execSetkey, h, hm, complete]

/-- Settles O36: the three ends of SETKEY, the staged key being KEYIN cut off at KEYBITS/8 bytes. -/
theorem setkeyLatchesTheStagedKey : Obligations.SetkeyLatchesTheStagedKey := by
  refine ⟨plainWord_of_encode rfl (by decide) (by decide), fun s hlen hmode => ?_, fun s h128 h192 h256 => ?_,
    fun s hlen hmode => exec_setkey_reservedMode ((legalKeyBits_iff _).mpr hlen) hmode⟩
  · obtain ⟨m, hm, hbits⟩ := Mode.exists_ofBits hmode
    exact ⟨_, exec_setkey_latches ((legalKeyBits_iff _).mpr hlen) hm, rfl, hbits, fun i => take_padded_getElem s.keyin _ i i.isLt⟩
  · refine exec_setkey_illegalLength (Bool.eq_false_iff.mpr fun hlegal => ?_)
    rcases (legalKeyBits_iff _).mp hlegal with h | h | h
    · exact h128 h
    · exact h192 h
    · exact h256 h

/-! ### The bytes of a schedule (R174, R177) -/

/-- Byte m of schedule word j (R174). -/
def scheduleByte (ks : Vector Byte 240) (j m : Nat) : Byte := ks.getD (4 * j + m % 4) 0

/-- The words of an expansion fill the schedule from byte 0 on (R172, R180). -/
theorem scheduleByte_expand (key : List Byte) {nk j : Nat} (m : Nat) (hn : nk ≤ 8) (hj : j < 4 * (nk + 7)) :
    scheduleByte (bytesOf 240 (expand key nk)) j m = (wordAt (expandWords key nk) j)[m % 4]'(Nat.mod_lt _ (by decide)) := by
  have hm : m % 4 < 4 := Nat.mod_lt _ (by decide)
  rw [scheduleByte, getD_eq_getElem _ _ (by omega), bytesOf_getElem, expand_getD _ _ _ _ hm]

/-- The schedule begins with the key (R177). -/
theorem expand_getD_key (key : List Byte) {nk k : Nat} (hk : k < 4 * nk) : (expand key nk).getD k 0 = key.getD k 0 := by
  have hword : (expand key nk).getD (4 * (k / 4) + k % 4) 0 = key.getD (4 * (k / 4) + k % 4) 0 := by
    rw [expand_getD _ _ _ _ (Nat.mod_lt _ (by decide)), wordAt_expandWords_key _ _ _ (by omega)]
    simp [keyWordAt]
  rwa [Nat.div_add_mod] at hword

/-- Past `16 (Nr + 1)` bytes the schedule is zero (R180). -/
theorem expand_getD_past (key : List Byte) {nk k : Nat} (hk : 16 * (nk + 7) ≤ k) : (expand key nk).getD k 0 = 0 := by
  rw [List.getD_eq_getElem?_getD, List.getElem?_eq_none (by rw [expand_length]; exact hk), Option.getD_none]

/-- The loop body of R174 on the bytes of the schedule; its second branch is that of 256-bit keys. -/
theorem scheduleByte_expand_next (key : List Byte) {nk i m : Nat} (hn : nk = 4 ∨ nk = 6 ∨ nk = 8) (hi : nk ≤ i)
    (hi' : i < 4 * (nk + 7)) (hm : m < 4) :
    scheduleByte (bytesOf 240 (expand key nk)) i m = scheduleByte (bytesOf 240 (expand key nk)) (i - nk) m ^^^
      (if i % nk = 0 then
        sbox (scheduleByte (bytesOf 240 (expand key nk)) (i - 1) (m + 1)) ^^^ (if m = 0 then rconByte (i / nk - 1) else 0)
      else if nk = 8 ∧ i % 8 = 4 then sbox (scheduleByte (bytesOf 240 (expand key nk)) (i - 1) m)
      else scheduleByte (bytesOf 240 (expand key nk)) (i - 1) m) := by
  have hle : nk ≤ 8 := by omega
  have hbranch : (6 < nk ∧ i % nk = 4) ↔ (nk = 8 ∧ i % 8 = 4) := by
    rcases hn with rfl | rfl | rfl <;> simp
  rw [scheduleByte_expand key m hle hi', scheduleByte_expand key m hle (by omega), scheduleByte_expand key m hle (by omega),
    scheduleByte_expand key (m + 1) hle (by omega), wordAt_expandWords_next key nk i (by omega) hi hi']
  simp only [Nat.mod_eq_of_lt hm, nextWord_getElem _ _ _ _ hm, hbranch]

/-! ### EXPAND (R180) -/

/-- What EXPAND leaves, before the completion's own fields: the schedule of the latched key, with its Nk and Nr. -/
def expanded (s : State) : State :=
  { s with ks := bytesOf 240 (expand (s.key.toList.take (4 * latchedNk s)) (latchedNk s)), nk := BitVec.ofNat 4 (latchedNk s),
           nr := BitVec.ofNat 5 (latchedNk s + 6), ksValid := true }

theorem exec_expand_noKey {s : State} (h : s.keyValid = false) : exec .expand s = .next (errorState .noKey s) := by
  simp [exec, execExpand, h, raise]

theorem exec_expand_keyed {s : State} (h : s.keyValid = true) : exec .expand s = .next (completed (expanded s)) := by
  simp [exec, execExpand, h, complete, expanded]

/-- A second EXPAND changes nothing: the schedule depends on the latched key and length alone (R177). -/
theorem exec_expand_again {s : State} (h : s.keyValid = true) :
    exec .expand (completed (expanded s)) = .next (completed (expanded s)) := by
  have hagain : completed (expanded (completed (expanded s))) = completed (expanded s) := by
    simp only [expanded, completed, finish, latchedNk]
  rw [exec_expand_keyed (s := completed (expanded s)) h, hagain]

/-- Nk of each legal key length (R172). -/
theorem latchedNk_of_legal {s : State} (h : s.keybits = 128 ∨ s.keybits = 192 ∨ s.keybits = 256) :
    latchedNk s = 4 ∨ latchedNk s = 6 ∨ latchedNk s = 8 := by
  rcases h with h | h | h <;> simp [latchedNk, h]

theorem expanded_nk_toNat {s : State} (h : latchedNk s ≤ 8) : (expanded s).nk.toNat = latchedNk s := by
  rw [expanded, BitVec.toNat_ofNat]; omega

theorem expanded_nr_toNat {s : State} (h : latchedNk s ≤ 8) : (expanded s).nr.toNat = latchedNk s + 6 := by
  rw [expanded, BitVec.toNat_ofNat]; omega

theorem expanded_ks_getElem (s : State) {k : Nat} (hk : k < 240) :
    (expanded s).ks[k] = (expand (s.key.toList.take (4 * latchedNk s)) (latchedNk s)).getD k 0 := bytesOf_getElem ..

/-- Settles O37: the completed schedule is the expansion of the latched key, whose bytes the lemmas above give. -/
theorem expandDerivesTheSchedule : Obligations.ExpandDerivesTheSchedule := by
  refine ⟨plainWord_of_encode rfl (by decide) (by decide), fun s => exec_expand_noKey, fun s hkey hlen => ?_⟩
  have hn := latchedNk_of_legal hlen
  have hle : latchedNk s ≤ 8 := by omega
  refine ⟨completed (expanded s), exec_expand_keyed hkey, rfl, ?_⟩
  simp only [completed_nk, completed_nr, expanded_nk_toNat hle, expanded_nr_toNat hle]
  refine ⟨rfl, trivial, fun k hk hk32 hk240 => ?_, fun i m hi hi' => scheduleByte_expand_next _ hn hi hi' m.isLt,
    fun k hk240 hk => ?_, exec_expand_again hkey⟩
  · rw [completed_ks, expanded_ks_getElem, expand_getD_key _ hk]
    simp [hk, hk32]
  · rw [completed_ks, expanded_ks_getElem, expand_getD_past _ hk]

/-! ### The round constants (R173) -/

/-- Settles O38: `rcon` and `rconByte` by their equations, and ten steps of `xtime`. -/
theorem roundConstants : Obligations.RoundConstants :=
  ⟨fun _ => ⟨rfl, rfl, rfl, rfl, rfl⟩, by decide⟩

end Sys2Proof.Machine

/-! SUPPORT. Proofs of the statements of spec/43_block_transform.md: the round transforms and their inverses, the cipher and its
inverse, and the commands on BLOCK, one by one and in the sequences of R214. -/

namespace Sys2Proof.Machine

/-! ### The entries of the state matrix under each transform (R15, R201 to R206) -/

@[simp] theorem cell_subBytes (b : Block) (r c : Nat) : cell (subBytes b) r c = sbox (cell b r c) := by simp [cell]
@[simp] theorem cell_invSubBytes (b : Block) (r c : Nat) : cell (invSubBytes b) r c = invSbox (cell b r c) := by simp [cell]

theorem cell_shiftRows (b : Block) (r c : Nat) : cell (shiftRows b) r c = cell b r (c + r) := by
  rw [shiftRows, cell_ofCells]
  exact cell_congr b (by omega) (by omega)

theorem cell_invShiftRows (b : Block) (r c : Nat) : cell (invShiftRows b) r c = cell b r (c + 4 - r % 4) := by
  rw [invShiftRows, cell_ofCells]
  exact cell_congr b (by omega) (by omega)

theorem cell_add_four (b : Block) (r c : Nat) : cell b (r + 4) c = cell b r c := cell_congr b (by omega) rfl

/-! ### Byte by byte (R201 to R207) -/

theorem toList_shiftRows (b : Block) : (shiftRows b).toList =
    [b[0], b[5], b[10], b[15], b[4], b[9], b[14], b[3], b[8], b[13], b[2], b[7], b[12], b[1], b[6], b[11]] := by
  simp [shiftRows, ofCells, cell, Vector.toList_ofFn, List.ofFn_succ]

theorem toList_invShiftRows (b : Block) : (invShiftRows b).toList =
    [b[0], b[13], b[10], b[7], b[4], b[1], b[14], b[11], b[8], b[5], b[2], b[15], b[12], b[9], b[6], b[3]] := by
  simp [invShiftRows, ofCells, cell, Vector.toList_ofFn, List.ofFn_succ]

theorem addRoundKey_getElem (ks : Vector Byte 240) (b : Block) {r i : Nat} (hr : r < 15) (hi : i < 16) :
    (addRoundKey ks b r)[i] = b[i] ^^^ ks[16 * r + i] := by
  rw [addRoundKey, xorBlock_getElem, roundKey, Vector.getElem_ofFn, getD_eq_getElem ks (16 * r + i) (by omega)]

/-! ### MixColumns and InvMixColumns: products of circulant matrices (R204, R205) -/

theorem multiply_xor_left (a a' v : Byte) : multiply (a ^^^ a') v = multiply a v ^^^ multiply a' v := gfMul_xor_left a a' v

theorem multiply_multiply (a a' v : Byte) : multiply a (multiply a' v) = multiply (multiply a a') v := (gfMul_assoc a a' v).symm

/-- Mixing twice is mixing once: the base row of a product of circulant matrices is the cyclic convolution of their base rows. -/
theorem mixCell_mixCell {k0 k1 k2 k3 l0 l1 l2 l3 : Byte} {b m : Block} (hm : ∀ r c, cell m r c = mixCell l0 l1 l2 l3 b r c)
    (r c : Nat) : mixCell k0 k1 k2 k3 m r c =
      mixCell (multiply k0 l0 ^^^ multiply k1 l3 ^^^ multiply k2 l2 ^^^ multiply k3 l1)
        (multiply k0 l1 ^^^ multiply k1 l0 ^^^ multiply k2 l3 ^^^ multiply k3 l2)
        (multiply k0 l2 ^^^ multiply k1 l1 ^^^ multiply k2 l0 ^^^ multiply k3 l3)
        (multiply k0 l3 ^^^ multiply k1 l2 ^^^ multiply k2 l1 ^^^ multiply k3 l0) b r c := by
  have h4 : cell b (r + 4) c = cell b r c := cell_add_four b r c
  have h5 : cell b (r + 5) c = cell b (r + 1) c := cell_add_four b (r + 1) c
  have h6 : cell b (r + 6) c = cell b (r + 2) c := cell_add_four b (r + 2) c
  simp only [mixCell, hm, Nat.add_assoc, Nat.reduceAdd, h4, h5, h6, multiply_xor_right, multiply_xor_left, multiply_multiply]
  ac_rfl

/-- The base row 1, 0, 0, 0 is that of the identity. -/
theorem mixCell_one (b : Block) (r c : Nat) : mixCell 1 0 0 0 b r c = cell b r c := by
  simp only [mixCell, multiply, gfMul_zero_left, gfMul_one_left]
  simp

@[simp] theorem invMixColumns_mixColumns (b : Block) : invMixColumns (mixColumns b) = b := by
  refine block_ext_cells fun r c _ _ => ?_
  rw [cell_invMixColumns, mixCell_mixCell (cell_mixColumns b)]
  exact mixCell_one b r c

@[simp] theorem mixColumns_invMixColumns (b : Block) : mixColumns (invMixColumns b) = b := by
  refine block_ext_cells fun r c _ _ => ?_
  rw [cell_mixColumns, mixCell_mixCell (cell_invMixColumns b)]
  exact mixCell_one b r c

/-- On a column of equal bytes the coefficients of a row add up. -/
theorem mixCell_of_constant {k0 k1 k2 k3 : Byte} {b : Block} {c : Nat} {x : Byte} (h : ∀ r, cell b r c = x) (r : Nat) :
    mixCell k0 k1 k2 k3 b r c = multiply (k0 ^^^ k1 ^^^ k2 ^^^ k3) x := by
  simp only [mixCell, h, multiply_xor_left]

theorem cell_mixColumns_of_constant {b : Block} {c : Nat} {x : Byte} (h : ∀ r, cell b r c = x) (r : Nat) :
    cell (mixColumns b) r c = x := by
  rw [cell_mixColumns, mixCell_of_constant h]
  exact multiply_one x

theorem cell_invMixColumns_of_constant {b : Block} {c : Nat} {x : Byte} (h : ∀ r, cell b r c = x) (r : Nat) :
    cell (invMixColumns b) r c = x := by
  rw [cell_invMixColumns, mixCell_of_constant h]
  exact multiply_one x

/-- Settles O39: MixColumns and InvMixColumns by the entries of their matrices, the others by their bytes. -/
theorem roundTransformsByteByByte : Obligations.RoundTransformsByteByByte := by
  intro b ks
  refine ⟨fun i => ⟨subBytes_getElem b i i.isLt, invSubBytes_getElem b i i.isLt⟩, toList_shiftRows b, toList_invShiftRows b,
    fun c => ?_, fun r i => addRoundKey_getElem ks b r.isLt i.isLt⟩
  have h4 : cell b 4 c = cell b 0 c := cell_add_four b 0 c
  have h5 : cell b 5 c = cell b 1 c := cell_add_four b 1 c
  have h6 : cell b 6 c = cell b 2 c := cell_add_four b 2 c
  simp only [cell_mixColumns, cell_invMixColumns, mixCell, Nat.reduceAdd, h4, h5, h6, multiply_one]
  refine ⟨trivial, ?_, ?_, ?_, trivial, ?_, ?_, ?_⟩ <;> ac_rfl

/-! ### The inverses, and byte substitution past row shifts (R205 to R208) -/

@[simp] theorem addRoundKey_addRoundKey (ks : Vector Byte 240) (b : Block) (r : Nat) :
    addRoundKey ks (addRoundKey ks b r) r = b := xorBlock_cancel b (roundKey ks r)

theorem subBytes_shiftRows (b : Block) : subBytes (shiftRows b) = shiftRows (subBytes b) := by
  refine block_ext_cells fun r c _ _ => ?_
  simp only [cell_subBytes, cell_shiftRows]

theorem invSubBytes_shiftRows (b : Block) : invSubBytes (shiftRows b) = shiftRows (invSubBytes b) := by
  refine block_ext_cells fun r c _ _ => ?_
  simp only [cell_invSubBytes, cell_shiftRows]

theorem subBytes_invShiftRows (b : Block) : subBytes (invShiftRows b) = invShiftRows (subBytes b) := by
  refine block_ext_cells fun r c _ _ => ?_
  simp only [cell_subBytes, cell_invShiftRows]

theorem invSubBytes_invShiftRows (b : Block) : invSubBytes (invShiftRows b) = invShiftRows (invSubBytes b) := by
  refine block_ext_cells fun r c _ _ => ?_
  simp only [cell_invSubBytes, cell_invShiftRows]

/-- Settles O40: the lemmas on each pair of transforms. -/
theorem roundTransformsInvert : Obligations.RoundTransformsInvert := fun b ks r =>
  ⟨invSubBytes_subBytes b, subBytes_invSubBytes b, invShiftRows_shiftRows b, shiftRows_invShiftRows b,
    invMixColumns_mixColumns b, mixColumns_invMixColumns b, addRoundKey_addRoundKey ks b r,
    subBytes_shiftRows b, invSubBytes_shiftRows b, subBytes_invShiftRows b, invSubBytes_invShiftRows b⟩

/-! ### The cipher and its inverse (R210 to R212) -/

/-- The last of the rounds of R210, taken off the loop. -/
theorem encRounds_succ (ks : Vector Byte 240) (n r : Nat) (b : Block) :
    encRounds ks (n + 1) r b = encRound ks (r + n) (encRounds ks n r b) := by
  induction n generalizing r b with
  | zero => rfl
  | succ n ih => rw [encRounds, ih, Nat.add_right_comm, Nat.add_assoc, encRounds]

/-- A round of R211 undoes a round of R210 together with the substitution and row shift that follow it, up to those of its own
block: the two loops are grouped one half round apart. -/
theorem decRound_encRound (ks : Vector Byte 240) (r : Nat) (b : Block) :
    decRound ks r (shiftRows (subBytes (encRound ks r b))) = shiftRows (subBytes b) := by
  simp [decRound, encRound]

theorem encRound_decRound (ks : Vector Byte 240) (r : Nat) (b : Block) :
    encRound ks r (invSubBytes (invShiftRows (decRound ks r b))) = invSubBytes (invShiftRows b) := by
  simp [decRound, encRound]

/-- The loop of R211 undoes the loop of R210, last round first. -/
theorem decRounds_encRounds (ks : Vector Byte 240) (n : Nat) (b : Block) :
    decRounds ks n (shiftRows (subBytes (encRounds ks n 1 b))) = shiftRows (subBytes b) := by
  induction n with
  | zero => rfl
  | succ n ih => rw [encRounds_succ, Nat.add_comm 1 n, decRounds, decRound_encRound, ih]

/-- The loop of R210 redoes what the loop of R211 undid. -/
theorem encRounds_decRounds (ks : Vector Byte 240) (n : Nat) (b : Block) :
    encRounds ks n 1 (invSubBytes (invShiftRows (decRounds ks n b))) = invSubBytes (invShiftRows b) := by
  induction n generalizing b with
  | zero => rfl
  | succ n ih => rw [encRounds_succ, Nat.add_comm 1 n, decRounds, ih, encRound_decRound]

@[simp] theorem invCipher_cipher (ks : Vector Byte 240) (nr : Nat) (b : Block) : invCipher ks nr (cipher ks nr b) = b := by
  simp [invCipher, cipher, decRounds_encRounds]

@[simp] theorem cipher_invCipher (ks : Vector Byte 240) (nr : Nat) (b : Block) : cipher ks nr (invCipher ks nr b) = b := by
  simp [invCipher, cipher, encRounds_decRounds]

/-- Settles O41: the outer steps cancel, and the two round loops meet round by round. -/
theorem cipherAndInverseCipherUndoEachOther : Obligations.CipherAndInverseCipherUndoEachOther :=
  fun ks nr b => ⟨invCipher_cipher ks nr b, cipher_invCipher ks nr b⟩

/-! ### The commands on BLOCK (R220 to R228) -/

/-- The state a command leaves that succeeds and writes BLOCK alone (R60). -/
def completedBlock (s : State) (b : Block) : State := completed { s with blk := b }

@[simp] theorem completedBlock_blk (s : State) (b : Block) : (completedBlock s b).blk = b := rfl
@[simp] theorem completedBlock_ks (s : State) (b : Block) : (completedBlock s b).ks = s.ks := rfl
@[simp] theorem completedBlock_nr (s : State) (b : Block) : (completedBlock s b).nr = s.nr := rfl
@[simp] theorem completedBlock_ksValid (s : State) (b : Block) : (completedBlock s b).ksValid = s.ksValid := rfl
@[simp] theorem completedBlock_err (s : State) (b : Block) : (completedBlock s b).err = false := rfl
@[simp] theorem completedBlock_completedBlock (s : State) (b b' : Block) :
    completedBlock (completedBlock s b) b' = completedBlock s b' := rfl
@[simp] theorem completedBlock_self (s : State) : completedBlock s s.blk = completed s := rfl

@[simp] theorem exec_subbytes (s : State) : exec .subbytes s = .next (completedBlock s (subBytes s.blk)) := rfl
@[simp] theorem exec_invsubbytes (s : State) : exec .invsubbytes s = .next (completedBlock s (invSubBytes s.blk)) := rfl
@[simp] theorem exec_shiftrows (s : State) : exec .shiftrows s = .next (completedBlock s (shiftRows s.blk)) := rfl
@[simp] theorem exec_invshiftrows (s : State) : exec .invshiftrows s = .next (completedBlock s (invShiftRows s.blk)) := rfl
@[simp] theorem exec_mixcolumns (s : State) : exec .mixcolumns s = .next (completedBlock s (mixColumns s.blk)) := rfl
@[simp] theorem exec_invmixcolumns (s : State) : exec .invmixcolumns s = .next (completedBlock s (invMixColumns s.blk)) := rfl

section Scheduled
variable {s : State} (hks : s.ksValid = true)
include hks

theorem exec_encblk : exec .encblk s = .next (completedBlock s (cipher s.ks s.nr.toNat s.blk)) := by
  simp [exec, execEncblk, hks, encBlock, completedBlock]

theorem exec_decblk : exec .decblk s = .next (completedBlock s (invCipher s.ks s.nr.toNat s.blk)) := by
  simp [exec, execDecblk, hks, decBlock, completedBlock]

theorem exec_addrk {r : Byte} (hr : r.toNat ≤ s.nr.toNat) :
    exec (.addrk r) s = .next (completedBlock s (addRoundKey s.ks s.blk r.toNat)) := by
  simp [exec, execAddrk, hks, hr, completedBlock]

theorem exec_addrk_invalidRound {r : Byte} (hr : s.nr.toNat < r.toNat) :
    exec (.addrk r) s = .next (errorState .invalidRound s) := by
  simp [exec, execAddrk, hks, Nat.not_le.mpr hr]

end Scheduled

section Unscheduled
variable {s : State} (hks : s.ksValid = false)
include hks

theorem exec_encblk_nullKeyExpansion : exec .encblk s = .next (errorState .nullKeyExpansion s) := by
  simp [exec, execEncblk, hks]

theorem exec_decblk_nullKeyExpansion : exec .decblk s = .next (errorState .nullKeyExpansion s) := by
  simp [exec, execDecblk, hks]

theorem exec_addrk_nullKeyExpansion (r : Byte) : exec (.addrk r) s = .next (errorState .nullKeyExpansion s) := by
  simp [exec, execAddrk, hks]

end Unscheduled

/-- A sequence goes on from what a successful command on BLOCK leaves. -/
theorem runAll_cons {i : Instr} {s : State} {b : Block} (h : exec i s = .next (completedBlock s b)) (rest : List Instr) :
    runAll (i :: rest) s = runAll rest (completedBlock s b) := by
  rw [runAll, h]
  rfl

/-- Two commands on BLOCK whose second undoes the first complete and leave BLOCK as it was. -/
theorem runAll_pair {i j : Instr} {s : State} {b : Block} (hi : exec i s = .next (completedBlock s b))
    (hj : exec j (completedBlock s b) = .next (completedBlock (completedBlock s b) s.blk)) :
    runAll [i, j] s = some (completed s) := by
  rw [runAll_cons hi, runAll_cons hj]
  rfl

/-- Settles O42: the four ends by their equations, and the pair by R212. -/
theorem blockCipherCommands : Obligations.BlockCipherCommands := by
  refine ⟨plainWord_of_encode rfl (by decide) (by decide), plainWord_of_encode rfl (by decide) (by decide), fun s hks => ?_,
    fun s hks => ⟨exec_encblk_nullKeyExpansion hks, exec_decblk_nullKeyExpansion hks⟩⟩
  have hback : exec .decblk (completedBlock s (cipher s.ks s.nr.toNat s.blk)) =
      .next (completedBlock (completedBlock s (cipher s.ks s.nr.toNat s.blk)) s.blk) := by
    rw [exec_decblk (s := completedBlock s _) hks]
    simp
  exact ⟨exec_encblk hks, exec_decblk hks, runAll_pair (exec_encblk hks) hback⟩

/-- Settles O44: the three ends by their equations, and the pair by R207. -/
theorem addrkXorsARoundKey : Obligations.AddrkXorsARoundKey := by
  refine ⟨aWord_of_encode (fun _ => rfl) (by decide) (by decide) (by decide), fun s r hks hr => ?_,
    fun s r hks => exec_addrk_nullKeyExpansion hks r, fun s r hks => exec_addrk_invalidRound hks⟩
  have hback : exec (.addrk r) (completedBlock s (addRoundKey s.ks s.blk r.toNat)) =
      .next (completedBlock (completedBlock s (addRoundKey s.ks s.blk r.toNat)) s.blk) := by
    rw [exec_addrk (s := completedBlock s _) hks hr]
    simp
  exact ⟨exec_addrk hks hr, runAll_pair (exec_addrk hks hr) hback⟩

/-! ### The corner cases of the step commands (R222 to R227) -/

/-- A block with four equal columns keeps its rows (R224). -/
theorem shiftRows_of_equal_columns {b : Block} (h : ∀ r c : Fin 4, cell b r c = cell b r 0) : shiftRows b = b := by
  refine block_ext_cells fun r c hr hc => ?_
  calc cell (shiftRows b) r c = cell b r (c + r) := cell_shiftRows b r c
    _ = cell b r ((c + r) % 4) := cell_congr b rfl (by omega)
    _ = cell b r 0 := h ⟨r, hr⟩ ⟨(c + r) % 4, by omega⟩
    _ = cell b r c := (h ⟨r, hr⟩ ⟨c, hc⟩).symm

/-- A column's four bytes are all its entries, the row being taken mod 4 (R15). -/
theorem cell_eq_of_forall_fin {b : Block} {c : Nat} {x : Byte} (h : ∀ r : Fin 4, cell b r c = x) (r : Nat) : cell b r c = x :=
  (cell_congr b (by simp) rfl).trans (h ⟨r % 4, by omega⟩)

/-- Settles O43: the effects are the model's own equations, the corner cases the lemmas above, and the examples compute. -/
theorem stepCommandsTransformBlock : Obligations.StepCommandsTransformBlock :=
  ⟨plainWord_of_encode rfl (by decide) (by decide), plainWord_of_encode rfl (by decide) (by decide),
    plainWord_of_encode rfl (by decide) (by decide), plainWord_of_encode rfl (by decide) (by decide),
    plainWord_of_encode rfl (by decide) (by decide), plainWord_of_encode rfl (by decide) (by decide),
    fun s => ⟨exec_subbytes s, exec_invsubbytes s, exec_shiftrows s, exec_invshiftrows s, exec_mixcolumns s, exec_invmixcolumns s⟩,
    by decide, fun _ => shiftRows_of_equal_columns, by decide,
    fun _ _ _ h r => ⟨cell_mixColumns_of_constant (cell_eq_of_forall_fin h) r,
      cell_invMixColumns_of_constant (cell_eq_of_forall_fin h) r⟩,
    by decide, by decide⟩

/-! ### The step commands in sequence (R214) -/

/-- ADDRK with a round index up to Nr, which fits its operand because Nr is five bits wide. -/
theorem exec_addrk_ofNat {s : State} (hks : s.ksValid = true) {r : Nat} (hr : r ≤ s.nr.toNat) :
    exec (.addrk (BitVec.ofNat 8 r)) s = .next (completedBlock s (addRoundKey s.ks s.blk r)) := by
  have hnr := s.nr.isLt
  have hidx : (BitVec.ofNat 8 r).toNat = r := by rw [BitVec.toNat_ofNat]; omega
  rw [exec_addrk hks (hidx.symm ▸ hr), hidx]

theorem exec_addrk_zero {s : State} (hks : s.ksValid = true) :
    exec (.addrk 0) s = .next (completedBlock s (addRoundKey s.ks s.blk 0)) := exec_addrk hks (Nat.zero_le _)

section Sequences
variable {s : State} (hks : s.ksValid = true)
include hks

/-- ADDRK in a sequence, from a state that has completed a command on BLOCK. -/
theorem runAll_addrk {r : Nat} (hr : r ≤ s.nr.toNat) (b : Block) (rest : List Instr) :
    runAll (.addrk (BitVec.ofNat 8 r) :: rest) (completedBlock s b) = runAll rest (completedBlock s (addRoundKey s.ks b r)) :=
  runAll_cons (exec_addrk_ofNat (s := completedBlock s b) hks hr) rest

/-- The four commands of one middle round (R210). -/
theorem runAll_encRound {r : Nat} (hr : r ≤ s.nr.toNat) (b : Block) (rest : List Instr) :
    runAll ([.subbytes, .shiftrows, .mixcolumns, .addrk (BitVec.ofNat 8 r)] ++ rest) (completedBlock s b) =
      runAll rest (completedBlock s (encRound s.ks r b)) := by
  simp only [List.cons_append, List.nil_append, runAll_cons (exec_subbytes _), runAll_cons (exec_shiftrows _),
    runAll_cons (exec_mixcolumns _), completedBlock_completedBlock, completedBlock_blk]
  rw [runAll_addrk hks hr, encRound]

/-- The four commands of one middle round of the inverse (R211). -/
theorem runAll_decRound {r : Nat} (hr : r ≤ s.nr.toNat) (b : Block) (rest : List Instr) :
    runAll ([.invshiftrows, .invsubbytes, .addrk (BitVec.ofNat 8 r), .invmixcolumns] ++ rest) (completedBlock s b) =
      runAll rest (completedBlock s (decRound s.ks r b)) := by
  simp only [List.cons_append, List.nil_append, runAll_cons (exec_invshiftrows _), runAll_cons (exec_invsubbytes _),
    completedBlock_completedBlock, completedBlock_blk]
  rw [runAll_addrk hks hr, runAll_cons (exec_invmixcolumns _), completedBlock_completedBlock, completedBlock_blk, decRound]

/-- The middle rounds 1 to n (R210). -/
theorem runAll_encRounds {n : Nat} (hn : n ≤ s.nr.toNat) (b : Block) (rest : List Instr) :
    runAll ((List.range n).flatMap (fun k => [.subbytes, .shiftrows, .mixcolumns, .addrk (BitVec.ofNat 8 (k + 1))]) ++ rest)
        (completedBlock s b) =
      runAll rest (completedBlock s (encRounds s.ks n 1 b)) := by
  induction n generalizing rest with
  | zero => rfl
  | succ n ih =>
    rw [List.range_succ, List.flatMap_append, List.append_assoc, ih (by omega), List.flatMap_singleton,
      runAll_encRound hks hn, encRounds_succ, Nat.add_comm 1 n]

/-- The middle rounds of the inverse, n down to 1 (R211). -/
theorem runAll_decRounds {n : Nat} (hn : n ≤ s.nr.toNat) (b : Block) (rest : List Instr) :
    runAll ((List.range n).reverse.flatMap
        (fun k => [.invshiftrows, .invsubbytes, .addrk (BitVec.ofNat 8 (k + 1)), .invmixcolumns]) ++ rest)
        (completedBlock s b) =
      runAll rest (completedBlock s (decRounds s.ks n b)) := by
  induction n generalizing b with
  | zero => rfl
  | succ n ih =>
    rw [List.range_succ, List.reverse_concat, List.flatMap_cons, List.append_assoc, runAll_decRound hks hn, ih (by omega),
      decRounds]

/-- The encryption sequence of R214: ADDRK 0, the middle rounds, and the last round. -/
theorem runAll_encSequence : runAll (encSequence s.nr.toNat) s = some (completedBlock s (cipher s.ks s.nr.toNat s.blk)) := by
  rw [encSequence, List.cons_append, runAll_cons (exec_addrk_zero hks), runAll_encRounds hks (Nat.sub_le ..)]
  simp only [runAll_cons (exec_subbytes _), runAll_cons (exec_shiftrows _), completedBlock_completedBlock, completedBlock_blk]
  rw [runAll_addrk hks le_rfl, runAll, cipher]

/-- The decryption sequence of R214: ADDRK Nr, the middle rounds, and the last round. -/
theorem runAll_decSequence : runAll (decSequence s.nr.toNat) s = some (completedBlock s (invCipher s.ks s.nr.toNat s.blk)) := by
  rw [decSequence, List.cons_append, runAll_cons (exec_addrk_ofNat hks le_rfl), runAll_decRounds hks (Nat.sub_le ..)]
  simp only [runAll_cons (exec_invshiftrows _), runAll_cons (exec_invsubbytes _), completedBlock_completedBlock,
    completedBlock_blk]
  rw [runAll_cons (exec_addrk_zero (s := completedBlock s _) hks), completedBlock_completedBlock, completedBlock_blk,
    completedBlock_ks, runAll, invCipher]

theorem runAll_encblk : runAll [.encblk] s = some (completedBlock s (cipher s.ks s.nr.toNat s.blk)) :=
  runAll_cons (exec_encblk hks) []

theorem runAll_decblk : runAll [.decblk] s = some (completedBlock s (invCipher s.ks s.nr.toNat s.blk)) :=
  runAll_cons (exec_decblk hks) []

end Sequences

/-- Settles O45: each sequence and its one command leave the same block, and so the same state. -/
theorem stepCommandsComposeToTheCipher : Obligations.StepCommandsComposeToTheCipher := fun _ hks _ =>
  ⟨(runAll_encSequence hks).trans (runAll_encblk hks).symm, (runAll_decSequence hks).trans (runAll_decblk hks).symm,
    ⟨_, runAll_encblk hks⟩, ⟨_, runAll_decblk hks⟩⟩

end Sys2Proof.Machine

/-! SUPPORT. Proofs of the statements of spec/44_mode_controller.md: ECB, CBC and PVS byte by byte and there and back, the two
buffer commands with their checks, the IV commands, and the control commands with the lifecycle. -/

namespace Sys2Proof.Machine

/-! ### The bytes of a byte string, by blocks and windows (R85, R244) -/

/-- A byte of a full block. -/
theorem getD_of_block {l : List Byte} {b : Block} {k : Nat} (h : (l.drop (16 * (k / 16))).take 16 = b.toList) :
    l.getD k 0 = b[k % 16] := by
  have hk : k % 16 < 16 := Nat.mod_lt _ (by decide)
  calc l.getD k 0 = ((l.drop (16 * (k / 16))).take 16).getD (k % 16) 0 := by
        simp [List.getD_eq_getElem?_getD, List.getElem?_drop, hk, Nat.div_add_mod]
    _ = b.toList.getD (k % 16) 0 := by rw [h]
    _ = b[k % 16] := by simp [List.getD_eq_getElem?_getD, hk]

theorem getD_of_take_eq {l l' : List Byte} {a k : Nat} (h : l.take a = l'.take a) (hk : k < a) : l.getD k 0 = l'.getD k 0 := by
  simpa [List.getD_eq_getElem?_getD, List.getElem?_take, hk] using congrArg (List.getD · k 0) h

theorem getD_of_drop_eq {l l' : List Byte} {a k : Nat} (h : l.drop a = l'.drop a) (hk : a ≤ k) : l.getD k 0 = l'.getD k 0 := by
  simpa [List.getD_eq_getElem?_getD, List.getElem?_drop, Nat.add_sub_cancel' hk] using congrArg (List.getD · (k - a) 0) h

/-- A byte string is the list of its bytes. -/
theorem eq_map_range_getD (l : List Byte) : l = (List.range l.length).map fun k => l.getD k 0 := by
  apply List.ext_getElem
  · simp
  · intro k h _; simp [h]

/-- The tail window is the list of its bytes (R244). -/
theorem drop_eq_map_range_getD (l : List Byte) (h : 16 ≤ l.length) :
    l.drop (l.length - 16) = (List.range 16).map fun m => l.getD (l.length - 16 + m) 0 := by
  conv_lhs => rw [eq_map_range_getD (l.drop (l.length - 16)), List.length_drop, Nat.sub_sub_self h]
  simp [List.getD_eq_getElem?_getD]

/-! ### ECB (R245 to R248) -/

/-- Each byte the block loop leaves: of its block's image, or past the full blocks the byte as it was (R244, R245). -/
theorem mapBlocks_getD (f : Block → Block) {q : Nat} {buf : List Byte} (h : 16 * q ≤ buf.length) (k : Nat) :
    (mapBlocks f q buf).getD k 0 =
      if k < 16 * q then (f (blockOf ((buf.drop (16 * (k / 16))).take 16)))[k % 16] else buf.getD k 0 := by
  split
  · next hk => exact getD_of_block (mapBlocks_block f q buf h (k / 16) (by omega))
  · next hk => exact getD_of_drop_eq (mapBlocks_drop f q buf h) (by omega)

theorem ecbEnc_of_full (e : Block → Block) {buf : List Byte} (h : buf.length % 16 = 0) :
    ecbEnc e buf = mapBlocks e (buf.length / 16) buf := by
  rw [ecbEnc, if_pos h]

theorem ecbEnc_of_tail (e : Block → Block) {buf : List Byte} (h : buf.length % 16 ≠ 0) :
    ecbEnc e buf = mapTail e (mapBlocks e (buf.length / 16) buf) := by
  rw [ecbEnc, if_neg h]

/-- Settles O50: a byte the tail window does not reach is as the block loop left it, and the window is one more block. -/
theorem ecbEncryptsBlocksThenTail : Obligations.EcbEncryptsBlocksThenTail := by
  intro e buf hn n out blockByte
  have hfull : 16 * (n / 16) ≤ n := by omega
  have hlen : (mapBlocks e (n / 16) buf).length = n := mapBlocks_length e _ buf hfull
  have hbyte (k : Nat) : (mapBlocks e (n / 16) buf).getD k 0 = if k < 16 * (n / 16) then blockByte k else buf.getD k 0 :=
    mapBlocks_getD e hfull k
  refine ⟨ecbEnc_length e buf hn, fun k hk => ?_, fun h0 k hk => ?_, fun ht => ?_⟩
  · have hout : out.getD k 0 = (mapBlocks e (n / 16) buf).getD k 0 := by
      by_cases h0 : n % 16 = 0
      · rw [show out = _ from ecbEnc_of_full e h0]
      · rw [show out = _ from ecbEnc_of_tail e h0]
        exact getD_of_take_eq (mapTail_take e _ (n - 16) (by rw [hlen])) hk
    rw [hout, hbyte, if_pos (by omega)]
  · rw [show out = _ from ecbEnc_of_full e h0, hbyte, if_pos (by omega)]
  · have hwindow := mapTail_drop e (mapBlocks e (n / 16) buf)
    rw [drop_eq_map_range_getD _ (by omega)] at hwindow
    simp only [hlen, hbyte] at hwindow
    rw [show out = _ from ecbEnc_of_tail e ht, hwindow, onBytes]

/-- Settles O56: each block of the output is the image of the block of the input. -/
theorem ecbLocality : Obligations.EcbLocality := by
  intro e buf i j h0 hi hj heq
  have hfull : 16 * (buf.length / 16) ≤ buf.length := by omega
  rw [ecbEnc_of_full e h0, mapBlocks_block e _ buf hfull i (by omega), mapBlocks_block e _ buf hfull j (by omega), heq]

/-- Decryption in the reverse order undoes encryption: the tail window first, then the full blocks (R247, R248). -/
theorem ecbDec_ecbEnc {d e : Block → Block} (h : ∀ b, d (e b) = b) {buf : List Byte} (hn : 16 ≤ buf.length) :
    ecbDec d (ecbEnc e buf) = buf := by
  have hfull : 16 * (buf.length / 16) ≤ buf.length := by omega
  rw [ecbDec, ecbEnc_length e buf hn]
  split
  · next h0 => rw [ecbEnc_of_full e h0, mapBlocks_mapBlocks d e h _ buf hfull]
  · next ht =>
    rw [ecbEnc_of_tail e ht, mapTail_mapTail d e h _ (by rw [mapBlocks_length e _ buf hfull]; exact hn),
      mapBlocks_mapBlocks d e h _ buf hfull]

/-- Settles O53: the inverse cipher undoes the cipher on every block. -/
theorem ecbRoundTrip : Obligations.EcbRoundTrip := fun ks nr _ hn => ecbDec_ecbEnc (invCipher_cipher ks nr) hn

/-! ### CBC (R250 to R255) -/

theorem cbcEnc_of_full (policy : CbcTail) (e : Block → Block) (iv : Block) {buf : List Byte} (h : buf.length % 16 = 0) :
    cbcEnc policy e iv buf = (cbcEncBlocks e (buf.length / 16) iv buf).1 := by
  rw [cbcEnc, if_pos h]

theorem cbcEnc_of_tail (policy : CbcTail) (e : Block → Block) (iv : Block) {buf : List Byte} (h : buf.length % 16 ≠ 0) :
    cbcEnc policy e iv buf = cbcEncTail policy e (buf.length / 16) (cbcEncBlocks e (buf.length / 16) iv buf).1
      (cbcEncBlocks e (buf.length / 16) iv buf).2 := by
  rw [cbcEnc, if_neg h]

/-- Decryption undoes encryption under either tail policy: the tail first, then the chain (R252 to R255). -/
theorem cbcDec_cbcEnc (policy : CbcTail) {d e : Block → Block} (h : ∀ b, d (e b) = b) (iv : Block) {buf : List Byte}
    (hn : 16 ≤ buf.length) : cbcDec policy d iv (cbcEnc policy e iv buf) = buf := by
  have hfull : 16 * (buf.length / 16) ≤ buf.length := by omega
  have hlen := cbcEncBlocks_length e (buf.length / 16) iv buf hfull
  rw [cbcDec, cbcEnc_length policy e iv buf hn]
  split
  · next h0 => rw [cbcEnc_of_full policy e iv h0, cbcDecBlocks_cbcEncBlocks d e h _ iv buf hfull]
  · next ht =>
    obtain ⟨q, hq⟩ : ∃ q, buf.length / 16 = q + 1 := ⟨buf.length / 16 - 1, by omega⟩
    have hlast := cbcEncBlocks_last e q iv buf (by omega)
    rw [cbcEnc_of_tail policy e iv ht]
    rw [hq] at hlen hfull ⊢
    rw [cbcDecTail_cbcEncTail policy d e h q _ _ (by rw [hlen, hq]) hlast, cbcDecBlocks_cbcEncBlocks d e h _ iv buf hfull]

/-- Settles O54: the inverse cipher undoes the cipher on every block. -/
theorem cbcRoundTrip : Obligations.CbcRoundTrip := fun policy ks nr iv _ hn =>
  cbcDec_cbcEnc policy (invCipher_cipher ks nr) iv hn

/-- The ciphertext block of the full block i: C0 = E(P0 XOR IV), Ci = E(Pi XOR C(i−1)) (R250). -/
def cbcChain (e : Block → Block) (iv : Block) (buf : List Byte) : Nat → Block
  | 0 => e (xorBlock (blockOf (buf.take 16)) iv)
  | i + 1 => e (xorBlock (blockOf ((buf.drop (16 * (i + 1))).take 16)) (cbcChain e iv buf i))

/-- After the first block the chain goes on as that of the rest of the buffer, from the first ciphertext block. -/
theorem cbcChain_succ (e : Block → Block) (iv : Block) (buf : List Byte) (i : Nat) :
    cbcChain e iv buf (i + 1) = cbcChain e (cbcChain e iv buf 0) (buf.drop 16) i := by
  induction i with
  | zero => rfl
  | succ i ih =>
    show e (xorBlock _ (cbcChain e iv buf (i + 1))) = e (xorBlock _ (cbcChain e _ (buf.drop 16) i))
    rw [ih, List.drop_drop, show 16 + 16 * (i + 1) = 16 * (i + 1 + 1) by omega]

/-- Full block i of the chained buffer is block i of the chain (R250). -/
theorem cbcEncBlocks_block (e : Block → Block) (q : Nat) (iv : Block) (buf : List Byte) {i : Nat} (hi : i < q) :
    ((cbcEncBlocks e q iv buf).1.drop (16 * i)).take 16 = (cbcChain e iv buf i).toList := by
  induction q generalizing iv buf i with
  | zero => omega
  | succ q ih =>
    simp only [cbcEncBlocks]
    cases i with
    | zero => simp [List.take_left', cbcChain]
    | succ i =>
      rw [show 16 * (i + 1) = 16 + 16 * i by omega, ← List.drop_drop, List.drop_left' (by simp), cbcChain_succ]
      exact ih _ _ (by omega)

/-- The block the loop hands to the tail is the last of the chain (R250, R251). -/
theorem cbcEncBlocks_snd (e : Block → Block) (q : Nat) (iv : Block) (buf : List Byte) :
    (cbcEncBlocks e (q + 1) iv buf).2 = cbcChain e iv buf q := by
  induction q generalizing iv buf with
  | zero => rfl
  | succ q ih =>
    rw [cbcChain_succ, cbcEncBlocks]
    exact ih _ _

/-- The buffer before the window step: the chain in the full blocks, and its last block added to the bytes after them (R251). -/
def cbcChained (e : Block → Block) (iv : Block) (buf : List Byte) : List Byte :=
  (List.range buf.length).map fun k =>
    if k < 16 * (buf.length / 16) then (cbcChain e iv buf (k / 16))[k % 16]
    else buf.getD k 0 ^^^ (cbcChain e iv buf (buf.length / 16 - 1))[k % 16]

@[simp] theorem cbcChained_length (e : Block → Block) (iv : Block) (buf : List Byte) :
    (cbcChained e iv buf).length = buf.length := by simp [cbcChained]

/-- The block loop and the XOR of the short block make up the chained buffer (R250, R251). -/
theorem cbcEncBlocks_xor_tail (e : Block → Block) (iv : Block) {buf : List Byte} (hn : 16 ≤ buf.length) :
    (cbcEncBlocks e (buf.length / 16) iv buf).1.take (16 * (buf.length / 16)) ++
      xorBytes ((cbcEncBlocks e (buf.length / 16) iv buf).1.drop (16 * (buf.length / 16)))
        (cbcEncBlocks e (buf.length / 16) iv buf).2.toList = cbcChained e iv buf := by
  have hfull : 16 * (buf.length / 16) ≤ buf.length := by omega
  have hlen := cbcEncBlocks_length e (buf.length / 16) iv buf hfull
  have hlast : (cbcEncBlocks e (buf.length / 16) iv buf).2 = cbcChain e iv buf (buf.length / 16 - 1) := by
    rw [← cbcEncBlocks_snd, Nat.sub_add_cancel (by omega)]
  rw [cbcEncBlocks_drop e _ iv buf hfull, hlast]
  apply List.ext_getElem
  · simp [hlen]; omega
  · intro k hk hk'
    have hkn : k < buf.length := by simpa using hk'
    simp only [cbcChained, List.getElem_map, List.getElem_range]
    split
    · next hb =>
      rw [List.getElem_append_left (by simp [hlen]; omega), List.getElem_take,
        ← getD_of_block (cbcEncBlocks_block e (buf.length / 16) iv buf (i := k / 16) (by omega))]
      simp [hlen, hkn]
    · next hb =>
      have hmod : k - 16 * (buf.length / 16) = k % 16 := by omega
      rw [List.getElem_append_right (by simp; omega)]
      simp [xorBytes, hlen, hmod, Nat.min_eq_left hfull, hkn, show 16 * (buf.length / 16) + k % 16 = k by omega]

/-- CBC is the chained buffer, with the window step last where there is a tail (R250, R251, R255). -/
theorem cbcEnc_eq_cbcChained (policy : CbcTail) (e : Block → Block) (iv : Block) {buf : List Byte} (hn : 16 ≤ buf.length) :
    cbcEnc policy e iv buf =
      if buf.length % 16 = 0 then cbcChained e iv buf else cbcWindow policy e (cbcChained e iv buf) := by
  have htail := cbcEncBlocks_xor_tail e iv hn
  split
  · next h0 =>
    have hlen := cbcEncBlocks_length e (buf.length / 16) iv buf (by omega)
    rw [← htail, cbcEnc_of_full policy e iv h0, List.take_of_length_le (by omega), List.drop_of_length_le (by omega)]
    simp [xorBytes]
  · next ht => rw [cbcEnc_of_tail policy e iv ht, cbcEncTail, htail]

/-- Settles O51: the chain of R250, and the window step under XOR_THEN_WINDOW. -/
theorem cbcChainsBlocksThenTail : Obligations.CbcChainsBlocksThenTail := by
  intro policy e iv buf hn n q
  refine ⟨cbcChain e iv buf, rfl, fun _ _ => rfl, ?_⟩
  show cbcEnc policy e iv buf = if n % 16 = 0 ∨ policy = .xorOnly then cbcChained e iv buf
    else (cbcChained e iv buf).take (n - 16) ++ (e (blockOf ((cbcChained e iv buf).drop (n - 16)))).toList
  rw [cbcEnc_eq_cbcChained policy e iv hn]
  by_cases h0 : n % 16 = 0
  · rw [if_pos h0, if_pos (.inl h0)]
  · cases policy with
    | xorOnly => rw [if_neg h0, if_pos (.inr rfl), cbcWindow]
    | xorThenWindow =>
      rw [if_neg h0, if_neg (by simp [h0]), cbcWindow, mapTail, onBytes, cbcChained_length]

/-! #### IV sensitivity (R254) -/

/-- The first ciphertext block tells the IVs apart, for a block function with an inverse. -/
theorem cbcChain_zero_injective {d e : Block → Block} (h : ∀ b, d (e b) = b) (buf : List Byte) {iv iv' : Block}
    (heq : cbcChain e iv buf 0 = cbcChain e iv' buf 0) : iv = iv' := by
  have hx : xorBlock (blockOf (buf.take 16)) iv = xorBlock (blockOf (buf.take 16)) iv' := Function.LeftInverse.injective h heq
  ext i hi : 1
  have hbyte : (blockOf (buf.take 16))[i] ^^^ iv[i] = (blockOf (buf.take 16))[i] ^^^ iv'[i] := by
    rw [← xorBlock_getElem, ← xorBlock_getElem, hx]
  exact (BitVec.xor_right_inj _).mp hbyte

theorem cbcEncBlocks_take (e : Block → Block) (iv : Block) {buf : List Byte} (hn : 16 ≤ buf.length) :
    (cbcEncBlocks e (buf.length / 16) iv buf).1.take 16 = (cbcChain e iv buf 0).toList :=
  cbcEncBlocks_block e (buf.length / 16) iv buf (i := 0) (by omega)

/-- Where the tail does not reach the first block, it is the first block of the chain (R251). -/
theorem cbcEnc_take (policy : CbcTail) (e : Block → Block) (iv : Block) {buf : List Byte} (hn : 16 ≤ buf.length)
    (h : buf.length = 16 ∨ 32 ≤ buf.length ∨ policy = .xorOnly) :
    (cbcEnc policy e iv buf).take 16 = (cbcChain e iv buf 0).toList := by
  have hchained : (cbcChained e iv buf).take 16 = (cbcChain e iv buf 0).toList := by
    have hlen := cbcEncBlocks_length e (buf.length / 16) iv buf (by omega)
    rw [← cbcEncBlocks_xor_tail e iv hn, List.take_append_of_le_length (by simp; omega), List.take_take,
      Nat.min_eq_left (by omega), cbcEncBlocks_take e iv hn]
  rw [cbcEnc_eq_cbcChained policy e iv hn, ← hchained]
  split
  · rfl
  · next ht =>
    cases policy with
    | xorOnly => rfl
    | xorThenWindow =>
      have h32 : 32 ≤ buf.length := by simp at h; omega
      exact mapTail_take e _ 16 (by rw [cbcChained_length]; omega)

/-- Settles O57: both first blocks are that of the chain, from which the inverse cipher gives the IV back. -/
theorem cbcIvSensitivity : Obligations.CbcIvSensitivity := by
  intro policy ks nr iv iv' buf hn hne
  have hchain : (cbcChain (cipher ks nr) iv buf 0).toList ≠ (cbcChain (cipher ks nr) iv' buf 0).toList := fun heq =>
    hne (cbcChain_zero_injective (invCipher_cipher ks nr) buf (Vector.toList_inj.mp heq))
  constructor
  · rw [cbcEncBlocks_take _ _ hn, cbcEncBlocks_take _ _ hn]
    exact hchain
  · intro hreach
    rw [cbcEnc_take _ _ _ hn hreach, cbcEnc_take _ _ _ hn hreach]
    exact hchain

/-- The key `000102..0f` of log 31's example. -/
def log31Key : List Byte := (List.range 16).map (BitVec.ofNat 8)

/-- An IV of one byte and 15 zeros; log 31's example has `0c00..00` and `1a00..00`. -/
def log31Iv (b : Byte) : Block := blockOf [b]

/-- Under both of them the ciphertext of 17 zero bytes begins with `ea`. -/
theorem cbcEnc_log31 : ∀ b ∈ [(0x0c : Byte), 0x1a],
    (cbcEnc .xorThenWindow (cipher (bytesOf 240 (expand log31Key 4)) 10) (log31Iv b) (List.replicate 17 0)).take 1 = [0xea] := by
  decide +kernel

/-- Refutes O58: under the key `000102..0f` two distinct IVs give 17 zero bytes ciphertexts that agree in their first byte. -/
theorem not_cbcShortBufferPrefixDiffers : ¬ Obligations.CbcShortBufferPrefixDiffers := fun h =>
  h log31Key (log31Iv 0x0c) (log31Iv 0x1a) (List.replicate 17 0) (by decide) (by decide) (by decide) (by decide)
    ((cbcEnc_log31 0x0c (by decide)).trans (cbcEnc_log31 0x1a (by decide)).symm)

/-! ### The XOR pass of PVS (R263 to R265) -/

/-- `LEbytes` of a number is that of its low part, and then that of the rest. -/
theorem leBytes_add (m n x : Nat) : leBytes (m + n) x = leBytes m x ++ leBytes n (x / 256 ^ m) := by
  induction m generalizing x with
  | zero => simp [leBytes]
  | succ m ih =>
    rw [Nat.add_right_comm, leBytes, ih, leBytes, List.cons_append, Nat.div_div_eq_div_mul, Nat.pow_succ']

/-- `LEbytes_n` sees a number modulo 256^n (R14). -/
theorem leBytes_mod (n x : Nat) : leBytes n (x % 256 ^ n) = leBytes n x := by
  simpa [leNat_leBytes] using leBytes_leNat (leBytes n x)

/-- The two halves of a mask are the 64 bytes of the exact product (R264). -/
theorem pvsMask_eq (k : Nat) (pi : List Byte) (w j : Nat) : pvsMask k pi w j = leBytes 64 (piOperand pi w j * k) := by
  rw [pvsMask, show (2 : Nat) ^ 256 = 256 ^ 32 by norm_num, leBytes_mod, ← leBytes_add 32 32]

/-- Each byte after m window pairs of the pass: XORed with its byte of the product, or past the pairs as it was (R265). -/
theorem pvsXorLoop_getD (k : Nat) (pi : List Byte) (w : Nat) {m : Nat} {buf : List Byte} (h : 64 * m ≤ buf.length) (j i : Nat) :
    (pvsXorLoop k pi w m j buf).getD i 0 =
      if i < 64 * m then buf.getD i 0 ^^^ BitVec.ofNat 8 (piOperand pi w (j + i / 64) * k / 256 ^ (i % 64))
      else buf.getD i 0 := by
  induction m generalizing buf j i with
  | zero => simp [pvsXorLoop]
  | succ m ih =>
    have hpair : (xorBytes (buf.take 64) (pvsMask k pi w j)).length = 64 := by simp; omega
    rw [pvsXorLoop]
    by_cases hi : i < 64
    · have hlen : i < buf.length := by omega
      have hmask : i < (leBytes 64 (piOperand pi w j * k)).length := by simpa using hi
      rw [if_pos (by omega), Nat.div_eq_of_lt hi, Nat.mod_eq_of_lt hi, show j + 0 = j from rfl, ← leBytes_getElem 64 _ i hmask,
        List.getD_eq_getElem?_getD, List.getElem?_append_left (by omega)]
      simp [xorBytes, pvsMask_eq, hi, hlen]
    · obtain ⟨i, rfl⟩ := Nat.exists_eq_add_of_le (Nat.le_of_not_lt hi)
      have hrest := ih (buf := buf.drop 64) (by simp; omega) (j + 1) i
      have hbuf : (buf.drop 64).getD i 0 = buf.getD (64 + i) 0 := by simp [List.getD_eq_getElem?_getD]
      rw [List.getD_eq_getElem?_getD, List.getElem?_append_right (by omega), hpair, Nat.add_sub_cancel_left,
        ← List.getD_eq_getElem?_getD, hrest, hbuf, show j + 1 + i / 64 = j + (64 + i) / 64 by omega,
        Nat.add_mod_left]
      exact if_congr (by omega) rfl rfl

/-- The pass undoes itself, whatever the product (R265). -/
theorem pvsXor_pvsXor (k : Nat) (pi : List Byte) (w : Nat) (buf : List Byte) : pvsXor k pi w (pvsXor k pi w buf) = buf := by
  rw [pvsXor, pvsXor_length]
  exact pvsXorLoop_twice k pi w _ 0 buf (by omega)

/-- Settles O52: the pass byte by byte, from window pair 0 on. -/
theorem pvsXorPass : Obligations.PvsXorPass := by
  intro k pi w buf _
  refine ⟨pvsXor_length k pi w buf, fun m _ => ?_, pvsXor_pvsXor k pi w buf⟩
  rw [pvsXor, pvsXorLoop_getD k pi w (by omega), Nat.zero_add, piOperand]

/-! ### The checks of ENCRYPT and DECRYPT in their order (R242) -/

/-- The ENCRYPT or DECRYPT of a direction. -/
def bufferCommand (dir : Dir) (o : Bool) : Instr :=
  match dir with
  | .enc => .encrypt o
  | .dec => .decrypt o

theorem exec_bufferCommand_error {dir : Dir} {o : Bool} {s : State} {e : CmdError} (h : checkBuffer dir o s = some e) :
    exec (bufferCommand dir o) s = .next (errorState e s) := by
  cases dir with
  | enc => exact execEncrypt_error o s e h
  | dec => exact execDecrypt_error o s e h

theorem exec_bufferCommand_ok {dir : Dir} {o : Bool} {s : State} (h : checkBuffer dir o s = none) :
    ∃ t, exec (bufferCommand dir o) s = .next t ∧ t.err = false := by
  cases dir with
  | enc => exact ⟨_, execEncrypt_ok o s h, rfl⟩
  | dec => exact ⟨_, execDecrypt_ok o s h, rfl⟩

/-- Settles O46: each clause names the check that fails first. -/
theorem bufferChecksInOrder : Obligations.BufferChecksInOrder := by
  intro s o dec i noOut noIv n out piOut
  obtain ⟨dir, hi, hdir⟩ : ∃ dir, i = bufferCommand dir o ∧ (dec = true ↔ dir = .dec) := by
    cases dec with
    | false => exact ⟨.enc, rfl, by decide⟩
    | true => exact ⟨.dec, rfl, by decide⟩
  have hsize : s.size = 0 ↔ n = 0 := BitVec.toNat_inj.symm
  have hiv : noIv ↔ dir = .dec ∧ s.mode = .cbc ∧ ¬ s.ivValid = true := by simp [noIv, hdir]
  have hout : out ↔ ¬ inRange s s.src.toNat n = true ∨ ¬ inRange s (outAddr o s) n = true := by simp [out, inRange]
  have hpi : piOut ↔ s.mode = .pvs ∧ piAvailable s = true ∧ ¬ inRange s s.piaddr.toNat (piBytesLen s) = true := by
    simp [piOut, inRange]
  rw [hi, hiv, hout, hpi]
  refine ⟨fun h1 => ?_, fun h1 h2 => ?_, fun h1 h2 h3 => ?_, fun h1 h2 h3 h4 => ?_, fun h1 h2 h3 h4 h5 => ?_,
    fun h1 h2 h3 h4 h5 h6 => ?_, fun h1 h2 h3 h4 h6 h7 => ?_, fun h1 h2 h3 h4 h6 h7 h8 => ?_⟩
  · exact exec_bufferCommand_error (by rw [checkBuffer, if_pos h1])
  · exact exec_bufferCommand_error (by rw [checkBuffer, if_neg h1, if_pos h2])
  · exact exec_bufferCommand_error (by rw [checkBuffer, if_neg h1, if_neg h2, if_pos (by simp [h3])])
  · exact exec_bufferCommand_error (by rw [checkBuffer, if_neg h1, if_neg h2, if_neg (not_not.mpr h3), if_pos h4])
  · exact exec_bufferCommand_error (by
      rw [checkBuffer, if_neg h1, if_neg h2, if_neg (not_not.mpr h3), if_neg h4, if_pos (hsize.mpr h5)])
  · exact exec_bufferCommand_error (by
      rw [checkBuffer, if_neg h1, if_neg h2, if_neg (not_not.mpr h3), if_neg h4, if_neg (by rw [hsize]; omega),
        if_pos (by omega)])
  · exact exec_bufferCommand_error (by
      rw [checkBuffer, if_neg h1, if_neg h2, if_neg (not_not.mpr h3), if_neg h4, if_neg (by rw [hsize]; omega),
        if_neg (by omega)]
      by_cases hranges : ¬ inRange s s.src.toNat n = true ∨ ¬ inRange s (outAddr o s) n = true
      · rw [if_pos hranges]
      · rw [if_neg hranges, if_pos (h7.resolve_left hranges)])
  · exact exec_bufferCommand_ok (by
      rw [checkBuffer, if_neg h1, if_neg h2, if_neg (not_not.mpr h3), if_neg h4, if_neg (by rw [hsize]; omega),
        if_neg (by omega), if_neg h7, if_neg h8])

/-! ### ENCRYPT and DECRYPT whose checks pass (R240, R241) -/

theorem checkBuffer_of_ready {dir : Dir} {o : Bool} {s : State} (h : bufferReady o s)
    (hiv : dir = .dec → s.mode = .cbc → s.ivValid = true) : checkBuffer dir o s = none := by
  obtain ⟨hsrc, hdst, hks, hsize, hin, hout, hpi⟩ := h
  refine (checkBuffer_eq_none dir o s).mpr ⟨hsrc, fun ⟨ho, h0⟩ => hdst ho h0, hks, fun ⟨hd, hm, hv⟩ => ?_, hsize,
    decide_eq_true hin, decide_eq_true hout, fun ⟨hm, ha, hr⟩ => ?_⟩
  · exact Bool.noConfusion (hv.symm.trans (hiv hd hm))
  · exact of_decide_eq_false hr (hpi hm ha)

/-- What a command leaves that completes with the output `out` written, and meets no race: the state `u` with `out` in the output
range, and every other address as it was (R89). -/
def completesWith (i : Instr) (o : Bool) (s u : State) (out : List Byte) : Prop :=
  ∃ t, exec i s = .next t ∧ t = completed { u with dmem := t.dmem } ∧ dmemIs u t (outAddr o u) out

theorem completesWith_of_writeOutput {i : Instr} {o : Bool} {s u : State} {out : List Byte}
    (h : exec i s = .next (completed (writeOutput o out u))) (hraced : u.raced = false) : completesWith i o s u out := by
  rw [writeOutput_clean o out u hraced] at h
  exact ⟨_, h, rfl, u.dmem.byteAt_writeBytes (outAddr o u) out⟩

section Ready
variable {s : State} {o : Bool} (hready : bufferReady o s) (hraced : s.raced = false)
include hready hraced

theorem encrypt_completesWith (hiv : ¬ (s.mode = .cbc ∧ s.ivValid = false)) :
    completesWith (.encrypt o) o s { s with pvsdeg := pvsDegrades s } (encryptBytes s (inputBytes s)) := by
  have hexec := execEncrypt_ok o s (checkBuffer_of_ready hready nofun)
  rw [assignMissingIv_of_not s hiv] at hexec
  exact completesWith_of_writeOutput hexec hraced

theorem decrypt_completesWith (hiv : s.mode = .cbc → s.ivValid = true) :
    completesWith (.decrypt o) o s { s with pvsdeg := pvsDegrades s } (decryptBytes s (inputBytes s)) :=
  completesWith_of_writeOutput (execDecrypt_ok o s (checkBuffer_of_ready hready fun _ => hiv)) hraced

/-- Without an IV a CBC ENCRYPT assigns the generated one and uses it (R256). -/
theorem encrypt_completesWith_generatedIv (hmode : s.mode = .cbc) (hiv : s.ivValid = false) :
    completesWith (.encrypt o) o s { s with iv := ivGen s, ivValid := true, pvsdeg := pvsDegrades s }
      (encryptBytes { s with iv := ivGen s, ivValid := true } (inputBytes s)) := by
  have hexec := execEncrypt_ok o s (checkBuffer_of_ready hready nofun)
  rw [assignMissingIv_of s hmode hiv] at hexec
  exact completesWith_of_writeOutput hexec hraced

end Ready

/-! #### The result in each mode (R243) -/

theorem pvsDegrades_of_ne {s : State} (h : s.mode ≠ .pvs) : pvsDegrades s = false := by simp [pvsDegrades, h]

theorem encryptBytes_ecb {s : State} (h : s.mode = .ecb) (buf : List Byte) :
    encryptBytes s buf = ecbEnc (cipher s.ks s.nr.toNat) buf := by
  rw [encryptBytes, h]; rfl

theorem decryptBytes_ecb {s : State} (h : s.mode = .ecb) (buf : List Byte) :
    decryptBytes s buf = ecbDec (invCipher s.ks s.nr.toNat) buf := by
  rw [decryptBytes, h]; rfl

theorem encryptBytes_cbc {s : State} (h : s.mode = .cbc) (buf : List Byte) :
    encryptBytes s buf = cbcEnc s.params.cbcTail (cipher s.ks s.nr.toNat) s.iv buf := by
  rw [encryptBytes, h]; rfl

theorem decryptBytes_cbc {s : State} (h : s.mode = .cbc) (buf : List Byte) :
    decryptBytes s buf = cbcDec s.params.cbcTail (invCipher s.ks s.nr.toNat) s.iv buf := by
  rw [decryptBytes, h]; rfl

/-- The π stream is available when it is somewhere and holds a window (R262). -/
theorem piAvailable_iff {s : State} : piAvailable s = true ↔ s.piaddr ≠ 0 ∧ 32 ≤ s.pilen.toNat := by simp [piAvailable]

section Pvs
variable {s : State} (hmode : s.mode = .pvs)
include hmode

theorem pvsDegrades_pvs : pvsDegrades s = !piAvailable s := by simp [pvsDegrades, hmode]

theorem encryptBytes_pvs (hpi : piAvailable s = true) (buf : List Byte) : encryptBytes s buf =
    ecbEnc (cipher s.ks s.nr.toNat) (pvsXor (pvsKeyOperand s) (piBytes s) (piWindows s) buf) := by
  rw [encryptBytes, hmode]; exact if_pos hpi

theorem decryptBytes_pvs (hpi : piAvailable s = true) (buf : List Byte) : decryptBytes s buf =
    pvsXor (pvsKeyOperand s) (piBytes s) (piWindows s) (ecbDec (invCipher s.ks s.nr.toNat) buf) := by
  rw [decryptBytes, hmode]; exact if_pos hpi

theorem encryptBytes_pvs_degraded (hpi : ¬ piAvailable s = true) (buf : List Byte) :
    encryptBytes s buf = ecbEnc (cipher s.ks s.nr.toNat) buf := by
  rw [encryptBytes, hmode]; exact if_neg hpi

theorem decryptBytes_pvs_degraded (hpi : ¬ piAvailable s = true) (buf : List Byte) :
    decryptBytes s buf = ecbDec (invCipher s.ks s.nr.toNat) buf := by
  rw [decryptBytes, hmode]; exact if_neg hpi

end Pvs

/-- Settles O47: both commands write their output range, and outside PVS nothing degrades. -/
theorem ecbBufferCommands : Obligations.EcbBufferCommands := by
  intro s o hready hmode hraced
  have henc := encrypt_completesWith hready hraced (by simp [hmode])
  have hdec := decrypt_completesWith hready hraced (by simp [hmode])
  rw [pvsDegrades_of_ne (by simp [hmode])] at henc hdec
  rw [encryptBytes_ecb hmode] at henc
  rw [decryptBytes_ecb hmode] at hdec
  exact ⟨henc, hdec⟩

/-- Settles O48: with an IV as in ECB, and without one ENCRYPT encrypts from the state that holds the generated one. -/
theorem cbcBufferCommands : Obligations.CbcBufferCommands := by
  intro s o hready hmode hraced
  have hdeg : pvsDegrades s = false := pvsDegrades_of_ne (by simp [hmode])
  refine ⟨fun hiv => ?_, fun hiv => ?_, fun hiv => ?_⟩
  · have henc := encrypt_completesWith hready hraced (by simp [hiv])
    rwa [hdeg, encryptBytes_cbc hmode] at henc
  · have henc := encrypt_completesWith_generatedIv hready hraced hmode hiv
    rw [hdeg, encryptBytes_cbc (s := { s with iv := ivGen s, ivValid := true }) hmode] at henc
    obtain ⟨t, hexec, ht, hdmem⟩ := henc
    have hgen : t.iv = ivGen s := by rw [ht]; rfl
    rw [← hgen] at ht hdmem
    exact ⟨t, hexec, ht, hgen, hdmem⟩
  · have hdec := decrypt_completesWith hready hraced fun _ => hiv
    rwa [hdeg, decryptBytes_cbc hmode] at hdec

/-- Settles O49: with the stream both commands make the XOR pass, and without it they degrade to ECB. -/
theorem pvsBufferCommands : Obligations.PvsBufferCommands := by
  intro s o hready hmode hraced input w pi e d
  have henc := encrypt_completesWith hready hraced (by simp [hmode])
  have hdec := decrypt_completesWith hready hraced (by simp [hmode])
  rw [pvsDegrades_pvs hmode] at henc hdec
  refine ⟨fun hop => by rw [pvsKeyOperand, hop], fun haddr hlen => ?_, fun hnone => ?_⟩
  · have hpi : piAvailable s = true := piAvailable_iff.mpr ⟨haddr, hlen⟩
    rw [hpi, encryptBytes_pvs hmode hpi] at henc
    rw [hpi, decryptBytes_pvs hmode hpi] at hdec
    exact ⟨henc, hdec⟩
  · have hpi : ¬ piAvailable s = true := by
      rw [piAvailable_iff]
      rintro ⟨haddr, hlen⟩
      exact hnone.elim haddr (by omega)
    rw [Bool.eq_false_iff.mpr hpi, encryptBytes_pvs_degraded hmode hpi] at henc
    rw [Bool.eq_false_iff.mpr hpi, decryptBytes_pvs_degraded hmode hpi] at hdec
    exact ⟨henc, hdec⟩

/-! ### SETIV and GENIV (R274, R275) -/

theorem exec_setiv_fresh {s : State} (hkey : s.keyValid = true) (hiv : s.ivValid = false) :
    exec .setiv s = .next (completed { s with iv := s.ivin, ivValid := true }) := by
  simp [exec, execSetiv, hkey, hiv]

theorem exec_setiv_noKey {s : State} (hkey : s.keyValid = false) : exec .setiv s = .next (errorState .noKey s) := by
  simp [exec, execSetiv, hkey]

theorem exec_setiv_again {s : State} (hkey : s.keyValid = true) (hiv : s.ivValid = true) :
    exec .setiv s = .next (errorState .ivAlreadySet s) := by
  simp [exec, execSetiv, hkey, hiv]

theorem exec_geniv_fresh {s : State} (hks : s.ksValid = true) (hiv : s.ivValid = false) :
    exec .geniv s = .next (completed { s with iv := ivGen s, ivValid := true }) := by
  simp [exec, execGeniv, hks, hiv]

theorem exec_geniv_nullKeyExpansion {s : State} (hks : s.ksValid = false) :
    exec .geniv s = .next (errorState .nullKeyExpansion s) := by
  simp [exec, execGeniv, hks]

theorem exec_geniv_again {s : State} (hks : s.ksValid = true) (hiv : s.ivValid = true) :
    exec .geniv s = .next (errorState .ivAlreadySet s) := by
  simp [exec, execGeniv, hks, hiv]

/-- Settles O59: the three ends of each command, the generated IV being the cipher of the TSEED counter block (R276). -/
theorem ivCommands : Obligations.IvCommands :=
  ⟨plainWord_of_encode rfl (by decide) (by decide), plainWord_of_encode rfl (by decide) (by decide), fun _ =>
    ⟨exec_setiv_fresh, exec_setiv_noKey, exec_setiv_again, exec_geniv_fresh, exec_geniv_nullKeyExpansion, exec_geniv_again⟩⟩

/-! ### The lifecycle and the one-time IV (R277, R323) -/

/-- Where a command that succeeds leads in the lifecycle of R323. -/
def lifecycleAfter (i : Instr) (l : Lifecycle) : Lifecycle :=
  match i with
  | .setkey => .keyed
  | .expand => .ready
  | .zeroize => .empty
  | _ => l

/-- Whether an IV is set after a command that succeeds (R256, R274, R275, R277). -/
def ivValidAfter (i : Instr) (s : State) : Bool :=
  match i with
  | .setkey | .zeroize => false
  | .setiv | .geniv => true
  | .encrypt _ => s.ivValid || decide (s.mode = .cbc)
  | _ => s.ivValid

theorem assignMissingIv_ivValid (s : State) : (assignMissingIv s).ivValid = (s.ivValid || decide (s.mode = .cbc)) := by
  unfold assignMissingIv
  cases hv : s.ivValid <;> cases hm : s.mode <;> simp [hv]

theorem lifecycle_of_succeeds {s u : State} {i : Instr} (h : Succeeds s i u) : lifecycle u = lifecycleAfter i (lifecycle s) := by
  cases h with
  | encrypt o hc => rw [writeOutput_frame, assignMissingIv_frame]; rfl
  | decrypt o hc => rw [writeOutput_frame]; rfl
  | _ => rfl

theorem ivValid_of_succeeds {s u : State} {i : Instr} (h : Succeeds s i u) : u.ivValid = ivValidAfter i s := by
  cases h with
  | encrypt o hc => rw [writeOutput_frame]; exact assignMissingIv_ivValid s
  | decrypt o hc => rw [writeOutput_frame]; rfl
  | _ => rfl

/-- A set IV stays (R277). -/
theorem iv_of_succeeds {s u : State} {i : Instr} (h : Succeeds s i u) (hiv : s.ivValid = true) (hkey : i ≠ .setkey)
    (hzero : i ≠ .zeroize) : u.iv = s.iv := by
  cases h with
  | setkey => exact absurd rfl hkey
  | zeroize => exact absurd rfl hzero
  | setiv _ hfresh | geniv _ hfresh => exact Bool.noConfusion (hiv.symm.trans hfresh)
  | encrypt o hc => rw [writeOutput_frame, assignMissingIv_of_not s (by simp [hiv])]
  | decrypt o hc => rw [writeOutput_frame]
  | _ => rfl

/-! ### Commands that do not see DMEM (R81) -/

/-- A result with DMEM replaced. -/
def withDmem (m : Memory) : Result → Result
  | .next t => .next { t with dmem := m }
  | .fault f => .fault f
  | .refused r => .refused r

theorem withDmem_ite (m : Memory) {c : Prop} [Decidable c] (r r' : Result) :
    withDmem m (if c then r else r') = if c then withDmem m r else withDmem m r' := apply_ite (withDmem m) c r r'

/-- With another DMEM, every command but the two buffer commands does the same, and leaves that DMEM. -/
theorem exec_withDmem {i : Instr} (s : State) (m : Memory) (hi : ∀ o, i ≠ .encrypt o ∧ i ≠ .decrypt o) :
    exec i { s with dmem := m } = withDmem m (exec i s) := by
  cases i with
  | encrypt o => exact absurd rfl (hi o).1
  | decrypt o => exact absurd rfl (hi o).2
  | setkey =>
    simp only [exec, execSetkey, withDmem_ite]
    cases Mode.ofBits s.cfgMode <;> rfl
  | expand | setiv | geniv | encblk | decblk | addrk =>
    simp only [exec, execExpand, execSetiv, execGeniv, execEncblk, execDecblk, execAddrk, withDmem_ite]
    rfl
  | _ => rfl

/-- Settles O60: NOP and ZEROIZE are the model's own equations; an error keeps all key material, and a success leaves the
lifecycle, the IV and DMEM as the lemmas above say. -/
theorem controlCommandsAndLifecycle : Obligations.ControlCommandsAndLifecycle := by
  refine ⟨plainWord_of_encode rfl (by decide) (by decide), plainWord_of_encode rfl (by decide) (by decide), fun _ => rfl,
    fun _ => rfl, fun i s t h => ?_, fun i s m hi => ?_⟩
  · rcases exec_cases h with ⟨e, rfl⟩ | ⟨u, hu, rfl⟩
    · exact ⟨rfl, rfl, fun _ _ _ => rfl⟩
    · have hlife := lifecycle_of_succeeds hu
      have hvalid := ivValid_of_succeeds hu
      have hiv := iv_of_succeeds hu
      exact ⟨hlife, hvalid, hiv⟩
  · rw [exec_withDmem s m hi]
    cases exec i s <;> rfl

end Sys2Proof.Machine

/-! SUPPORT. Proofs of the statements of spec/60_exceptions.md: a completion that shows an error is `errorState` of the state before
it, and a running core drops what is written to CMD. -/

namespace Sys2Proof.Machine

/-! ### Errors (R290, R295) -/

/-- A completion that shows an error writes nothing but that error: neither an illegal word nor a command's error writes more, and a
success shows none. -/
theorem completeCommand_error {s t : State} (h : completeCommand s = .next t) (herr : t.err = true) : ∃ e, t = errorState e s := by
  rcases completeCommand_cases h with ⟨i, -, hi⟩ | ⟨-, -, rfl⟩
  · rcases exec_cases hi with he | ⟨u, -, rfl⟩
    · exact he
    · exact absurd herr (by simp)
  · exact ⟨.illegalCommand, rfl⟩

/-- Settles O14: the completion writes one error and nothing more, no error has code 0, and a running command shows PVSDEG 0. -/
theorem errorChangesOnlyStatus : Obligations.ErrorChangesOnlyStatus := by
  intro s t hb hw h herr
  rw [step_of_last hb hw] at h
  obtain ⟨e, rfl⟩ := completeCommand_error h herr
  refine ⟨rfl, code_ne_zero e, fun hinv => ?_⟩
  obtain ⟨-, -, hpvsdeg⟩ := hinv.running hb
  exact hpvsdeg

/-! ### A CMD write while BUSY (R301) -/

theorem writeReg_cmd_busy (v : Word) {s : State} (hb : s.busy = true) : writeReg (regOffset .cmd) v s = { s with drop := true } := by
  rw [writeReg_busy _ v s hb, regAt_regOffset, if_pos rfl]

/-- Settles O9: CMD's register is at offset 0, and a running core sets DROP for a write to it and keeps the rest. -/
theorem cmdWriteWhileBusyIsDropped : Obligations.CmdWriteWhileBusyIsDropped := by
  intro s n v ms hb hw hm
  rw [step_of_running_cons hb hw hm]
  exact (hostMove_write_register .cmd v _).trans (congrArg _ (writeReg_cmd_busy v (s := { s with wait := n, moves := ms }) hb))

end Sys2Proof.Machine

/-! SUPPORT. Proofs of the statements of spec/70_reset_and_hazards.md: a host that waits after every command, what a reset leaves,
and an in-place ENCRYPT undone by a DECRYPT. -/

namespace Sys2Proof.Machine

/-! ### A host that waits (R93, R327, R328) -/

/-- With no race recorded, ENCRYPT's effect is its output in the output range, beside the IV and PVSDEG (R240). -/
theorem writeOutput_assignMissingIv {s : State} (o : Bool) (out : List Byte) (hraced : s.raced = false) :
    writeOutput o out { assignMissingIv s with pvsdeg := pvsDegrades s } =
      { assignMissingIv s with pvsdeg := pvsDegrades s, dmem := s.dmem.writeBytes (outAddr o s) out } := by
  rw [assignMissingIv_frame]
  exact writeOutput_clean o out _ hraced

/-- With no race recorded, the effect of a command takes no draw (R98). -/
theorem succeeds_raceless {s u : State} {i : Instr} (h : Succeeds s i u) (hraced : s.raced = false) :
    u.draws = s.draws ∧ u.drop = s.drop ∧ u.moves = s.moves := by
  cases h with
  | encrypt o hc =>
    rw [writeOutput_assignMissingIv o _ hraced, assignMissingIv_frame]
    exact ⟨rfl, rfl, rfl⟩
  | decrypt o hc =>
    rw [writeOutput_clean o _ { s with pvsdeg := pvsDegrades s } hraced]
    exact ⟨rfl, rfl, rfl⟩
  | _ => exact ⟨rfl, rfl, rfl⟩

/-- With no race recorded, a completion, legal or not, takes no draw; and none leaves a race recorded (R98). -/
theorem completeCommand_raceless {s t : State} (h : completeCommand s = .next t) (hraced : s.raced = false) :
    t.raced = false ∧ t.draws = s.draws ∧ t.drop = s.drop ∧ t.moves = s.moves := by
  rcases completeCommand_cases h with ⟨i, -, hi⟩ | ⟨-, -, rfl⟩
  · rcases exec_cases hi with ⟨e, rfl⟩ | ⟨u, hu, rfl⟩
    · exact ⟨rfl, rfl, rfl, rfl⟩
    · obtain ⟨hdraws, hdrop, hmoves⟩ := succeeds_raceless hu hraced
      exact ⟨rfl, hdraws, hdrop, hmoves⟩
  · exact ⟨rfl, rfl, rfl, rfl⟩

theorem runningBuffer_idle {s : State} (hb : s.busy = false) : runningBuffer s = none := by simp [runningBuffer, hb]

theorem resetDmem_of_none {s : State} (h : runningBuffer s = none) : resetDmem s = (s.dmem, s.draws) := by simp [resetDmem, h]

theorem aligned_of_wordAccess {offset width : Nat} (h : wordAccess offset width = true) : offset % 4 = 0 := by
  simp only [wordAccess, Bool.and_eq_true, decide_eq_true_eq] at h
  exact h.2

/-- `t` shows no draw, no race and no dropped command that `s` did not, and the same moves are to come. -/
structure KeepsQuiet (s t : State) : Prop where
  draws : t.draws = s.draws
  drop : t.drop = true → s.drop = true
  raced : t.raced = true → s.raced = true
  moves : t.moves = s.moves

/-- An idle core's register write is quiet, and makes the core run only at CMD's offset (R33). -/
theorem writeReg_idle_quiet {offset width : Nat} (v : Word) {s : State} (hb : s.busy = false) (ha : offset % 4 = 0) :
    KeepsQuiet s (writeReg offset v s) ∧ ((writeReg offset v s).busy = true → writesCmd (.regWrite offset width v) = true) := by
  have idle {c : Prop} (h : s.busy = true) : c := Bool.noConfusion (hb.symm.trans h)
  by_cases hc : regAt offset = some .cmd
  · rw [writeReg_cmd_idle offset v s hb hc]
    exact ⟨⟨rfl, nofun, nofun, rfl⟩, fun _ => decide_eq_true (regOffset_of_regAt ha hc).symm⟩
  · rw [writeReg_idle offset v s hb hc]
    cases regAt offset with
    | none => exact ⟨⟨rfl, id, id, rfl⟩, idle⟩
    | some r =>
      simp only
      rw [storeReg_frame]
      exact ⟨⟨rfl, id, id, rfl⟩, idle⟩

/-- Every move of the host is quiet while the core is idle, and only a CMD write makes the core run. -/
theorem hostMove_idle_quiet {m : HostMove} {s t : State} (h : hostMove m s = .next t) (hb : s.busy = false) :
    KeepsQuiet s t ∧ (t.busy = true → writesCmd m = true) := by
  have hnone := runningBuffer_idle hb
  have idle {c : Prop} (h : s.busy = true) : c := Bool.noConfusion (hb.symm.trans h)
  rcases hostMove_cases h with ⟨offset, width, -, -, -, rfl⟩ | ⟨offset, width, v, rfl, -, hword, rfl⟩ |
    ⟨addr, width, -, -, -, rfl⟩ | ⟨addr, width, v, -, -, -, rfl⟩ | ⟨-, rfl⟩ | ⟨-, rfl⟩
  · rw [readReg_idle offset s hb]
    exact ⟨⟨rfl, id, id, rfl⟩, idle⟩
  · exact writeReg_idle_quiet v hb (aligned_of_wordAccess hword)
  · rw [hostReadBytes_idle addr width s hb]
    exact ⟨⟨rfl, id, id, rfl⟩, idle⟩
  · rw [hostWriteBytes_of_none addr _ hnone]
    exact ⟨⟨rfl, id, id, rfl⟩, idle⟩
  · rw [hb]
    exact ⟨⟨rfl, id, id, rfl⟩, idle⟩
  · refine ⟨⟨?_, nofun, nofun, rfl⟩, nofun⟩
    rw [resetState_draws, resetDmem_of_none hnone]

/-- The script of a host that waits, move by move. -/
theorem waitsAfterCmd_cons {m : HostMove} {ms : List HostMove} :
    waitsAfterCmd (m :: ms) = true ↔ (writesCmd m = true → nextIsPoll ms = true) ∧ waitsAfterCmd ms = true := by
  simp only [waitsAfterCmd, Bool.and_eq_true, Bool.or_eq_true, Bool.not_eq_true', ← Bool.not_eq_true, imp_iff_not_or]

/-- While a command runs, a poll is recorded and stays to be made again (R132). -/
theorem hostMove_poll_running {s : State} (hb : s.busy = true) : hostMove .poll s =
    .next (logRead (.reg (regOffset .status) (statusWord s)) { s with moves := .poll :: s.moves }) := by
  simp [hostMove, hb]

/-- A host step beside a command of a disciplined host is a poll, which stays to be made again, or nothing (R132). -/
theorem hostStep_polling {s t : State} (hb : s.busy = true) (hpoll : nextIsPoll s.moves = true) (h : hostStep s = .next t) :
    ∃ log, t = { s with hostLog := log } := by
  rcases hostStep_cases h with ⟨-, rfl⟩ | ⟨m, rest, hm, hmove⟩
  · exact ⟨_, rfl⟩
  · obtain rfl : m = .poll := by simpa [hm, nextIsPoll] using hpoll
    have hback : { s with moves := .poll :: rest } = s := by rw [← hm]
    cases (hostMove_poll_running (s := { s with moves := rest }) hb).symm.trans hmove
    exact ⟨_, congrArg (logRead _) hback⟩

/-- A host step of a disciplined host while the core is idle: a CMD write is followed by a poll. -/
theorem hostStep_idle_disciplined {s t : State} (hs : Disciplined s) (hb : s.busy = false) (h : hostStep s = .next t) :
    Disciplined t ∧ t.draws = s.draws ∧ (t.drop = true → s.drop = true) := by
  rcases hostStep_cases h with ⟨-, rfl⟩ | ⟨m, rest, hm, hmove⟩
  · exact ⟨hs, rfl, id⟩
  · obtain ⟨⟨hdraws, hdrop, hraced, hmoves⟩, hrun⟩ := hostMove_idle_quiet (s := { s with moves := rest }) hmove hb
    obtain ⟨hpoll, hscript⟩ := waitsAfterCmd_cons.mp (hm ▸ hs.script)
    refine ⟨⟨fun hbusy => ?_, ?_, Bool.eq_false_iff.mpr fun hr => ?_⟩, hdraws, hdrop⟩
    · rw [hmoves]; exact hpoll (hrun hbusy)
    · rw [hmoves]; exact hscript
    · exact Bool.noConfusion (hs.raceless.symm.trans (hraced hr))

/-- Settles O27: with no race a completion takes no draw, beside a command the host only polls, and while idle no move takes a draw
and only a CMD write, which a poll follows, makes the core run. -/
theorem waitingHostMeetsNoDraw : Obligations.WaitingHostMeetsNoDraw := by
  intro s t hs h
  rcases step_cases h with ⟨-, -, hc⟩ | ⟨hb, n, -, hh⟩ | ⟨hb, hh⟩
  · obtain ⟨hidle, -⟩ := completeCommand_ends hc
    obtain ⟨hraced, hdraws, hdrop, hmoves⟩ := completeCommand_raceless hc hs.raceless
    exact ⟨⟨fun hbusy => Bool.noConfusion (hidle.symm.trans hbusy), hmoves ▸ hs.script, hraced⟩, hdraws, fun ht => hdrop ▸ ht⟩
  · obtain ⟨log, rfl⟩ := hostStep_polling (s := { s with wait := n }) hb (hs.polling hb) hh
    exact ⟨⟨hs.polling, hs.script, hs.raceless⟩, rfl, id⟩
  · exact hostStep_idle_disciplined hs hb hh

/-! ### Reset (R59, R84, R320 to R322) -/

theorem resetDmem_of_running {s : State} {o : Bool} (h : runningBuffer s = some o) :
    (resetDmem s).1 = s.dmem.writeBytes (outAddr o s) (freeBytes s.draws (min s.size.toNat (s.params.dmemSize - outAddr o s))) := by
  simp [resetDmem, h]

/-- Reset leaves a draw in each byte inside DMEM of the output range of a command in flight (R321). -/
theorem resetDmem_inside {s : State} {o : Bool} {k : Nat} (h : runningBuffer s = some o) (hk : k < s.size.toNat)
    (hin : outAddr o s + k < s.params.dmemSize) : (resetDmem s).1.byteAt (outAddr o s + k) = Config.freeByte (s.draws + k) := by
  have hlt : k < min s.size.toNat (s.params.dmemSize - outAddr o s) := by omega
  rw [resetDmem_of_running h, Memory.byteAt_writeBytes, freeBytes_length, if_pos (by omega)]
  simp [freeBytes, hlt]

/-- Settles O24: a reset is `resetState`, whose DMEM is `resetDmem`. -/
theorem resetStepKeepsDmem : Obligations.ResetStepKeepsDmem := fun s =>
  ⟨resetState s, rfl, rfl, resetDmem_outside s, fun _ _ hrun hk hin => resetDmem_inside hrun hk hin⟩

theorem leNat_replicate_zero (n : Nat) : leNat (List.replicate n 0#8) = 0 := by
  induction n with
  | zero => rfl
  | succ n ih => simp [List.replicate_succ, leNat, ih]

/-- Every register of a zero byte array reads 0. -/
theorem laneWord_replicate_zero (n j : Nat) : laneWord (Vector.replicate n 0) j = 0 := by
  simp [laneWord, wordOfBytes, leNat_replicate_zero]

/-- Every register reads 0 in the reset state (R59, R322). -/
theorem regValue_reset (r : RegName) : regValue r State.reset = 0 := by
  cases r with
  | cmd | status | cfg | size | src | dst | piaddr | pilen | tseed | result | kinfo | iv | ks => rfl
  | keyin j => exact laneWord_replicate_zero 32 j
  | ivin j => exact laneWord_replicate_zero 16 j
  | block j => exact laneWord_replicate_zero 16 j
  | key j => exact laneWord_replicate_zero 32 j

/-- A reset leaves every register at its reset value. -/
theorem regValue_resetState (r : RegName) (s : State) : regValue r (resetState s) = regValue r State.reset := rfl

/-- Settles O23: a reset core is idle, so a read takes no draw and a CMD write is accepted. -/
theorem resetReadsZero : Obligations.ResetReadsZero := by
  refine ⟨fun s r => ⟨regValue_reset r, ?_⟩, fun s v => ?_, regValue_reset⟩
  · rw [readReg_regOffset, regValue_resetState, regValue_reset]
    rfl
  · rw [writeReg_cmd_idle 0 v (resetState s) rfl rfl]
    exact ⟨rfl, rfl⟩

/-! ### An in-place ENCRYPT and then a DECRYPT (R248, R254, R269, R330) -/

/-- In every mode decryption undoes encryption (R248, R254, R269). -/
theorem decryptBytes_encryptBytes (s : State) {buf : List Byte} (hn : 16 ≤ buf.length) :
    decryptBytes s (encryptBytes s buf) = buf := by
  cases hmode : s.mode with
  | ecb =>
    rw [encryptBytes_ecb hmode, decryptBytes_ecb hmode]
    exact ecbRoundTrip s.ks s.nr.toNat buf hn
  | cbc =>
    rw [encryptBytes_cbc hmode, decryptBytes_cbc hmode]
    exact cbcRoundTrip s.params.cbcTail s.ks s.nr.toNat s.iv buf hn
  | pvs =>
    by_cases hpi : piAvailable s = true
    · rw [encryptBytes_pvs hmode hpi, decryptBytes_pvs hmode hpi, ecbRoundTrip s.ks s.nr.toNat _ (by rwa [pvsXor_length])]
      exact pvsXor_pvsXor (pvsKeyOperand s) (piBytes s) (piWindows s) buf
    · rw [encryptBytes_pvs_degraded hmode hpi, decryptBytes_pvs_degraded hmode hpi]
      exact ecbRoundTrip s.ks s.nr.toNat buf hn

/-- What a buffer command reads of the state, beside DMEM (R111, R242), is the same in both states. -/
structure SameOperands (s t : State) : Prop where
  src : t.src = s.src
  dst : t.dst = s.dst
  size : t.size = s.size
  piaddr : t.piaddr = s.piaddr
  pilen : t.pilen = s.pilen
  mode : t.mode = s.mode
  ks : t.ks = s.ks
  nr : t.nr = s.nr
  ksValid : t.ksValid = s.ksValid
  iv : t.iv = s.iv
  ivValid : t.ivValid = s.ivValid
  params : t.params = s.params

namespace SameOperands
variable {s t : State} (h : SameOperands s t)
include h

/-- Acceptance changes no operand (R54). -/
theorem accepted (w : Word) : SameOperands s (latch w t) :=
  ⟨h.src, h.dst, h.size, h.piaddr, h.pilen, h.mode, h.ks, h.nr, h.ksValid, h.iv, h.ivValid, h.params⟩

theorem piAvailable_eq : piAvailable t = piAvailable s := by simp only [piAvailable, h.piaddr, h.pilen]

theorem piWindows_eq : piWindows t = piWindows s := by simp only [piWindows, h.pilen]

theorem piBytesLen_eq : piBytesLen t = piBytesLen s := by rw [piBytesLen, h.piWindows_eq, piBytesLen]

theorem pvsDegrades_eq : pvsDegrades t = pvsDegrades s := by simp only [pvsDegrades, h.mode, h.piAvailable_eq]

theorem pvsKeyOperand_eq : pvsKeyOperand t = pvsKeyOperand s := by simp only [pvsKeyOperand, h.params, h.ks]

theorem outAddr_eq (o : Bool) : outAddr o t = outAddr o s := by simp only [outAddr, h.src, h.dst]

theorem inRange_eq (a n : Nat) : inRange t a n = inRange s a n := by simp only [inRange, h.params]

theorem checkBuffer_eq (dir : Dir) (o : Bool) : checkBuffer dir o t = checkBuffer dir o s := by
  simp only [checkBuffer, h.src, h.dst, h.size, h.piaddr, h.mode, h.ksValid, h.ivValid, h.inRange_eq, h.outAddr_eq,
    h.piAvailable_eq, h.piBytesLen_eq]

/-- With the same π stream, where it is used, both states decrypt alike (R243). -/
theorem decryptBytes_eq (hpi : s.mode = .pvs → piAvailable s = true → piBytes t = piBytes s) (buf : List Byte) :
    decryptBytes t buf = decryptBytes s buf := by
  cases hm : s.mode with
  | ecb => rw [decryptBytes_ecb hm, decryptBytes_ecb (h.mode.trans hm), h.ks, h.nr]
  | cbc => rw [decryptBytes_cbc hm, decryptBytes_cbc (h.mode.trans hm), h.ks, h.nr, h.iv, h.params]
  | pvs =>
    by_cases ha : piAvailable s = true
    · rw [decryptBytes_pvs hm ha, decryptBytes_pvs (h.mode.trans hm) (h.piAvailable_eq.trans ha), h.pvsKeyOperand_eq,
        h.piWindows_eq, hpi hm ha, h.ks, h.nr]
    · rw [decryptBytes_pvs_degraded hm ha, decryptBytes_pvs_degraded (h.mode.trans hm) (h.piAvailable_eq ▸ ha), h.ks, h.nr]

end SameOperands

/-- A range write reads back as the bytes written. -/
theorem Memory.readBytes_writeBytes_of_length {m : Memory} {a n : Nat} {bs : List Byte} (h : bs.length = n) :
    (m.writeBytes a bs).readBytes a n = bs := by
  rw [← h, Memory.readBytes_writeBytes]

/-- A write beside a range leaves what the range reads as. -/
theorem Memory.readBytes_writeBytes_disjoint {m : Memory} {a b n : Nat} {bs : List Byte} (h : b + n ≤ a ∨ a + bs.length ≤ b) :
    (m.writeBytes a bs).readBytes b n = m.readBytes b n := by
  refine Memory.readBytes_congr _ _ _ _ fun i hi => ?_
  rw [Memory.byteAt_writeBytes, if_neg (by omega)]

/-- Writing back the bytes read before a range was overwritten restores the whole memory. -/
theorem Memory.byteAt_writeBytes_restore {m : Memory} {a n : Nat} {bs : List Byte} (h : bs.length = n) (x : Nat) :
    ((m.writeBytes a bs).writeBytes a (m.readBytes a n)).byteAt x = m.byteAt x := by
  rw [Memory.byteAt_writeBytes, Memory.readBytes_length]
  split
  · next hx =>
    have hlt : x - a < (m.readBytes a n).length := by rw [Memory.readBytes_length]; omega
    rw [List.getD_eq_getElem _ _ hlt, Memory.readBytes_getElem, Nat.add_sub_cancel' hx.1]
  · next hx => rw [Memory.byteAt_writeBytes, h, if_neg hx]

/-- To a buffer command `t` is `s` with the buffer encrypted in place (R240). -/
structure EncryptedInPlace (s t : State) : Prop where
  operands : SameOperands s t
  dmem : t.dmem = s.dmem.writeBytes s.src.toNat (encryptBytes s (inputBytes s))

/-- An in-place ENCRYPT that succeeds without a race assigns a missing IV and then encrypts (R240, R256). -/
theorem encryptedInPlace_of_exec {s t : State} (hraced : s.raced = false) (h : exec (.encrypt false) s = .next t)
    (herr : t.err = false) : checkBuffer .enc false s = none ∧ t.pvsdeg = pvsDegrades (assignMissingIv s) ∧
      EncryptedInPlace (assignMissingIv s) t := by
  rcases exec_cases h with ⟨e, rfl⟩ | ⟨u, hu, rfl⟩
  · cases herr
  · cases hu with
    | encrypt _ hc =>
      refine ⟨hc, ?_⟩
      rw [writeOutput_assignMissingIv false _ hraced, assignMissingIv_frame]
      exact ⟨rfl, ⟨rfl, rfl, rfl, rfl, rfl, rfl, rfl, rfl, rfl, rfl, rfl, rfl⟩, rfl⟩

/-- Once a missing IV is assigned, the checks of ENCRYPT are those of DECRYPT (R242, R256). -/
theorem checkBuffer_dec_assignMissingIv {o : Bool} {s : State} (h : checkBuffer .enc o s = none) :
    checkBuffer .dec o (assignMissingIv s) = none := by
  obtain ⟨hsrc, hdst, hks, -, hsize, hin, hout, hpi⟩ := (checkBuffer_eq_none _ _ _).mp h
  rw [assignMissingIv_frame]
  refine (checkBuffer_eq_none _ _ _).mpr ⟨hsrc, hdst, hks, fun ⟨_, hmode, hiv⟩ => ?_, hsize, hin, hout, hpi⟩
  have hmode : s.mode = .cbc := hmode
  simp [assignMissingIv_ivValid, hmode] at hiv

/-- A DECRYPT whose checks pass, without a race (R241). -/
theorem exec_decrypt_raceless {o : Bool} {s : State} (hc : checkBuffer .dec o s = none) (hraced : s.raced = false) :
    exec (.decrypt o) s = .next (completed
      { s with pvsdeg := pvsDegrades s, dmem := s.dmem.writeBytes (outAddr o s) (decryptBytes s (inputBytes s)) }) := by
  have h := execDecrypt_ok o s hc
  rwa [writeOutput_clean o _ { s with pvsdeg := pvsDegrades s } hraced] at h

/-- The π range, where PVS uses it, does not meet the buffer (R269). -/
def piApart (s : State) : Prop :=
  s.mode = .pvs → piAvailable s = true →
    s.piaddr.toNat + piBytesLen s ≤ s.src.toNat ∨ s.src.toNat + s.size.toNat ≤ s.piaddr.toNat

namespace EncryptedInPlace
variable {s t : State} (h : EncryptedInPlace s t)
include h

theorem accepted (w : Word) : EncryptedInPlace s (latch w t) := ⟨h.operands.accepted w, h.dmem⟩

theorem inputBytes_eq (hsize : 16 ≤ s.size.toNat) : inputBytes t = encryptBytes s (inputBytes s) := by
  rw [inputBytes, h.dmem, h.operands.src, h.operands.size]
  exact Memory.readBytes_writeBytes_of_length (encryptOutput_length s hsize)

theorem piBytes_eq (hsize : 16 ≤ s.size.toNat) (hpi : piApart s) (hmode : s.mode = .pvs) (ha : piAvailable s = true) :
    piBytes t = piBytes s := by
  rw [piBytes, h.dmem, h.operands.piaddr, h.operands.piBytesLen_eq]
  exact Memory.readBytes_writeBytes_disjoint (by rw [encryptOutput_length s hsize]; exact hpi hmode ha)

/-- What DECRYPT computes is what was encrypted. -/
theorem decryptBytes_inputBytes (hsize : 16 ≤ s.size.toNat) (hpi : piApart s) : decryptBytes t (inputBytes t) = inputBytes s := by
  rw [h.inputBytes_eq hsize, h.operands.decryptBytes_eq (h.piBytes_eq hsize hpi)]
  exact decryptBytes_encryptBytes s (by rwa [inputBytes_length])

/-- A DECRYPT without a race passes its checks and restores DMEM. -/
theorem decrypt_restores (hraced : t.raced = false) (hc : checkBuffer .dec false s = none) (hpi : piApart s) :
    ∃ u, exec (.decrypt false) t = .next u ∧ u.err = false ∧ u.pvsdeg = pvsDegrades s ∧ u.iv = t.iv ∧
      ∀ a, u.dmem.byteAt a = s.dmem.byteAt a := by
  obtain ⟨-, hsize, -⟩ := checkBuffer_passes hc
  have hexec := exec_decrypt_raceless ((h.operands.checkBuffer_eq .dec false).trans hc) hraced
  refine ⟨_, hexec, rfl, h.operands.pvsDegrades_eq, rfl, fun a => ?_⟩
  rw [completed_dmem, h.decryptBytes_inputBytes hsize hpi, h.dmem, outAddr, if_neg Bool.false_ne_true, h.operands.src]
  exact Memory.byteAt_writeBytes_restore (encryptOutput_length s hsize) a

end EncryptedInPlace

/-- Settles O55: ENCRYPT assigns a missing IV and encrypts in place, and the DECRYPT undoes the encryption with the same IV. -/
theorem encryptThenDecryptRestoresDmem : Obligations.EncryptThenDecryptRestoresDmem := by
  intro s t w hraced h herr hpi
  obtain ⟨hc, hdeg, henc⟩ := encryptedInPlace_of_exec hraced h herr
  have hapart : piApart (assignMissingIv s) := by rw [assignMissingIv_frame]; exact hpi
  have hdmem : (assignMissingIv s).dmem = s.dmem := by rw [assignMissingIv_frame]
  have hdec := (henc.accepted w).decrypt_restores rfl (checkBuffer_dec_assignMissingIv hc) hapart
  rwa [← hdeg, hdmem] at hdec

end Sys2Proof.Machine
